-- ==== Sys2Proof/Word.lean ====
section
/-! DEFINITION. The plain value types of the 93Cx6 serial protocol engine: levels, the configuration
enumerations, delay kinds, bus operations, and the command word. Rules of `spec/00_scope.md` and
`spec/10_state.md`. -/

namespace Sys2Proof

/-- A wire level (rule R11: `Low` is 0, `High` is 1). -/
inductive Level where
  | low
  | high
  deriving DecidableEq, Repr, Inhabited

/-- The level that stands for a bit (rule R11). -/
def Level.ofBool : Bool → Level
  | false => .low
  | true => .high

/-- The number a level stands for (rule R11). -/
def Level.toNat : Level → Nat
  | .low => 0
  | .high => 1

/-- The five supported chip models (rule R6). -/
inductive Model where
  | c46
  | c56
  | c66
  | c76
  | c86
  deriving DecidableEq, Repr

/-- The two organisations: the width of one addressable unit (rule R6). -/
inductive Organization where
  | eightBit
  | sixteenBit
  deriving DecidableEq, Repr

/-- The four places where the document names a delay (rules R8 and R12). -/
inductive DelayKind where
  | cs
  | tx
  | rx
  | poll
  deriving DecidableEq, Repr

/-- The three pins the engine drives (rule R11). `DO` is the one pin it reads, so it is no value here
(rule R35: the engine never writes DO). -/
inductive OutPin where
  | cs
  | sk
  | di
  deriving DecidableEq, Repr

/-- What one bus transaction asks of the chip (rules R81 to R86): the seven bus operations, with the
address field and the transmitted payload as numbers. -/
inductive BusOp where
  | enable
  | disable
  | eraseAll
  | writeAll (payload : Nat)
  | write (field payload : Nat)
  | read (field : Nat)
  | erase (field : Nat)
  deriving DecidableEq, Repr

/-- The command port as one word. The spec gives the five fields and their widths (rule R32) and no packing;
the packing is the model's (log entry 3). -/
abbrev CmdWord := BitVec 64

end Sys2Proof
end

