-- ==== Sys2Proof/Syntax.lean ====
section
/-! DEFINITION. The commands of the command port (rules R95 to R98), one constructor for each mnemonic of
`spec/opcode_table.json`. The table's 42 `bus` rows are the frames these commands SEND; they are `BusOp`
(Word.lean), not commands (log entry 4). -/

namespace Sys2Proof

/-- One command (rule R96). The seven bus operations carry `cmd_addr` and `cmd_data` whether or not
the operation uses them, because rule R205 latches both "also those that do not use them". Operands are unbounded
naturals as rule R9 allows; `Instr.wf` says which fit the ports. -/
inductive Instr where
  /-- `OPEN model, organization` (rule R110); `cfgModel` is the raw code of rule R21. -/
  | openDev (cfgModel : Nat) (cfgOrg : Organization)
  /-- `ENABLE` (rule R161). -/
  | enable (addr data : Nat)
  /-- `DISABLE` (rule R162). -/
  | disable (addr data : Nat)
  /-- `ISWE` (rule R163). -/
  | iswe
  /-- `ERASEALL` (rule R164). -/
  | eraseAll (addr data : Nat)
  /-- `ERASE address` (rule R183). -/
  | erase (addr data : Nat)
  /-- `WRITEALL value` (rule R165). -/
  | writeAll (addr data : Nat)
  /-- `WRITE address, value` (rule R182). -/
  | write (addr data : Nat)
  /-- `READ address` (rule R181). -/
  | read (addr data : Nat)
  /-- The reserved codes 9 to 15 (rule R97). -/
  | reserved9
  | reserved10
  | reserved11
  | reserved12
  | reserved13
  | reserved14
  | reserved15
  deriving DecidableEq, Repr

end Sys2Proof
end

