-- ==== Sys2Proof/WellFormed.lean ====
section
/-! DEFINITION. Which commands fit the ports of rules R9 and R32. A command that does not fit can still be run
(rule R9: "A model may instead take address and value as unbounded naturals"); it has no port word. -/

namespace Sys2Proof

/-- `cmd_addr` and `cmd_data` are 16 bits wide (rule R9). -/
abbrev operandsFit (addr data : Nat) : Prop := addr < 2 ^ 16 ∧ data < 2 ^ 16

/-- The command's operands fit the ports: `cfg_model` 3 bits, `cmd_addr` and `cmd_data` 16 bits (rule R9). -/
def Instr.wf : Instr → Bool
  | .openDev m _ => decide (m < 2 ^ 3)
  | .enable a d => decide (operandsFit a d)
  | .disable a d => decide (operandsFit a d)
  | .iswe => true
  | .eraseAll a d => decide (operandsFit a d)
  | .erase a d => decide (operandsFit a d)
  | .writeAll a d => decide (operandsFit a d)
  | .write a d => decide (operandsFit a d)
  | .read a d => decide (operandsFit a d)
  | .reserved9 => true
  | .reserved10 => true
  | .reserved11 => true
  | .reserved12 => true
  | .reserved13 => true
  | .reserved14 => true
  | .reserved15 => true

/-- The fields of a bus operation fit an `A`-bit field and a `W`-bit payload (rules R85 and R86). -/
def BusOp.wf (A W : Nat) : BusOp → Bool
  | .enable => true
  | .disable => true
  | .eraseAll => true
  | .writeAll d => decide (d < 2 ^ W)
  | .write f d => decide (f < 2 ^ A ∧ d < 2 ^ W)
  | .read f => decide (f < 2 ^ A)
  | .erase f => decide (f < 2 ^ A)

end Sys2Proof
end

