-- ==== Sys2Proof/Decode.lean ====
section
/-! DEFINITION. The two encodings of `spec/30_encoding.md`: the command-port encoding (rules R95 to R97), which
the engine decodes, and the bus encoding (rules R80 to R91), which the engine sends and the chip decodes. Each has a
decoder, total, and an encoder. -/

namespace Sys2Proof

/-! ## The command port -/

/-- Why a word is no command. -/
inductive DecodeError where
  /-- A bit is set where the command port has no wire. -/
  | padBits
  deriving DecidableEq, Repr

/-- Bits `lo+width-1` to `lo` of a command word, as a number. -/
def cmdField (lo width : Nat) (w : CmdWord) : Nat := w.toNat / 2 ^ lo % 2 ^ width

/-- `cfg_org` as the organisation (rule R21: raw 0 is `EightBit`, raw 1 is `SixteenBit`). -/
def orgOfRaw (raw : Nat) : Organization := if raw = 0 then .eightBit else .sixteenBit

/-- The raw code of an organisation (rule R21). -/
def orgRaw : Organization → Nat
  | .eightBit => 0
  | .sixteenBit => 1

/-- The command a `cmd_op` code and the argument ports stand for (rules R95 and R96); the ports an operation does not
use are ignored. -/
def commandOf (code : Nat) (m : Nat) (o : Organization) (a d : Nat) : Instr :=
  match code with
  | 0 => .openDev m o
  | 1 => .enable a d
  | 2 => .disable a d
  | 3 => .iswe
  | 4 => .eraseAll a d
  | 5 => .erase a d
  | 6 => .writeAll a d
  | 7 => .write a d
  | 8 => .read a d
  | 9 => .reserved9
  | 10 => .reserved10
  | 11 => .reserved11
  | 12 => .reserved12
  | 13 => .reserved13
  | 14 => .reserved14
  | _ => .reserved15

/-- Decode a command word: `cmd_op` in bits 3..0 (as `spec/opcode_table.json` numbers it), `cfg_model` in
18..16, `cfg_org` in 19, `cmd_addr` in 47..32, `cmd_data` in 63..48; every other bit must be 0 (log entry 3). -/
def decode (w : CmdWord) : Except DecodeError Instr :=
  if cmdField 4 12 w = 0 ∧ cmdField 20 12 w = 0 then
    .ok (commandOf (cmdField 0 4 w) (cmdField 16 3 w) (orgOfRaw (cmdField 19 1 w)) (cmdField 32 16 w)
      (cmdField 48 16 w))
  else .error .padBits

/-- The `cmd_op` code of a command (rule R96). -/
def Instr.code : Instr → Nat
  | .openDev _ _ => 0
  | .enable _ _ => 1
  | .disable _ _ => 2
  | .iswe => 3
  | .eraseAll _ _ => 4
  | .erase _ _ => 5
  | .writeAll _ _ => 6
  | .write _ _ => 7
  | .read _ _ => 8
  | .reserved9 => 9
  | .reserved10 => 10
  | .reserved11 => 11
  | .reserved12 => 12
  | .reserved13 => 13
  | .reserved14 => 14
  | .reserved15 => 15

/-- Put the port fields in their places (the packing of `decode`). -/
def packCommand (code m o a d : Nat) : CmdWord :=
  BitVec.ofNat 64 (code + m * 2 ^ 16 + o * 2 ^ 19 + a * 2 ^ 32 + d * 2 ^ 48)

/-- Encode a command; the ports it does not use hold 0. -/
def encode (i : Instr) : CmdWord :=
  match i with
  | .openDev m o => packCommand i.code m (orgRaw o) 0 0
  | .enable a d => packCommand i.code 0 0 a d
  | .disable a d => packCommand i.code 0 0 a d
  | .iswe => packCommand i.code 0 0 0 0
  | .eraseAll a d => packCommand i.code 0 0 a d
  | .erase a d => packCommand i.code 0 0 a d
  | .writeAll a d => packCommand i.code 0 0 a d
  | .write a d => packCommand i.code 0 0 a d
  | .read a d => packCommand i.code 0 0 a d
  | .reserved9 => packCommand i.code 0 0 0 0
  | .reserved10 => packCommand i.code 0 0 0 0
  | .reserved11 => packCommand i.code 0 0 0 0
  | .reserved12 => packCommand i.code 0 0 0 0
  | .reserved13 => packCommand i.code 0 0 0 0
  | .reserved14 => packCommand i.code 0 0 0 0
  | .reserved15 => packCommand i.code 0 0 0 0

/-- The command word whose low `nbits` bits are `w`, every bit above 0. -/
def tableWord (nbits w : Nat) : CmdWord := BitVec.ofNat 64 (w % 2 ^ nbits)

/-- The command the decoder reads from a table row's bits. -/
def decodeTableWord (nbits w : Nat) : Option Instr :=
  match decode (tableWord nbits w) with
  | .ok i => some i
  | .error _ => none

/-! ## The bus -/

/-- The `n` low bits of `v`, most significant bit first (rule R53). -/
def bitsMsb : Nat → Nat → List Level
  | 0, _ => []
  | n + 1, v => Level.ofBool (v.testBit n) :: bitsMsb n v

/-- The number a most-significant-first bit string stands for (rule R53). -/
def bitsValue (bits : List Level) : Nat := bits.foldl (fun v l => 2 * v + l.toNat) 0

/-- The bits of a transaction as the engine sends them: start marker, 2-bit opcode, `A`-bit field, transmitted payload
(rules R80 to R86, R89 and R91). -/
def encodeBus (A W : Nat) : BusOp → List Level
  | .enable => .high :: (bitsMsb 2 0b00 ++ bitsMsb 2 0b11 ++ bitsMsb (A - 2) 0)
  | .disable => .high :: (bitsMsb 2 0b00 ++ bitsMsb 2 0b00 ++ bitsMsb (A - 2) 0)
  | .eraseAll => .high :: (bitsMsb 2 0b00 ++ bitsMsb 2 0b10 ++ bitsMsb (A - 2) 0)
  | .writeAll d => .high :: (bitsMsb 2 0b00 ++ bitsMsb 2 0b01 ++ bitsMsb (A - 2) 0 ++ bitsMsb W d)
  | .write f d => .high :: (bitsMsb 2 0b01 ++ bitsMsb A f ++ bitsMsb W d)
  | .read f => .high :: (bitsMsb 2 0b10 ++ bitsMsb A f)
  | .erase f => .high :: (bitsMsb 2 0b11 ++ bitsMsb A f)

/-- The control operation a 2-bit sub-code names (rule R84), given whether a payload of the right length, or none,
followed the frame. -/
def controlOp (sub : Nat) (bare full : Bool) (payload : Nat) : Option BusOp :=
  match sub with
  | 0 => if bare then some .disable else none
  | 1 => if full then some (.writeAll payload) else none
  | 2 => if bare then some .eraseAll else none
  | _ => if bare then some .enable else none

/-- What a chip with an `A`-bit address field and `W`-bit units reads from the bits clocked in during one
chip-select period (rule R70's first column): a frame without payload needs exactly `3 + A` bits, one with payload
exactly `3 + A + W`, a READ at least `3 + A`; anything else is no operation. -/
def decodeBus (A W : Nat) (bits : List Level) : Option BusOp :=
  let n := bits.length
  let field := bitsValue ((bits.drop 3).take A)
  let payload := bitsValue ((bits.drop (3 + A)).take W)
  let bare := decide (n = 3 + A)
  let full := decide (n = 3 + A + W)
  if bits.head? = some .high ∧ 3 + A ≤ n then
    match bitsValue ((bits.drop 1).take 2) with
    | 0 => controlOp (field / 2 ^ (A - 2)) bare full payload
    | 1 => if full then some (.write field payload) else none
    | 2 => some (.read field)
    | _ => if bare then some (.erase field) else none
  else none

end Sys2Proof
end

