-- ==== Sys2Proof/Machine/Resolver.lean ====
section
/-! DEFINITION. The Device Profile Resolver (rules R111 to R116) and the raw model codes of rule R21. -/

namespace Sys2Proof.Machine

open Sys2Proof

/-- What `resolve` returns. -/
structure Profile where
  capacityUnits : Nat
  addressBits : Nat
  addressMask : Nat
  deriving DecidableEq, Repr

/-- Step 1 of rule R112: base values from the organisation. -/
def baseProfile : Organization → Profile
  | .eightBit => { capacityUnits := 128, addressBits := 7, addressMask := 0x7F }
  | .sixteenBit => { capacityUnits := 64, addressBits := 6, addressMask := 0x3F }

/-- One arm of rule R112's `case`: multiply the capacity, add address bits, shift the mask and OR in ones. -/
def adjustProfile (factor extra ones : Nat) (p : Profile) : Profile where
  capacityUnits := p.capacityUnits * factor
  addressBits := p.addressBits + extra
  addressMask := (p.addressMask <<< extra) ||| ones

/-- `resolve(model, organization)`, the algorithm of rule R112: exactly one arm of the case runs. -/
def resolve (m : Model) (o : Organization) : Profile :=
  match m with
  | .c46 => baseProfile o
  | .c56 => adjustProfile 2 2 0x3 (baseProfile o)
  | .c66 => adjustProfile 4 2 0x3 (baseProfile o)
  | .c76 => adjustProfile 8 4 0xF (baseProfile o)
  | .c86 => adjustProfile 16 4 0xF (baseProfile o)

/-- `W`, the width of one unit (rule R7). -/
def unitWidth : Organization → Nat
  | .eightBit => 8
  | .sixteenBit => 16

/-- The model a raw `cfg_model` code names (rule R21); every code from 5 up "is not a model". -/
def modelOfRaw (raw : Nat) : Option Model :=
  match raw with
  | 0 => some .c46
  | 1 => some .c56
  | 2 => some .c66
  | 3 => some .c76
  | 4 => some .c86
  | _ => none

/-- The raw code of a model (rule R21). -/
def modelRaw : Model → Nat
  | .c46 => 0
  | .c56 => 1
  | .c66 => 2
  | .c76 => 3
  | .c86 => 4

end Sys2Proof.Machine
end

