-- ==== Sys2Proof/Config.lean ====
section
/-! DEFINITION. What the spec leaves open and the model does not choose: constants with no body, so that no
proof can see a value of them. (The one open parameter with a default, `POLL_LIMIT` of rule R8, is carried
in State, because a program's outcome depends on it.) -/

namespace Sys2Proof

/-- The level the environment returns to the `n`-th sample of DO that nothing else decides. "In the engine's own
model every `PinRead(DO)` returns a level chosen freely by the environment" (rule R62). -/
opaque Config.freeLevel : Nat → Level

/-- The reference responder's fresh draw of a busy time (rule R70: "any natural number"). -/
opaque Config.freeBusy : Nat → Nat

/-- The open parameters `T_CS`, `T_TX`, `T_RX`, `T_POLL` of rule R8: how many time units a `Delay(k)` lasts. -/
opaque Config.delayUnits : DelayKind → Nat

end Sys2Proof
end

