-- ==== Sys2Proof/Machine/State.lean ====
section
/-! DEFINITION. The state of the machine: every register of rule R20 under its own name, the agents around the engine
(the environment of rule R14 with the optional reference responder of rules R66 to R70, and the caller), the
poll limit parameter of rule R8, and the trace of rule R12. Plain data throughout. -/

namespace Sys2Proof.Machine

open Sys2Proof

/-- What the engine does to the outside (rule R12). `Cfg(p, Out)` exists for the three driven pins and `Cfg(DO, In)` for DO
(rule R34); a write of DO or a read of another pin is not expressible (rules R35, R36). -/
inductive Event where
  | pinWrite (pin : OutPin) (level : Level)
  | pinRead (level : Level)
  | delay (kind : DelayKind)
  | cfgOut (pin : OutPin)
  | cfgInDO
  deriving DecidableEq, Repr

/-- The 20 phases of the sequencer (rule R200). -/
inductive Phase where
  | idle
  | csHigh
  | csDelay
  | txData
  | txDly1
  | txSkHigh
  | txDly2
  | txSkLow
  | txDly3
  | rxSkHigh
  | rxDly1
  | rxSample
  | rxSkLow
  | rxDly2
  | csLow
  | pollCsHigh
  | pollSample
  | pollDly
  | pollCsLow
  | pollAbort
  deriving DecidableEq, Repr

/-- Which `sendBits` call of a transaction is running (rules R20, R27). The reset encoding 0 is read as `start`, the
first of the three (log entry 8). -/
inductive Seg where
  | start
  | frame
  | payload
  deriving DecidableEq, Repr

/-- The latched operation (rule R20 `op`, codes of rule R96; 0 is OPEN, the reset value). -/
inductive Op where
  | openDev
  | enable
  | disable
  | iswe
  | eraseAll
  | erase
  | writeAll
  | write
  | read
  deriving DecidableEq, Repr

/-- The status codes of rule R240; code 7 does not exist (`spec/93_implementation_defined.md` U16). -/
inductive Status where
  | ok
  | writeProtected
  | cfgError
  | notOpen
  | alreadyOpen
  | badOp
  | pollTimeout
  deriving DecidableEq, Repr

/-! ## The environment (rules R14, R62 and, for the responder, R66 to R70) -/

/-- The chip's array (rule R50): units of `W` bits by unit address. A unit not listed reads as `fill`; the list is in
canonical form (`Memory.wf`), so equal arrays are equal data (log entry 12). -/
structure Memory where
  fill : BitVec 16
  cells : List (Nat × BitVec 16)
  deriving DecidableEq, Repr

/-- The responder's `mode` (rule R67). -/
inductive ChipMode where
  | off
  | shift
  | status
  deriving DecidableEq, Repr

/-- The reference responder's state (rule R67). `busyDraws` and `draws` are the model's own: the busy times the environment
will draw (rule R70 `startBusy`), oldest first, and a counter for the draws after them. -/
structure Chip where
  model : Model
  organization : Organization
  mem : Memory
  ewLatch : Bool
  mode : ChipMode
  bits : List Level
  pending : Bool
  busyLeft : Nat
  csL : Level
  skL : Level
  diL : Level
  busyDraws : List Nat
  draws : Nat
  deriving DecidableEq, Repr

/-- The environment agent (rule R14): `levels` is what it will answer to the next free samples of DO, oldest first; after them
the answers are `Config.freeLevel` at `draws`. `chip` is the reference responder, if one is assumed (rule R66: an assumption
about the environment, never part of the engine). -/
structure Env where
  levels : List Level
  draws : Nat
  chip : Option Chip
  deriving DecidableEq, Repr

/-! ## The caller (rules R14, R32, R95) -/

/-- What the caller drives on `rst`, `cmd_valid` and the command ports in one step of the machine. -/
inductive CallerAct where
  /-- `rst = 0`, `cmd_valid = 0`. -/
  | quiet
  /-- `rst = 0`, `cmd_valid = 1` with these argument ports. -/
  | present (w : CmdWord)
  /-- `rst = 1` (the command port is not looked at, rule R270). -/
  | assertReset
  deriving DecidableEq, Repr

/-! ## The whole machine -/

/-- Every register of rule R20 (in that rule's order and widths), then what stands around the engine. -/
structure State where
  organization : Organization
  model : Model
  capacityUnits : BitVec 12
  addressBits : BitVec 4
  addressMask : BitVec 11
  writeEnabled : Bool
  opened : Bool
  cs : Level
  sk : Level
  di : Level
  padOe : Bool
  phase : Phase
  op : Op
  addr : BitVec 11
  data : BitVec 16
  seg : Seg
  sh : BitVec 16
  cnt : BitVec 5
  rx : BitVec 16
  pollCount : Nat
  status : Status
  result : BitVec 16
  done : Bool
  /-- The parameter `POLL_LIMIT` (rule R8); no step changes it. -/
  pollLimit : Option Nat
  /-- The events emitted since the last reset, oldest first (rule R12). -/
  trace : List Event
  env : Env
  /-- What the caller does in the steps to come, one entry a step, oldest first; quiet after the last. -/
  caller : List CallerAct
  deriving DecidableEq, Repr

/-- The environment at reset: no assumption about the chip, no answer fixed in advance (rule R62). -/
def Env.initial : Env := { levels := [], draws := 0, chip := none }

/-- Every register at its value of rule R39, the default `POLL_LIMIT` of rule R8, an empty trace, a free environment and a
quiet caller. -/
def State.reset : State where
  organization := .eightBit
  model := .c46
  capacityUnits := 0
  addressBits := 0
  addressMask := 0
  writeEnabled := false
  opened := false
  cs := .low
  sk := .low
  di := .low
  padOe := false
  phase := .idle
  op := .openDev
  addr := 0
  data := 0
  seg := .start
  sh := 0
  cnt := 0
  rx := 0
  pollCount := 0
  status := .ok
  result := 0
  done := false
  pollLimit := none
  trace := []
  env := Env.initial
  caller := []

/-! ## How a step can stop -/

/-- The engine has no trap and never stops by itself (rule R249); the one fault is about a word that no command port can
carry. -/
inductive Fault where
  /-- Raised by the fetch of a command word with a bit set where the port has no wire (`DecodeError.padBits`). Safe: such a word cannot
  be presented to the hardware. -/
  | notAPortWord
  deriving DecidableEq, Repr

/-- Why an instruction has no meaning. -/
inductive Refusal where
  /-- Raised by an arm of `exec` for an instruction with no meaning yet, with its mnemonic. Safe: nothing is claimed of it. No arm
  raises it in this model. -/
  | notModelled (mnemonic : String)
  deriving DecidableEq, Repr

end Sys2Proof.Machine
end

