-- ==== Sys2Proof/Machine/Operands.lean ====
section
/-! DEFINITION. Operands and the command encoder: word width, effective address, truncation, and the frame value of
rules R80 to R88 and R206. -/

namespace Sys2Proof.Machine

open Sys2Proof

/-- `W` of the engine (rules R7 and R214). -/
def State.width (s : State) : Nat := unitWidth s.organization

/-- `A` of the engine (rule R7). -/
def State.addrWidth (s : State) : Nat := s.addressBits.toNat

/-- `ea = address AND addressMask` (rules R85 and R180). -/
def effectiveAddress (address : Nat) (s : State) : BitVec 11 := BitVec.ofNat 11 address &&& s.addressMask

/-- `trunc_W(value)` (rules R55 and R86). -/
def truncUnit (value : Nat) (s : State) : BitVec 16 := BitVec.ofNat 16 (value % 2 ^ s.width)

/-- A control frame: the sub-code in the top two bits of the field, zeros below (rules R83 and R88). -/
def controlFrame (sub : Nat) (s : State) : BitVec 16 := BitVec.ofNat 16 (sub <<< (s.addrWidth - 2))

/-- A frame with an address field: `(opcode << A) OR field` (rule R88). -/
def addressFrame (opcode : Nat) (field : BitVec 11) (s : State) : BitVec 16 :=
  BitVec.ofNat 16 ((opcode <<< s.addrWidth) ||| field.toNat)

/-- `frameOf(op, addr)` of the sequencer (rule R206), from the latched registers; OPEN and ISWE send no frame and are never
latched. -/
def frameOf (s : State) : BitVec 16 :=
  match s.op with
  | .enable => controlFrame 0b11 s
  | .disable => controlFrame 0b00 s
  | .eraseAll => controlFrame 0b10 s
  | .writeAll => controlFrame 0b01 s
  | .write => addressFrame 0b01 s.addr s
  | .read => addressFrame 0b10 s.addr s
  | .erase => addressFrame 0b11 s.addr s
  | .openDev => 0
  | .iswe => 0

/-- The four write-class operations (rule R15): gated by `writeEnabled`, followed by a ready-poll. -/
def Op.writeClass : Op → Bool
  | .eraseAll => true
  | .erase => true
  | .writeAll => true
  | .write => true
  | .openDev => false
  | .enable => false
  | .disable => false
  | .iswe => false
  | .read => false

/-- The operations whose payload is transmitted (rules R89 and R214). -/
def Op.transmits : Op → Bool
  | .write => true
  | .writeAll => true
  | .openDev => false
  | .enable => false
  | .disable => false
  | .iswe => false
  | .eraseAll => false
  | .erase => false
  | .read => false

/-- The number of a status code on the `status` port (rule R240). -/
def Status.code : Status → Nat
  | .ok => 0
  | .writeProtected => 1
  | .cfgError => 2
  | .notOpen => 3
  | .alreadyOpen => 4
  | .badOp => 5
  | .pollTimeout => 6

end Sys2Proof.Machine
end

