-- ==== Sys2Proof/Machine/Memory.lean ====
section
/-! DEFINITION. The operations on the chip's array (rules R13 `MemRead` and `MemWrite`, R50, R67, R70). -/

namespace Sys2Proof.Machine

open Sys2Proof

/-- The canonical form: unit addresses strictly rising, and no listed unit equal to what an unlisted one reads as. -/
abbrev Memory.wf (m : Memory) : Prop :=
  m.cells.Pairwise (fun x y => x.1 < y.1) ∧ ∀ c ∈ m.cells, c.2 ≠ m.fill

/-- The unit at an address in a list of cells, `dflt` where none is listed. -/
def cellsRead (dflt : BitVec 16) (a : Nat) : List (Nat × BitVec 16) → BitVec 16
  | [] => dflt
  | c :: rest => if c.1 = a then c.2 else cellsRead dflt a rest

/-- `MemRead(a, W)` (rule R13). -/
def Memory.read (m : Memory) (a : Nat) : BitVec 16 := cellsRead m.fill a m.cells

/-- Put a unit in front of cells with larger addresses, unless it is what an unlisted unit reads as. -/
def consCell (dflt : BitVec 16) (a : Nat) (v : BitVec 16) (rest : List (Nat × BitVec 16)) :
    List (Nat × BitVec 16) :=
  if v = dflt then rest else (a, v) :: rest

/-- Write a unit into a list of cells, keeping the canonical form. -/
def cellsWrite (dflt : BitVec 16) (a : Nat) (v : BitVec 16) : List (Nat × BitVec 16) → List (Nat × BitVec 16)
  | [] => consCell dflt a v []
  | c :: rest =>
    if a < c.1 then consCell dflt a v (c :: rest)
    else if a = c.1 then consCell dflt a v rest
    else c :: cellsWrite dflt a v rest

/-- `MemWrite(a, W, v)` (rule R13). -/
def Memory.write (m : Memory) (a : Nat) (v : BitVec 16) : Memory :=
  { m with cells := cellsWrite m.fill a v m.cells }

/-- Every unit takes one value (rule R70: "every `mem[i] <- d`"). -/
def Memory.fillAll (v : BitVec 16) : Memory := { fill := v, cells := [] }

end Sys2Proof.Machine
end

