-- ==== Sys2Proof/Machine/Responder.lean ====
section
/-! DEFINITION. The environment: what answers a `PinRead(DO)` (rules R14, R62), and the reference responder, a model of
the chip that the environment may contain (rules R66 to R70). An assumption about the environment, not
part of the engine. -/

namespace Sys2Proof.Machine

open Sys2Proof

/-- `CAP`, `A` and `W` of the chip (rule R67). -/
def Chip.cap (c : Chip) : Nat := (resolve c.model c.organization).capacityUnits

def Chip.addrBits (c : Chip) : Nat := (resolve c.model c.organization).addressBits

def Chip.width (c : Chip) : Nat := unitWidth c.organization

/-- `ONES = 2^W - 1` (rule R70). -/
def Chip.ones (c : Chip) : BitVec 16 := BitVec.ofNat 16 (2 ^ c.width - 1)

/-- The responder's state is meaningful: the array is in canonical form, its addresses below `CAP` and its values
below `2^W` (rule R67). -/
abbrev Chip.wf (c : Chip) : Prop :=
  c.mem.wf ∧ c.mem.fill.toNat < 2 ^ c.width ∧
    ∀ x ∈ c.mem.cells, x.1 < c.cap ∧ x.2.toNat < 2 ^ c.width

/-- The responder as rule R67 starts it: latch off, mode `Off`, no bits, nothing pending, the pin copies `Low`. The rule leaves the array
("initial contents arbitrary") and `busyLeft` open, so both are arguments; `busyDraws` are the busy times to come (log entry 2). -/
def Chip.initial (m : Model) (o : Organization) (mem : Memory) (busyLeft : Nat) (busyDraws : List Nat) : Chip where
  model := m
  organization := o
  mem := mem
  ewLatch := false
  mode := .off
  bits := []
  pending := false
  busyLeft := busyLeft
  csL := .low
  skL := .low
  diL := .low
  busyDraws := busyDraws
  draws := 0

/-- Assume the responder as environment from here on, in its initial state and with the engine's own profile ("the responder is the
chip the caller said it is", rule R67). -/
def assumeResponder (mem : Memory) (busyLeft : Nat) (busyDraws : List Nat) (s : State) : State :=
  { s with env := { s.env with chip := some (Chip.initial s.model s.organization mem busyLeft busyDraws) } }

/-- The next busy time: the environment's choice, else a free value (rule R70: "any natural number"). -/
def Chip.nextBusy (c : Chip) : Nat :=
  match c.busyDraws with
  | n :: _ => n
  | [] => Config.freeBusy c.draws

/-- `startBusy()` (rule R70). -/
def Chip.startBusy (c : Chip) : Chip :=
  { c with
    pending := true
    busyLeft := c.nextBusy
    busyDraws := c.busyDraws.tail
    draws := if c.busyDraws = [] then c.draws + 1 else c.draws }

/-- Store and go busy, when the write-enable latch allows it (rule R70's rows with `ewLatch = 1`). -/
def Chip.store (c : Chip) (mem : Memory) : Chip :=
  if c.ewLatch then Chip.startBusy { c with mem := mem } else c

/-- What one decoded frame does to the chip (rule R70). -/
def Chip.perform (c : Chip) : BusOp → Chip
  | .enable => { c with ewLatch := true }
  | .disable => { c with ewLatch := false }
  | .eraseAll => c.store (Memory.fillAll c.ones)
  | .writeAll d => c.store (Memory.fillAll (BitVec.ofNat 16 d))
  | .write f d => c.store (c.mem.write (f % c.cap) (BitVec.ofNat 16 d))
  | .erase f => c.store (c.mem.write (f % c.cap) c.ones)
  | .read _ => c

/-- `execute(bits)` (rule R70): anything that is no operation does nothing. -/
def Chip.execute (c : Chip) (bits : List Level) : Chip :=
  match decodeBus c.addrBits c.width bits with
  | some b => c.perform b
  | none => c

/-- Chip-select rises (rule R68). -/
def Chip.selected (c : Chip) : Chip :=
  { c with csL := .high, bits := [], mode := if c.pending then .status else .shift }

/-- Chip-select falls (rule R68). -/
def Chip.deselected (c : Chip) : Chip :=
  match c.mode with
  | .status => { c with csL := .low, pending := false, mode := .off }
  | .shift => { Chip.execute { c with csL := .low } c.bits with mode := .off }
  | .off => { c with csL := .low }

/-- The clock rises (rule R68): the chip takes the level of DI, once a start marker has been seen. -/
def Chip.clocked (c : Chip) : Chip :=
  if c.csL = .high ∧ c.mode = .shift ∧ ¬(c.bits = [] ∧ c.diL = .low) then
    { c with skL := .high, bits := c.bits ++ [c.diL] }
  else { c with skL := .high }

/-- The responder's reaction to a pin write (rule R68); a write that does not change CS or SK does nothing. -/
def Chip.onPinWrite (c : Chip) (p : OutPin) (l : Level) : Chip :=
  match p, l with
  | .di, l => { c with diL := l }
  | .cs, .high => if c.csL = .low then c.selected else c
  | .cs, .low => if c.csL = .high then c.deselected else c
  | .sk, .high => if c.skL = .low then c.clocked else c
  | .sk, .low => { c with skL := .low }

/-- The data bit of a READ that is on DO after the `k`-th clock past the last address bit (rule R69). -/
def Chip.readBit (c : Chip) (k : Nat) : Level :=
  let idx := bitsValue ((c.bits.drop 3).take c.addrBits) % c.cap
  Level.ofBool ((c.mem.read idx).getLsbD (c.width - k))

/-- The clock pulses past the last address bit of the current chip-select period. -/
def Chip.clocksPast (c : Chip) : Nat := c.bits.length - (3 + c.addrBits)

/-- Is the chip driving a READ's data bit now (rule R69's second branch, with `k <= W`)? -/
def Chip.drivesData (c : Chip) : Bool :=
  decide (c.mode = .shift ∧ 3 + c.addrBits < c.bits.length ∧ bitsValue ((c.bits.drop 1).take 2) = 0b10 ∧
    c.clocksPast ≤ c.width)

/-- The level the chip itself puts on DO, if rule R69 says one; `none` is "any level". -/
def Chip.drivenLevel (c : Chip) : Option Level :=
  if c.mode = .status then some (if 0 < c.busyLeft then .low else .high)
  else if c.drivesData then some (c.readBit c.clocksPast)
  else none

/-- What a sample does to the chip (rule R69: a busy chip counts down). -/
def Chip.sampled (c : Chip) : Chip :=
  if c.mode = .status then { c with busyLeft := c.busyLeft - 1 } else c

/-- A level the environment is free to choose (rule R62): the next one it holds, else a free value. -/
def Env.freeLevel (e : Env) : Level :=
  match e.levels with
  | l :: _ => l
  | [] => Config.freeLevel e.draws

/-- The environment after a free choice. -/
def Env.afterFree (e : Env) : Env :=
  { e with levels := e.levels.tail, draws := if e.levels = [] then e.draws + 1 else e.draws }

/-- The level a `PinRead(DO)` returns now. -/
def Env.level (e : Env) : Level :=
  match e.chip with
  | none => e.freeLevel
  | some c => c.drivenLevel.getD e.freeLevel

/-- The environment after answering a `PinRead(DO)`. -/
def Env.answered (e : Env) : Env :=
  match e.chip with
  | none => e.afterFree
  | some c => if c.drivenLevel.isSome then { e with chip := some c.sampled } else e.afterFree

/-- What an event does to the environment: the responder sees pin writes, `Delay` and `Cfg` do nothing (rule R68). -/
def Env.observe (e : Env) (ev : Event) : Env :=
  match ev with
  | .pinWrite p l => { e with chip := e.chip.map (fun c => c.onPinWrite p l) }
  | .pinRead _ => e
  | .delay _ => e
  | .cfgOut _ => e
  | .cfgInDO => e

/-- For how many further samples the environment's answers are already settled: a busy responder's countdown and its
first `High`, else the levels held. -/
def Env.horizon (e : Env) : Nat :=
  match e.chip with
  | none => e.levels.length
  | some c => if c.mode = .status then c.busyLeft + 1 else e.levels.length

end Sys2Proof.Machine
end

