-- ==== Sys2Proof/Machine/Ops.lean ====
section
/-! DEFINITION. The named operations every meaning is built from: emitting an event, sampling DO, completing a command,
raising an error (the engine's only form of exception), latching a command, and reset. -/

namespace Sys2Proof.Machine

open Sys2Proof

/-- The level of pin `p` after an event (rule R24: a `PinWrite` sets the matching register, nothing else does). -/
def pinAfter (p : OutPin) (e : Event) (l : Level) : Level :=
  match e with
  | .pinWrite q v => if q = p then v else l
  | .pinRead _ => l
  | .delay _ => l
  | .cfgOut _ => l
  | .cfgInDO => l

/-- `emit e` (rule R13): the event joins the trace, the pin registers follow it (rule R24), the environment sees it. -/
def emit (e : Event) (s : State) : State :=
  { s with
    trace := s.trace ++ [e]
    cs := pinAfter .cs e s.cs
    sk := pinAfter .sk e s.sk
    di := pinAfter .di e s.di
    env := s.env.observe e }

/-- Emit a list of events in order. -/
def emitAll (es : List Event) (s : State) : State := es.foldl (fun t e => emit e t) s

/-- `PinWrite(pin, level)` (rule R35). -/
def writePin (p : OutPin) (l : Level) (s : State) : State := emit (.pinWrite p l) s

/-- `Delay(k)` (rule R37). -/
def delay (k : DelayKind) (s : State) : State := emit (.delay k) s

/-- The level that a `PinRead(DO)` returns in this state (rule R36). -/
def doLevel (s : State) : Level := s.env.level

/-- `l <- PinRead(DO)` (rules R13 and R36): the state after the sample; the level is `doLevel` of the state before it. -/
def sampleDO (s : State) : State := emit (.pinRead (doLevel s)) { s with env := s.env.answered }

/-- `complete(st, r)` (rule R204). -/
def complete (st : Status) (r : BitVec 16) (s : State) : State :=
  { s with status := st, result := r, done := true, phase := .idle }

/-- `raise`: "The engine has no trap vector: 'raise' only ever means 'finish the command with a non-OK status'" (rule R13), with
`result = 0` and no event (rules R240 and R249). There is nothing to save and nothing to return from (rule R250). -/
def raise (st : Status) (s : State) : State := complete st 0 s

/-- The acceptance of a bus operation (rule R205's last arm): the command is latched; the micro-step is not a completion. -/
def latch (o : Op) (address value : Nat) (s : State) : State :=
  { s with op := o, addr := effectiveAddress address s, data := truncUnit value s, done := false }

/-- Move the sequencer to a phase, in a micro-step that does not complete (rules R13 and R201). -/
def goPhase (p : Phase) (s : State) : State := { s with phase := p, done := false }

/-- The chip after a reset of the engine: untouched when the engine was idle (rule R271), unknown when a frame was cut short
(rule R272: "treats the array contents and the chip's latch as unknown"), so no responder is assumed any more. -/
def Env.afterReset (idle : Bool) (e : Env) : Env := if idle then e else { e with chip := none }

/-- Reset (rule R270): every register takes its value of rule R39 whatever the phase, no event is emitted. The trace starts
anew; the poll limit, the caller and the environment stand outside the engine. -/
def applyReset (s : State) : State :=
  { State.reset with
    pollLimit := s.pollLimit
    caller := s.caller
    env := s.env.afterReset (decide (s.phase = .idle)) }

end Sys2Proof.Machine
end

