-- ==== Sys2Proof/Machine/Flags.lean ====
section
/-! DEFINITION. The flags `opened` and `writeEnabled`: their gates (rules R139, R160, R243, R245), their updates (rule
R22), and the states of permission of rule R253. -/

namespace Sys2Proof.Machine

open Sys2Proof

/-- `writeEnabled <- b` (rule R22). -/
def setWriteEnabled (b : Bool) (s : State) : State := { s with writeEnabled := b }

/-- The precondition of every operation but OPEN (rules R160 and R245). -/
def requireOpened (body : State → State) (s : State) : State :=
  if s.opened then body s else raise .notOpen s

/-- `requireWriteEnabled()` (rules R139 and R243): refused with no event and no other change. -/
def requireWriteEnabled (body : State → State) (s : State) : State :=
  if s.writeEnabled then body s else raise .writeProtected s

/-- Both gates of a write-class operation, in the order of rule R248. -/
def requireWritable (body : State → State) (s : State) : State :=
  requireOpened (requireWriteEnabled body) s

/-- The flag as a word (rule R163). -/
def flagWord (b : Bool) : BitVec 16 := if b then 1 else 0

/-- The flag update that `finish` makes before completing (rule R225). -/
def finishFlag (s : State) : State :=
  match s.op with
  | .enable => setWriteEnabled true s
  | .disable => setWriteEnabled false s
  | .openDev => s
  | .iswe => s
  | .eraseAll => s
  | .erase => s
  | .writeAll => s
  | .write => s
  | .read => s

/-- The states of permission of rule R253. -/
inductive Permission where
  | closed
  | writeProtected
  | writeEnabled
  deriving DecidableEq, Repr

/-- Which state of permission the engine is in (rule R253). -/
def State.permission (s : State) : Permission :=
  if s.opened then (if s.writeEnabled then .writeEnabled else .writeProtected) else .closed

end Sys2Proof.Machine
end

