-- ==== Sys2Proof/Machine/Primitives.lean ====
section
/-! DEFINITION. The procedures of `spec/41_primitives.md`: `sendBits`, `receiveBits`, the chip-select envelope and the
ready-poll. They also keep the sequencer's registers (`seg`, `sh`, `cnt`, `rx`, `pollCount`) as rules R205 to R222
leave them. -/

namespace Sys2Proof.Machine

open Sys2Proof

/-- Bit `i` of a value, as a level. -/
def bitLevel (value : BitVec 16) (i : Nat) : Level := Level.ofBool (value.getLsbD i)

/-- The events of one transmitted bit (rule R130): set data, delay, clock high, delay, clock low, delay. -/
def sendBitEvents (b : Level) : List Event :=
  [.pinWrite .di b, .delay .tx, .pinWrite .sk .high, .delay .tx, .pinWrite .sk .low, .delay .tx]

/-- The loop of `sendBits` with `n` bits still to send. -/
def sendLoop (value : BitVec 16) : Nat → State → State
  | 0, s => s
  | n + 1, s =>
    sendLoop value n { emitAll (sendBitEvents (bitLevel value n)) s with cnt := BitVec.ofNat 5 n }

/-- `sendBits(value, length)` (rule R130); with length 0 it does nothing (rule R131). -/
def sendBits (value : BitVec 16) (length : Nat) (s : State) : State :=
  if length = 0 then s
  else sendLoop value length { s with sh := value, cnt := BitVec.ofNat 5 length }

/-- One received bit (rule R132): clock high, delay, sample, clock low, delay, accumulate at position `n`. -/
def receiveBit (n : Nat) (s : State) : State :=
  let t := delay .rx (writePin .sk .high s)
  let u := delay .rx (writePin .sk .low (sampleDO t))
  { u with rx := u.rx ||| BitVec.ofNat 16 ((doLevel t).toNat <<< n), cnt := BitVec.ofNat 5 n }

/-- The loop of `receiveBits` with `n` bits still to receive. -/
def receiveLoop : Nat → State → State
  | 0, s => s
  | n + 1, s => receiveLoop n (receiveBit n s)

/-- `receiveBits(amtBits)` (rule R132); the value is left in `rx`. -/
def receiveBits (amtBits : Nat) (s : State) : State :=
  receiveLoop amtBits { s with rx := 0, cnt := BitVec.ofNat 5 amtBits }

/-- `beginTransaction()` (rule R134). -/
def beginTransaction (s : State) : State :=
  sendBits 1 1 { delay .cs (writePin .cs .high s) with seg := .start }

/-- `endTransaction()` (rule R135). -/
def endTransaction (s : State) : State := writePin .cs .low s

/-- The payload of a transaction (rule R138's `kind`). -/
inductive Payload where
  | none
  | tx
  | rx
  deriving DecidableEq, Repr

/-- The frame: the second call of `sendBits` (rule R138). -/
def sendFrame (frame : BitVec 16) (s : State) : State :=
  sendBits frame (s.addrWidth + 2) { s with seg := .frame }

/-- The payload part of `transact` (rule R138). -/
def movePayload (kind : Payload) (data : BitVec 16) (s : State) : State :=
  match kind with
  | .none => s
  | .tx => sendBits data s.width { s with seg := .payload }
  | .rx => receiveBits s.width s

/-- `transact(frame, kind, data)` (rule R138); a received value is left in `rx`. -/
def transact (frame : BitVec 16) (kind : Payload) (data : BitVec 16) (s : State) : State :=
  endTransaction (movePayload kind data (sendFrame frame (beginTransaction s)))

/-- How a ready-poll stands when its samples have been looked at. -/
inductive PollEnd where
  /-- A sample returned `High` (rule R136: Ready). -/
  | ready
  /-- `POLL_LIMIT` samples were all `Low` (rule R137 (5)). -/
  | timedOut
  /-- Every answer settled so far was `Low` and there is no limit: the poll goes on (rules R137 (4) and R281). -/
  | waiting
  deriving DecidableEq, Repr

/-- Is the poll's sample count at `POLL_LIMIT` (rule R136)? -/
def limitReached (s : State) : Bool :=
  match s.pollLimit with
  | none => false
  | some n => decide (n ≤ s.pollCount)

/-- One sample of the poll, counted (rules R136 and R222). -/
def pollOnce (s : State) : State :=
  { sampleDO s with pollCount := s.pollCount + 1 }

/-- The loop of `pollReady` (rule R136), over at most `fuel` samples. -/
def pollLoop : Nat → State → PollEnd × State
  | 0, s => (.waiting, s)
  | fuel + 1, s =>
    if doLevel s = .high then (.ready, pollOnce s)
    else if limitReached (pollOnce s) then (.timedOut, pollOnce s)
    else pollLoop fuel (delay .poll (pollOnce s))

/-- How many samples one run of the poll looks at: with a limit, enough to reach it; without, as many as the environment's
answers are settled for (log entry 6). -/
def pollFuel (s : State) : Nat :=
  match s.pollLimit with
  | some n => n + 1
  | none => s.env.horizon

/-- The start of a ready-poll: chip-select high, no sample counted yet (rules R136 and R221). -/
def pollStart (s : State) : State := { writePin .cs .high s with pollCount := 0 }

/-- `pollReady()` and the completion that follows it (rules R136 and R140). A poll that is still waiting leaves the engine
busy in `PollSample`, chip-select high, with no completion (rule R244). -/
def pollReady (s : State) : State :=
  let t := pollStart s
  match pollLoop (pollFuel t) t with
  | (.ready, u) => complete .ok 0 (writePin .cs .low u)
  | (.timedOut, u) => complete .pollTimeout 0 (writePin .cs .low u)
  | (.waiting, u) => goPhase .pollSample u

end Sys2Proof.Machine
end

