-- ==== Sys2Proof/Machine/Profile.lean ====
section
/-! DEFINITION. OPEN (rules R110, R116, R117). -/

namespace Sys2Proof.Machine

open Sys2Proof

/-- The four events of a successful OPEN, in their order (rules R34 and R110). -/
def openEvents : List Event := [.cfgOut .cs, .cfgOut .sk, .cfgOut .di, .cfgInDO]

/-- The profile registers take a resolved profile (rule R110). -/
def loadProfile (m : Model) (o : Organization) (s : State) : State :=
  { s with
    model := m
    organization := o
    capacityUnits := BitVec.ofNat 12 (resolve m o).capacityUnits
    addressBits := BitVec.ofNat 4 (resolve m o).addressBits
    addressMask := BitVec.ofNat 11 (resolve m o).addressMask }

/-- A successful OPEN (rule R110). -/
def openWith (m : Model) (o : Organization) (s : State) : State :=
  let t := loadProfile m o { emitAll openEvents s with padOe := true }
  complete .ok (t.capacityUnits.setWidth 16) { t with writeEnabled := false, opened := true }

/-- OPEN as a whole (rule R110), its refusals in the order of rule R248. -/
def openCommand (cfgModel : Nat) (o : Organization) (s : State) : State :=
  if s.opened then raise .alreadyOpen s
  else
    match modelOfRaw cfgModel with
    | none => raise .cfgError s
    | some m => openWith m o s

/-- OPEN (rule R110). -/
def execOpenDev (cfgModel : Nat) (cfgOrg : Organization) (s : State) : Host.Outcome State Fault Refusal :=
  .next (openCommand cfgModel cfgOrg s)

end Sys2Proof.Machine
end

