-- ==== Sys2Proof/Machine/Sequencer.lean ====
section
/-! DEFINITION. The sequencer of `spec/44_sequencer.md`: the acceptance micro-step, and one transition for each of the 20
phases, each emitting at most one event. -/

namespace Sys2Proof.Machine

open Sys2Proof

/-- The acceptance of a bus operation (rule R205's last arm). -/
def startOp (o : Op) (address value : Nat) (s : State) : State :=
  { latch o address value s with phase := .csHigh }

/-- `accept()` (rule R205): the micro-step with `phase = Idle` and `cmd_valid = 1`. -/
def accept (i : Instr) (s : State) : State :=
  match i with
  | .openDev m o => openCommand m o s
  | .enable a d => requireOpened (startOp .enable a d) s
  | .disable a d => requireOpened (startOp .disable a d) s
  | .iswe => requireOpened (fun s => complete .ok (flagWord s.writeEnabled) s) s
  | .eraseAll a d => requireWritable (startOp .eraseAll a d) s
  | .erase a d => requireWritable (startOp .erase a d) s
  | .writeAll a d => requireWritable (startOp .writeAll a d) s
  | .write a d => requireWritable (startOp .write a d) s
  | .read a d => requireOpened (startOp .read a d) s
  | .reserved9 => raise .badOp s
  | .reserved10 => raise .badOp s
  | .reserved11 => raise .badOp s
  | .reserved12 => raise .badOp s
  | .reserved13 => raise .badOp s
  | .reserved14 => raise .badOp s
  | .reserved15 => raise .badOp s

/-- Load a `sendBits` call (rules R208 and R214). -/
def loadSend (g : Seg) (value : BitVec 16) (n : Nat) (s : State) : State :=
  goPhase .txData { s with seg := g, sh := value, cnt := BitVec.ofNat 5 n }

/-- `finish(st)` (rule R225). -/
def finish (st : Status) (s : State) : State :=
  complete st (if s.op = .read then s.rx else 0) (finishFlag s)

/-- What follows the last bit of a `sendBits` call (rule R214). -/
def afterSend (s : State) : State :=
  match s.seg with
  | .start => loadSend .frame (frameOf s) (s.addrWidth + 2) s
  | .frame =>
    if s.op.transmits then loadSend .payload s.data s.width s
    else if s.op = .read then goPhase .rxSkHigh { s with rx := 0, cnt := BitVec.ofNat 5 s.width }
    else goPhase .csLow s
  | .payload => goPhase .csLow s

/-- `TxDly3` after its event: count the bit, then the next bit or what follows the call (rule R214). -/
def nextSend (s : State) : State :=
  let t := { s with cnt := s.cnt - 1 }
  if t.cnt = 0 then afterSend t else goPhase .txData t

/-- `RxDly2` after its event (rule R219). -/
def nextReceive (s : State) : State :=
  let t := { s with cnt := s.cnt - 1 }
  if t.cnt = 0 then goPhase .csLow t else goPhase .rxSkHigh t

/-- `RxSample` (rule R217): the sampled level joins `rx` at bit `cnt - 1`. -/
def sampleRx (s : State) : State :=
  let u := sampleDO s
  goPhase .rxSkLow { u with rx := u.rx ||| BitVec.ofNat 16 ((doLevel s).toNat <<< (s.cnt - 1).toNat) }

/-- `CsLow` after its event (rule R220). -/
def afterCsLow (s : State) : State :=
  if s.op.writeClass then goPhase .pollCsHigh s else finish .ok s

/-- `PollSample` (rule R222). -/
def samplePoll (s : State) : State :=
  let u := pollOnce s
  if doLevel s = .high then goPhase .pollCsLow u
  else if limitReached u then goPhase .pollAbort u
  else goPhase .pollDly u

/-- One micro-step without a command (rules R202, R207 to R224). In `Idle` nothing happens but that the `done` pulse of
the step before is over (rules R29 and R201, log entry 9). -/
def transition (s : State) : State :=
  match s.phase with
  | .idle => { s with done := false }
  | .csHigh => goPhase .csDelay (writePin .cs .high s)
  | .csDelay => loadSend .start 1 1 (delay .cs s)
  | .txData => goPhase .txDly1 (writePin .di (bitLevel s.sh (s.cnt - 1).toNat) s)
  | .txDly1 => goPhase .txSkHigh (delay .tx s)
  | .txSkHigh => goPhase .txDly2 (writePin .sk .high s)
  | .txDly2 => goPhase .txSkLow (delay .tx s)
  | .txSkLow => goPhase .txDly3 (writePin .sk .low s)
  | .txDly3 => nextSend (delay .tx s)
  | .rxSkHigh => goPhase .rxDly1 (writePin .sk .high s)
  | .rxDly1 => goPhase .rxSample (delay .rx s)
  | .rxSample => sampleRx s
  | .rxSkLow => goPhase .rxDly2 (writePin .sk .low s)
  | .rxDly2 => nextReceive (delay .rx s)
  | .csLow => afterCsLow (writePin .cs .low s)
  | .pollCsHigh => goPhase .pollSample (pollStart s)
  | .pollSample => samplePoll s
  | .pollDly => goPhase .pollSample (delay .poll s)
  | .pollCsLow => finish .ok (writePin .cs .low s)
  | .pollAbort => finish .pollTimeout (writePin .cs .low s)

/-- `n` micro-steps with a quiet caller. -/
def runMicro : Nat → State → State
  | 0, s => s
  | n + 1, s => runMicro n (transition s)

end Sys2Proof.Machine
end

