-- ==== Sys2Proof/Machine/Cycle.lean ====
section
/-! DEFINITION. What a step does around the command: it takes the caller's next act, obeys reset, looks at the command port
only in `Idle`, and decodes what stands there (rules R202, R203, R270). -/

namespace Sys2Proof.Machine

open Sys2Proof

/-- What the caller drives in this step (rule R32); a caller with nothing more to do is quiet. -/
def callerNow (s : State) : CallerAct :=
  match s.caller with
  | [] => .quiet
  | a :: _ => a

/-- The step uses the caller's act up. -/
def callerTaken (s : State) : State := { s with caller := s.caller.tail }

/-- Run a command word that has been accepted. -/
def acceptWord (run : Instr → State → Host.Outcome State Fault Refusal) (w : CmdWord) (s : State) :
    Host.Outcome State Fault Refusal :=
  match decode w with
  | .ok i => run i s
  | .error .padBits => .fault .notAPortWord

/-- One step, given how an accepted command runs: reset comes first (rule R270); a command is accepted exactly when the engine
is idle (rule R203) and is otherwise neither run nor queued; with no command accepted the sequencer makes its
transition. -/
def cycle (run : Instr → State → Host.Outcome State Fault Refusal) (s : State) :
    Host.Outcome State Fault Refusal :=
  match callerNow s with
  | .assertReset => .next (applyReset (callerTaken s))
  | .quiet => .next (transition (callerTaken s))
  | .present w =>
    if s.phase = .idle then acceptWord run w (callerTaken s) else .next (transition (callerTaken s))

/-- One micro-step of the engine (rule R201): the step at the sequencer's grain. -/
def microStep (s : State) : Host.Outcome State Fault Refusal := cycle (fun i t => .next (accept i t)) s

end Sys2Proof.Machine
end

