-- ==== Sys2Proof/Machine/Access.lean ====
section
/-! DEFINITION. READ, WRITE and ERASE (`spec/43_memory_ops.md`). -/

namespace Sys2Proof.Machine

open Sys2Proof

/-- READ (rule R181). -/
def execRead (address value : Nat) (s : State) : Host.Outcome State Fault Refusal :=
  .next (requireOpened (fun s =>
    let t := latch .read address value s
    let u := transact (addressFrame 0b10 (effectiveAddress address t) t) .rx 0 t
    complete .ok u.rx u) s)

/-- WRITE (rule R182). -/
def execWrite (address value : Nat) (s : State) : Host.Outcome State Fault Refusal :=
  .next (requireWritable (fun s =>
    let t := latch .write address value s
    pollReady (transact (addressFrame 0b01 (effectiveAddress address t) t) .tx (truncUnit value t) t)) s)

/-- ERASE (rule R183). -/
def execErase (address value : Nat) (s : State) : Host.Outcome State Fault Refusal :=
  .next (requireWritable (fun s =>
    let t := latch .erase address value s
    pollReady (transact (addressFrame 0b11 (effectiveAddress address t) t) .none 0 t)) s)

end Sys2Proof.Machine
end

