-- ==== Sys2Proof/Machine/Control.lean ====
section
/-! DEFINITION. ENABLE, DISABLE, ISWE, ERASEALL and WRITEALL (`spec/42_control_ops.md`). Each meaning is the whole operation,
as rule R14's big-step view has it. -/

namespace Sys2Proof.Machine

open Sys2Proof

/-- ENABLE (rule R161): the transaction, then the flag, then completion (rule R140). -/
def execEnable (address value : Nat) (s : State) : Host.Outcome State Fault Refusal :=
  .next (requireOpened (fun s =>
    let t := latch .enable address value s
    complete .ok 0 (setWriteEnabled true (transact (controlFrame 0b11 t) .none 0 t))) s)

/-- DISABLE (rule R162). -/
def execDisable (address value : Nat) (s : State) : Host.Outcome State Fault Refusal :=
  .next (requireOpened (fun s =>
    let t := latch .disable address value s
    complete .ok 0 (setWriteEnabled false (transact (controlFrame 0b00 t) .none 0 t))) s)

/-- ISWE (rule R163). -/
def execIswe (s : State) : Host.Outcome State Fault Refusal :=
  .next (requireOpened (fun s => complete .ok (flagWord s.writeEnabled) s) s)

/-- ERASEALL (rule R164). -/
def execEraseAll (address value : Nat) (s : State) : Host.Outcome State Fault Refusal :=
  .next (requireWritable (fun s =>
    let t := latch .eraseAll address value s
    pollReady (transact (controlFrame 0b10 t) .none 0 t)) s)

/-- WRITEALL (rule R165). -/
def execWriteAll (address value : Nat) (s : State) : Host.Outcome State Fault Refusal :=
  .next (requireWritable (fun s =>
    let t := latch .writeAll address value s
    pollReady (transact (controlFrame 0b01 t) .tx (truncUnit value t) t)) s)

end Sys2Proof.Machine
end

