-- ==== Sys2Proof/Machine/Reserved.lean ====
section
/-! DEFINITION. The reserved `cmd_op` codes 9 to 15: each completes at once with `BAD_OP`, "whatever `opened` is" (rules
R97 and R247). -/

namespace Sys2Proof.Machine

open Sys2Proof

/-- The reserved code 9 (rule R97). -/
def execReserved9 (s : State) : Host.Outcome State Fault Refusal := .next (raise .badOp s)

/-- The reserved code 10 (rule R97). -/
def execReserved10 (s : State) : Host.Outcome State Fault Refusal := .next (raise .badOp s)

/-- The reserved code 11 (rule R97). -/
def execReserved11 (s : State) : Host.Outcome State Fault Refusal := .next (raise .badOp s)

/-- The reserved code 12 (rule R97). -/
def execReserved12 (s : State) : Host.Outcome State Fault Refusal := .next (raise .badOp s)

/-- The reserved code 13 (rule R97). -/
def execReserved13 (s : State) : Host.Outcome State Fault Refusal := .next (raise .badOp s)

/-- The reserved code 14 (rule R97). -/
def execReserved14 (s : State) : Host.Outcome State Fault Refusal := .next (raise .badOp s)

/-- The reserved code 15 (rule R97). -/
def execReserved15 (s : State) : Host.Outcome State Fault Refusal := .next (raise .badOp s)

end Sys2Proof.Machine
end

