-- ==== Sys2Proof/Machine/Dispatch.lean ====
section
/-! DEFINITION. The meaning of each command, one arm a constructor. -/

namespace Sys2Proof.Machine

open Sys2Proof

def exec (i : Instr) (s : State) : Host.Outcome State Fault Refusal :=
  match i with
  | .openDev m o => Sys2Proof.Machine.execOpenDev m o s
  | .enable a d => Sys2Proof.Machine.execEnable a d s
  | .disable a d => Sys2Proof.Machine.execDisable a d s
  | .iswe => Sys2Proof.Machine.execIswe s
  | .eraseAll a d => Sys2Proof.Machine.execEraseAll a d s
  | .erase a d => Sys2Proof.Machine.execErase a d s
  | .writeAll a d => Sys2Proof.Machine.execWriteAll a d s
  | .write a d => Sys2Proof.Machine.execWrite a d s
  | .read a d => Sys2Proof.Machine.execRead a d s
  | .reserved9 => Sys2Proof.Machine.execReserved9 s
  | .reserved10 => Sys2Proof.Machine.execReserved10 s
  | .reserved11 => Sys2Proof.Machine.execReserved11 s
  | .reserved12 => Sys2Proof.Machine.execReserved12 s
  | .reserved13 => Sys2Proof.Machine.execReserved13 s
  | .reserved14 => Sys2Proof.Machine.execReserved14 s
  | .reserved15 => Sys2Proof.Machine.execReserved15 s

end Sys2Proof.Machine
end

