-- ==== Sys2Proof/Machine/Step.lean ====
section
/-! DEFINITION. The step of the machine, in rule R14's big-step view of a command: an accepted command runs as one whole operation; in
any other phase the step is one micro-step. -/

namespace Sys2Proof.Machine

open Sys2Proof

/-- One step of the machine. -/
def step (s : State) : Host.Outcome State Fault Refusal := cycle exec s

/-- The state in which the very next step accepts the command whose low `nbits` bits are `w`: the engine idle, the caller
presenting that word (log entry 5). -/
def State.withFetchWord (s : State) (nbits w : Nat) : State :=
  { s with phase := .idle, caller := .present (tableWord nbits w) :: s.caller }

end Sys2Proof.Machine
end

