-- ==== Sys2Proof/Machine/Ports.lean ====
section
/-! DEFINITION. The engine's output ports as views of the registers (rule R32), and the document's poll states (rule R28). -/

namespace Sys2Proof.Machine

open Sys2Proof

/-- Port `busy` (rules R26 and R32). -/
def State.busy (s : State) : Bool := decide (s.phase ≠ .idle)

/-- Port `status`, 3 bits (rules R32 and R240). -/
def State.statusPort (s : State) : BitVec 3 := BitVec.ofNat 3 s.status.code

/-- Port `we_o` (rules R22 and R32). -/
def State.weO (s : State) : Bool := s.writeEnabled

/-- The register behind an output pin (rule R24). -/
def State.pin (s : State) (p : OutPin) : Level :=
  match p with
  | .cs => s.cs
  | .sk => s.sk
  | .di => s.di

/-- What stands on the wire of an output pin: the register once `pad_oe` is 1; before that the pads are not driven and the level is
not defined (rule R25, `spec/93_implementation_defined.md` U7). -/
def State.wire (s : State) (p : OutPin) : Option Level := if s.padOe then some (s.pin p) else none

/-- The document's two states of the ready-poll (rule R28); outside the poll there is none. -/
inductive PollState where
  | busy
  | ready
  deriving DecidableEq, Repr

/-- `Busy` is `PollSample` or `PollDly`; after a `High` sample the phase is `PollCsLow` and the poll is `Ready` (rules R28 and
R137 (6)). -/
def State.pollState (s : State) : Option PollState :=
  match s.phase with
  | .pollSample => some .busy
  | .pollDly => some .busy
  | .pollCsLow => some .ready
  | .idle => none
  | .csHigh => none
  | .csDelay => none
  | .txData => none
  | .txDly1 => none
  | .txSkHigh => none
  | .txDly2 => none
  | .txSkLow => none
  | .txDly3 => none
  | .rxSkHigh => none
  | .rxDly1 => none
  | .rxSample => none
  | .rxSkLow => none
  | .rxDly2 => none
  | .csLow => none
  | .pollCsHigh => none
  | .pollAbort => none

end Sys2Proof.Machine
end

