-- ==== Sys2Proof/Machine/Traces.lean ====
section
/-! DEFINITION. What can be read off a trace (rule R12): the traces that rules R130 to R138 give for a transaction, the bits on DI at
the clock edges, counts of pulses and of delays (rule R291), and the time the delays take (rule R290). -/

namespace Sys2Proof.Machine

open Sys2Proof

/-- The trace of `sendBits` over a bit string, first bit sent first (rule R130). -/
def sendTrace (bits : List Level) : List Event := bits.flatMap sendBitEvents

/-- The trace of one received bit whose sample is `l` (rules R132 and R133). -/
def receiveBitEvents (l : Level) : List Event :=
  [.pinWrite .sk .high, .delay .rx, .pinRead l, .pinWrite .sk .low, .delay .rx]

/-- The trace of `receiveBits` whose samples are `ls`, the first taken first (rule R133). -/
def receiveTrace (ls : List Level) : List Event := ls.flatMap receiveBitEvents

/-- The trace of a transaction that sends `bits` (start marker first) and then samples `ls` (rules R134, R135, R138). -/
def transactTrace (bits ls : List Level) : List Event :=
  [.pinWrite .cs .high, .delay .cs] ++ sendTrace bits ++ receiveTrace ls ++ [.pinWrite .cs .low]

/-- The trace of the samples of a ready-poll up to and with a `Low` that is followed by another sample (rule R137). -/
def pollWaitEvents : List Event := [.pinRead .low, .delay .poll]

/-- The trace of a ready-poll after `k` `Low` samples, each followed by its delay (rule R137 (4)). -/
def pollWaitTrace (k : Nat) : List Event :=
  .pinWrite .cs .high :: (List.replicate k pollWaitEvents).flatten

/-- The trace of a ready-poll whose last sample, after `k` samples that were `Low`, is `l` (rule R137 (1) and (5)). -/
def pollTrace (k : Nat) (l : Level) : List Event := pollWaitTrace k ++ [.pinRead l, .pinWrite .cs .low]

/-- The level on DI at each rising edge of SK, in order, given the levels of SK and DI before the trace
(`spec/95_test_vectors.md` TV302). -/
def diAtRise : Level → Level → List Event → List Level
  | _, _, [] => []
  | sk, di, e :: rest =>
    let later := diAtRise (match e with
      | .pinWrite .sk l => l
      | _ => sk) (match e with
      | .pinWrite .di l => l
      | _ => di) rest
    if e = .pinWrite .sk .high ∧ sk = .low then di :: later else later

/-- The levels sampled in a trace, in order. -/
def samplesOf : List Event → List Level
  | [] => []
  | .pinRead l :: rest => l :: samplesOf rest
  | _ :: rest => samplesOf rest

/-- How often an event stands in a trace; SK pulses are counted by `PinWrite(SK, High)` (rule R291). -/
def eventCount (e : Event) (tr : List Event) : Nat := (tr.filter (fun x => decide (x = e))).length

/-- The time units an event takes (rules R12 and R290: only a `Delay` takes time). -/
def eventTime : Event → Nat
  | .delay k => Config.delayUnits k
  | .pinWrite _ _ => 0
  | .pinRead _ => 0
  | .cfgOut _ => 0
  | .cfgInDO => 0

/-- The time units the delays of a trace take. -/
def traceTime (tr : List Event) : Nat := (tr.map eventTime).sum

/-- The events a run added to a state's trace. -/
def newEvents (s t : State) : List Event := t.trace.drop s.trace.length

/-- The bits that a left-aligned `n`-bit shift register sends when it is shifted left once a bit: the other transmit register that rule R27
allows. -/
def shiftedOut : Nat → BitVec 16 → List Level
  | 0, _ => []
  | n + 1, v => Level.ofBool v.msb :: shiftedOut n (v <<< 1)

/-- A receive register shifted left with each sample joining bit 0: the other receive register that rule R27 allows. -/
def shiftedIn (ls : List Level) : BitVec 16 :=
  ls.foldl (fun r l => (r <<< 1) ||| BitVec.ofNat 16 l.toNat) 0

end Sys2Proof.Machine
end

