-- ==== Sys2Proof/Safety.lean ====
section
/-! DEFINITION. What a safe state is: the pin discipline of rule R141 over a trace, the invariants of the profile (rules R21,
R115), of the flags (rules R22, R23, R25) and of the sequencer (rules R209, R224, R227). -/

namespace Sys2Proof.Machine

open Sys2Proof

/-- The levels of the three driven pins. -/
structure PinLevels where
  cs : Level
  sk : Level
  di : Level
  deriving DecidableEq, Repr

/-- All pins `Low`: the reset levels (rule R39). -/
def PinLevels.allLow : PinLevels := { cs := .low, sk := .low, di := .low }

/-- May this event stand here (rule R141, items 1 to 5)? A rising or falling chip-select needs the other level before it and SK `Low`; SK
rises, and DI changes, only with chip-select `High` and SK `Low`; DO is read only with chip-select `High`. -/
def eventAllowed (v : PinLevels) : Event → Bool
  | .pinWrite .cs .high => decide (v.cs = .low ∧ v.sk = .low)
  | .pinWrite .cs .low => decide (v.cs = .high ∧ v.sk = .low)
  | .pinWrite .sk .high => decide (v.cs = .high ∧ v.sk = .low)
  | .pinWrite .sk .low => true
  | .pinWrite .di _ => decide (v.cs = .high ∧ v.sk = .low)
  | .pinRead _ => decide (v.cs = .high)
  | .delay _ => true
  | .cfgOut _ => true
  | .cfgInDO => true

/-- The pin levels after an event (rule R24). -/
def levelsAfter (v : PinLevels) : Event → PinLevels
  | .pinWrite .cs l => { v with cs := l }
  | .pinWrite .sk l => { v with sk := l }
  | .pinWrite .di l => { v with di := l }
  | .pinRead _ => v
  | .delay _ => v
  | .cfgOut _ => v
  | .cfgInDO => v

/-- Watch a trace: the final pin levels, or `none` at the first event that rule R141 forbids. -/
def watchPins : PinLevels → List Event → Option PinLevels
  | v, [] => some v
  | v, e :: rest => if eventAllowed v e then watchPins (levelsAfter v e) rest else none

/-- The pin registers as levels. -/
def State.pinLevels (s : State) : PinLevels := { cs := s.cs, sk := s.sk, di := s.di }

/-- The seven operations that use the bus (rule R89). -/
def Op.usesBus : Op → Bool
  | .enable => true
  | .disable => true
  | .eraseAll => true
  | .erase => true
  | .writeAll => true
  | .write => true
  | .read => true
  | .openDev => false
  | .iswe => false

/-- The profile registers hold what `resolve` gives for the model and the organisation (rules R110 and R114). -/
abbrev State.profileLegal (s : State) : Prop :=
  s.capacityUnits.toNat = (resolve s.model s.organization).capacityUnits ∧
  s.addressBits.toNat = (resolve s.model s.organization).addressBits ∧
  s.addressMask.toNat = (resolve s.model s.organization).addressMask

/-- Before OPEN: closed, undriven, idle, writes refused, the profile still at its reset value (rules R21, R23, R25, R39). -/
abbrev State.closedClean (s : State) : Prop :=
  s.phase = .idle ∧ s.padOe = false ∧ s.writeEnabled = false ∧
  s.capacityUnits = 0 ∧ s.addressBits = 0 ∧ s.addressMask = 0

/-- The levels of chip-select and clock in each phase (rules R141 and R227): `(cs, sk)` before the phase's event. -/
def phaseLevels : Phase → Level × Level
  | .idle => (.low, .low)
  | .csHigh => (.low, .low)
  | .csDelay => (.high, .low)
  | .txData => (.high, .low)
  | .txDly1 => (.high, .low)
  | .txSkHigh => (.high, .low)
  | .txDly2 => (.high, .high)
  | .txSkLow => (.high, .high)
  | .txDly3 => (.high, .low)
  | .rxSkHigh => (.high, .low)
  | .rxDly1 => (.high, .high)
  | .rxSample => (.high, .high)
  | .rxSkLow => (.high, .high)
  | .rxDly2 => (.high, .low)
  | .csLow => (.high, .low)
  | .pollCsHigh => (.low, .low)
  | .pollSample => (.high, .low)
  | .pollDly => (.high, .low)
  | .pollCsLow => (.high, .low)
  | .pollAbort => (.high, .low)

/-- The phases in which a bit is being counted: `cnt >= 1` (rule R209). -/
def Phase.counts : Phase → Bool
  | .txData => true
  | .txDly1 => true
  | .txSkHigh => true
  | .txDly2 => true
  | .txSkLow => true
  | .txDly3 => true
  | .rxSkHigh => true
  | .rxDly1 => true
  | .rxSample => true
  | .rxSkLow => true
  | .rxDly2 => true
  | .idle => false
  | .csHigh => false
  | .csDelay => false
  | .csLow => false
  | .pollCsHigh => false
  | .pollSample => false
  | .pollDly => false
  | .pollCsLow => false
  | .pollAbort => false

/-- The five phases of the ready-poll (rule R200), reached by write-class operations only (rule R220). -/
def Phase.polls : Phase → Bool
  | .pollCsHigh => true
  | .pollSample => true
  | .pollDly => true
  | .pollCsLow => true
  | .pollAbort => true
  | .idle => false
  | .csHigh => false
  | .csDelay => false
  | .txData => false
  | .txDly1 => false
  | .txSkHigh => false
  | .txDly2 => false
  | .txSkLow => false
  | .txDly3 => false
  | .rxSkHigh => false
  | .rxDly1 => false
  | .rxSample => false
  | .rxSkLow => false
  | .rxDly2 => false
  | .csLow => false

/-- The five phases of a receive, which READ alone reaches (rule R214). -/
def Phase.receives : Phase → Bool
  | .rxSkHigh => true
  | .rxDly1 => true
  | .rxSample => true
  | .rxSkLow => true
  | .rxDly2 => true
  | .idle => false
  | .csHigh => false
  | .csDelay => false
  | .txData => false
  | .txDly1 => false
  | .txSkHigh => false
  | .txDly2 => false
  | .txSkLow => false
  | .txDly3 => false
  | .csLow => false
  | .pollCsHigh => false
  | .pollSample => false
  | .pollDly => false
  | .pollCsLow => false
  | .pollAbort => false

/-- The sequencer in mid-operation: the operation uses the bus, a write-class one was let through the gate, the phase, the
counter and the limit fit together, and the latched operands are masked and truncated (rules R20, R27, R205, R209, R214, R220,
R224). -/
abbrev State.busyClean (s : State) : Prop :=
  s.op.usesBus = true ∧ (s.op.writeClass = true → s.writeEnabled = true) ∧
  (s.phase.counts = true → 1 ≤ s.cnt.toNat ∧ s.cnt.toNat ≤ 16) ∧
  (s.phase.polls = true → s.op.writeClass = true) ∧
  (s.phase.receives = true → s.op = .read) ∧
  (s.phase = .pollAbort → s.pollLimit ≠ none) ∧
  s.addr.toNat < 2 ^ s.addrWidth ∧ s.data.toNat < 2 ^ s.width

/-- A responder in the environment, if there is one, holds a meaningful array (rule R67). -/
def Env.wf (e : Env) : Bool :=
  match e.chip with
  | none => true
  | some c => decide c.wf

/-- The whole invariant. -/
structure State.Inv (s : State) : Prop where
  /-- Once open, the profile is what `resolve` gives and the pads are driven (rules R21, R25, R110). -/
  open_profile : s.opened = true → s.profileLegal ∧ s.padOe = true
  /-- Before OPEN nothing has happened (rules R23 and R39). -/
  closed_clean : s.opened = false → s.closedClean
  /-- Chip-select and clock stand as the phase says (rules R141 and R227). -/
  phase_levels : (s.cs, s.sk) = phaseLevels s.phase
  /-- The whole trace obeys rule R141 and ends at the pin registers' levels (rule R24). -/
  trace_pins : watchPins PinLevels.allLow s.trace = some s.pinLevels
  /-- In mid-operation the sequencer is consistent and no completion is reported (rules R201, R205). -/
  busy_clean : s.phase ≠ .idle → s.busyClean ∧ s.done = false
  /-- "`result` is 0 with every non-OK code" (rule R240). -/
  result_zero : s.status ≠ .ok → s.result = 0
  /-- A responder's array is in canonical form, within capacity and width (rule R67). -/
  chip_wf : s.env.wf = true

/-- A run that neither stops nor leaves the invariant: what a claim about runs means by safe. -/
def safeOutcome : Host.Outcome State Fault Refusal → Prop
  | .next t => t.Inv
  | .fault _ => False
  | .refused _ => False

/-! ## The terms claims use -/

/-- What a command sends on the bus (rule R89), with its address masked and its value truncated (rules R85 and R86); OPEN, ISWE and
the reserved codes send nothing. -/
def busOpOf (s : State) : Instr → Option BusOp
  | .enable _ _ => some .enable
  | .disable _ _ => some .disable
  | .eraseAll _ _ => some .eraseAll
  | .erase a _ => some (.erase (a % 2 ^ s.addrWidth))
  | .writeAll _ d => some (.writeAll (d % 2 ^ s.width))
  | .write a d => some (.write (a % 2 ^ s.addrWidth) (d % 2 ^ s.width))
  | .read a _ => some (.read (a % 2 ^ s.addrWidth))
  | .openDev _ _ => none
  | .iswe => none
  | .reserved9 => none
  | .reserved10 => none
  | .reserved11 => none
  | .reserved12 => none
  | .reserved13 => none
  | .reserved14 => none
  | .reserved15 => none

/-- The transmitted payload bits of a bus operation (rule R89). -/
def busTxBits (W : Nat) : BusOp → Nat
  | .writeAll _ => W
  | .write _ _ => W
  | .enable => 0
  | .disable => 0
  | .eraseAll => 0
  | .read _ => 0
  | .erase _ => 0

/-- The received payload bits of a bus operation (rule R89). -/
def busRxBits (W : Nat) : BusOp → Nat
  | .read _ => W
  | .writeAll _ => 0
  | .write _ _ => 0
  | .enable => 0
  | .disable => 0
  | .eraseAll => 0
  | .erase _ => 0

/-- The bus operations gated by `writeEnabled` and followed by a ready-poll (rule R89). -/
def busGated : BusOp → Bool
  | .writeAll _ => true
  | .write _ _ => true
  | .eraseAll => true
  | .erase _ => true
  | .enable => false
  | .disable => false
  | .read _ => false

/-- The status a command is refused with at acceptance, if any, in the order of rule R248. -/
def refusalOf (s : State) (i : Instr) : Option Status :=
  if 9 ≤ i.code then some .badOp
  else if i.code = 0 then
    if s.opened then some .alreadyOpen
    else match i with
      | .openDev m _ => if 5 ≤ m then some .cfgError else none
      | _ => none
  else if s.opened = false then some .notOpen
  else match busOpOf s i with
    | some b => if busGated b ∧ s.writeEnabled = false then some .writeProtected else none
    | none => none

/-- A row of rule R227's table: the events a phase may emit and the phases that may follow. -/
def graphRow : Phase → List Event × List Phase
  | .idle => ([], [.idle, .csHigh])
  | .csHigh => ([.pinWrite .cs .high], [.csDelay])
  | .csDelay => ([.delay .cs], [.txData])
  | .txData => ([.pinWrite .di .low, .pinWrite .di .high], [.txDly1])
  | .txDly1 => ([.delay .tx], [.txSkHigh])
  | .txSkHigh => ([.pinWrite .sk .high], [.txDly2])
  | .txDly2 => ([.delay .tx], [.txSkLow])
  | .txSkLow => ([.pinWrite .sk .low], [.txDly3])
  | .txDly3 => ([.delay .tx], [.txData, .rxSkHigh, .csLow])
  | .rxSkHigh => ([.pinWrite .sk .high], [.rxDly1])
  | .rxDly1 => ([.delay .rx], [.rxSample])
  | .rxSample => ([.pinRead .low, .pinRead .high], [.rxSkLow])
  | .rxSkLow => ([.pinWrite .sk .low], [.rxDly2])
  | .rxDly2 => ([.delay .rx], [.rxSkHigh, .csLow])
  | .csLow => ([.pinWrite .cs .low], [.pollCsHigh, .idle])
  | .pollCsHigh => ([.pinWrite .cs .high], [.pollSample])
  | .pollSample => ([.pinRead .low, .pinRead .high], [.pollCsLow, .pollDly, .pollAbort])
  | .pollDly => ([.delay .poll], [.pollSample])
  | .pollCsLow => ([.pinWrite .cs .low], [.idle])
  | .pollAbort => ([.pinWrite .cs .low], [.idle])

/-- The environment is the reference responder `c`, it is the chip the caller said it is (rule R67), and it stands between two
chip-select periods with nothing pending. -/
abbrev State.chipReady (s : State) (c : Chip) : Prop :=
  s.env.chip = some c ∧ c.model = s.model ∧ c.organization = s.organization ∧ c.wf ∧
  c.csL = .low ∧ c.skL = .low ∧ c.pending = false

end Sys2Proof.Machine
end

