-- ==== Sys2Proof/Certificates/Slice0/Obligations.lean ====
section
/-! DEFINITION. The statements for the provers. -/

open Sys2Proof Sys2Proof.Machine

/-! ## Encodings -/

/-- Rule R96: the nine operation codes and the seven reserved ones, each from its word, the argument ports in the model's places (log
entry 3). -/
def Obligations.CommandCodesDecodeAsTabled : Prop :=
  decode 0x00000000000A0000 = .ok (.openDev 2 .sixteenBit) ∧
  decode 0x0000000000000001 = .ok (.enable 0 0) ∧
  decode 0x0000000000000002 = .ok (.disable 0 0) ∧
  decode 0x0000000000000003 = .ok .iswe ∧
  decode 0x0000000000000004 = .ok (.eraseAll 0 0) ∧
  decode 0x0000007F00000005 = .ok (.erase 0x7F 0) ∧
  decode 0x00A5000000000006 = .ok (.writeAll 0 0xA5) ∧
  decode 0xBEEF002100000007 = .ok (.write 0x21 0xBEEF) ∧
  decode 0x0000000500000008 = .ok (.read 5 0) ∧
  decode 0x9 = .ok .reserved9 ∧ decode 0xA = .ok .reserved10 ∧ decode 0xB = .ok .reserved11 ∧
  decode 0xC = .ok .reserved12 ∧ decode 0xD = .ok .reserved13 ∧ decode 0xE = .ok .reserved14 ∧
  decode 0xF = .ok .reserved15

/-- Every command that fits the ports is read back from its word, with every operand at every value a port can carry (the packing is
the model's, log entry 3). -/
def Obligations.DecodeEncodeCommand : Prop :=
  ∀ i : Instr, i.wf = true → decode (encode i) = .ok i

/-- The decoder is total with exactly one rejection: a word with a bit where no port has a wire (log entry 3); what it accepts fits the ports
and is read back from its own encoding. -/
def Obligations.DecoderAcceptsExactlyPortWords : Prop :=
  ∀ w : CmdWord,
    (decode w = .error .padBits ↔ ¬(cmdField 4 12 w = 0 ∧ cmdField 20 12 w = 0)) ∧
    ∀ i, decode w = .ok i → i.wf = true ∧ i.code = cmdField 0 4 w ∧ decode (encode i) = .ok i

/-- Rules R89 to R91, both directions of the bus: a chip with an `A`-bit field and `W`-bit units reads from the bits of every operation that
operation, with every field and payload (the reading is the responder's, an assumption about the chip, log entry 11). -/
def Obligations.DecodeEncodeBus : Prop :=
  ∀ (A W : Nat) (b : BusOp), 2 ≤ A → b.wf A W = true → decodeBus A W (encodeBus A W b) = some b

/-- Rule R89's counts: the bits a transaction sends are `A + 3`, and `W` more with a transmitted payload; the first is the start marker. -/
def Obligations.BusFrameLengths : Prop :=
  ∀ (A W : Nat) (b : BusOp), 2 ≤ A →
    (encodeBus A W b).length = A + 3 + busTxBits W b ∧ (encodeBus A W b).head? = some .high

/-- Rule R88: the frame value as arithmetic, for every legal profile. -/
def Obligations.FrameValuesAreSums : Prop :=
  ∀ s : State, s.profileLegal →
    4 ≤ s.addrWidth - 2 ∧
    (∀ sub, sub < 4 → (controlFrame sub s).toNat = sub * 2 ^ (s.addrWidth - 2) ∧
      (controlFrame sub s).toNat < 2 ^ (s.addrWidth + 2)) ∧
    (∀ opcode a, opcode < 4 →
      (addressFrame opcode (effectiveAddress a s) s).toNat =
        opcode * 2 ^ s.addrWidth + (a &&& s.addressMask.toNat) ∧
      a &&& s.addressMask.toNat = a % 2 ^ s.addrWidth ∧
      (addressFrame opcode (effectiveAddress a s) s).toNat < 2 ^ (s.addrWidth + 2)) ∧
    2 ^ (s.addrWidth + 2) ≤ 2 ^ 13

/-- Rule R206: the sequencer's frame of each bus operation, in terms of `A` and the latched address, as the rule writes it (no bit lost); with
a masked address the `OR` is a sum. -/
def Obligations.SequencerFrameTable : Prop :=
  ∀ s : State, s.profileLegal →
    (s.op = .enable → (frameOf s).toNat = 0b11 <<< (s.addrWidth - 2)) ∧
    (s.op = .disable → (frameOf s).toNat = 0) ∧
    (s.op = .eraseAll → (frameOf s).toNat = 0b10 <<< (s.addrWidth - 2)) ∧
    (s.op = .writeAll → (frameOf s).toNat = 0b01 <<< (s.addrWidth - 2)) ∧
    (s.op = .write → (frameOf s).toNat = (0b01 <<< s.addrWidth) ||| s.addr.toNat) ∧
    (s.op = .read → (frameOf s).toNat = (0b10 <<< s.addrWidth) ||| s.addr.toNat) ∧
    (s.op = .erase → (frameOf s).toNat = (0b11 <<< s.addrWidth) ||| s.addr.toNat) ∧
    (s.addr.toNat < 2 ^ s.addrWidth →
      (s.op = .write → (frameOf s).toNat = 2 ^ s.addrWidth + s.addr.toNat) ∧
      (s.op = .read → (frameOf s).toNat = 2 ^ (s.addrWidth + 1) + s.addr.toNat) ∧
      (s.op = .erase → (frameOf s).toNat = 3 * 2 ^ s.addrWidth + s.addr.toNat))

/-! ## The profile -/

/-- Rule R114: the ten results of the resolver, and the ratio of `2^addressBits` to the capacity. -/
def Obligations.ResolverTable : Prop :=
  resolve .c46 .eightBit = ⟨128, 7, 0x07F⟩ ∧
  resolve .c56 .eightBit = ⟨256, 9, 0x1FF⟩ ∧
  resolve .c66 .eightBit = ⟨512, 9, 0x1FF⟩ ∧
  resolve .c76 .eightBit = ⟨1024, 11, 0x7FF⟩ ∧
  resolve .c86 .eightBit = ⟨2048, 11, 0x7FF⟩ ∧
  resolve .c46 .sixteenBit = ⟨64, 6, 0x03F⟩ ∧
  resolve .c56 .sixteenBit = ⟨128, 8, 0x0FF⟩ ∧
  resolve .c66 .sixteenBit = ⟨256, 8, 0x0FF⟩ ∧
  resolve .c76 .sixteenBit = ⟨512, 10, 0x3FF⟩ ∧
  resolve .c86 .sixteenBit = ⟨1024, 10, 0x3FF⟩ ∧
  (∀ o : Organization, ∀ m ∈ [Model.c46, .c66, .c86],
    2 ^ (resolve m o).addressBits = (resolve m o).capacityUnits) ∧
  (∀ o : Organization, ∀ m ∈ [Model.c56, .c76],
    2 ^ (resolve m o).addressBits = 2 * (resolve m o).capacityUnits)

/-- Rule R115: the mask has exactly `addressBits` bits set, is `2^addressBits - 1`, and reaches the last unit. -/
def Obligations.ResolverInvariants : Prop :=
  ∀ (m : Model) (o : Organization),
    ((List.range 16).filter (fun i => (resolve m o).addressMask.testBit i)).length = (resolve m o).addressBits ∧
    (resolve m o).addressMask = (1 <<< (resolve m o).addressBits) - 1 ∧
    (resolve m o).capacityUnits - 1 ≤ (resolve m o).addressMask

/-- Rule R110: a successful OPEN as one state: the profile, the flags, the four events, the capacity as result, and nothing else; what each
register holds afterwards is the resolved value itself, none is cut off by its width. -/
def Obligations.OpenLoadsProfile : Prop :=
  ∀ (s : State) (m : Model) (o : Organization), s.opened = false →
    exec (.openDev (modelRaw m) o) s = .next { s with
      model := m
      organization := o
      capacityUnits := BitVec.ofNat 12 (resolve m o).capacityUnits
      addressBits := BitVec.ofNat 4 (resolve m o).addressBits
      addressMask := BitVec.ofNat 11 (resolve m o).addressMask
      padOe := true
      writeEnabled := false
      opened := true
      trace := s.trace ++ [.cfgOut .cs, .cfgOut .sk, .cfgOut .di, .cfgInDO]
      status := .ok
      result := BitVec.ofNat 16 (resolve m o).capacityUnits
      done := true
      phase := .idle } ∧
    (BitVec.ofNat 12 (resolve m o).capacityUnits).toNat = (resolve m o).capacityUnits ∧
    (BitVec.ofNat 4 (resolve m o).addressBits).toNat = (resolve m o).addressBits ∧
    (BitVec.ofNat 11 (resolve m o).addressMask).toNat = (resolve m o).addressMask

/-- Rules R242, R246: an OPEN that is refused, whatever `cfg_model` is when the engine is open; nothing but `status`, `result`, `done` changes;
and `CFG_ERROR` is raised by nothing else. -/
def Obligations.OpenRefusals : Prop :=
  (∀ (s : State) (raw : Nat) (o : Organization), s.phase = .idle →
    (s.opened = true → exec (.openDev raw o) s =
      .next { s with status := .alreadyOpen, result := 0, done := true }) ∧
    (s.opened = false → 4 < raw → exec (.openDev raw o) s =
      .next { s with status := .cfgError, result := 0, done := true })) ∧
  (∀ (s t : State) (i : Instr), exec i s = .next t → t.done = true → t.status = .cfgError →
    s.opened = false ∧ ∃ raw o, i = .openDev raw o ∧ 4 < raw) ∧
  Status.alreadyOpen.code = 4 ∧ Status.cfgError.code = 2

/-! ## Operations without a ready-poll -/

/-- Rule R161: ENABLE. -/
def Obligations.EnableSendsFrameAndSetsFlag : Prop :=
  ∀ (s : State) (a d : Nat),
    (s.opened = false → s.phase = .idle → exec (.enable a d) s =
      .next { s with status := .notOpen, result := 0, done := true }) ∧
    (s.opened = true → s.profileLegal →
      exec (.enable a d) s = .next { s with
        op := .enable
        addr := effectiveAddress a s
        data := truncUnit d s
        seg := .frame
        sh := BitVec.ofNat 16 (0b11 <<< (s.addrWidth - 2))
        cnt := 0
        cs := .low
        sk := .low
        di := .low
        trace := s.trace ++ transactTrace (encodeBus s.addrWidth s.width .enable) []
        env := (transactTrace (encodeBus s.addrWidth s.width .enable) []).foldl Env.observe s.env
        writeEnabled := true
        status := .ok
        result := 0
        done := true
        phase := .idle } ∧
      (transactTrace (encodeBus s.addrWidth s.width .enable) []).length = 8 + 6 * (s.addrWidth + 2) + 1) ∧
    encodeBus 7 8 .enable =
      [.high, .low, .low, .high, .high, .low, .low, .low, .low, .low] ∧
    (Instr.enable a d).code = 1

/-- Rule R162: DISABLE. -/
def Obligations.DisableSendsFrameAndClearsFlag : Prop :=
  ∀ (s : State) (a d : Nat),
    (s.opened = false → s.phase = .idle → exec (.disable a d) s =
      .next { s with status := .notOpen, result := 0, done := true }) ∧
    (s.opened = true → s.profileLegal →
      exec (.disable a d) s = .next { s with
        op := .disable
        addr := effectiveAddress a s
        data := truncUnit d s
        seg := .frame
        sh := 0
        cnt := 0
        cs := .low
        sk := .low
        di := .low
        trace := s.trace ++ transactTrace (encodeBus s.addrWidth s.width .disable) []
        env := (transactTrace (encodeBus s.addrWidth s.width .disable) []).foldl Env.observe s.env
        writeEnabled := false
        status := .ok
        result := 0
        done := true
        phase := .idle }) ∧
    encodeBus 7 8 .disable =
      [.high, .low, .low, .low, .low, .low, .low, .low, .low, .low] ∧
    (Instr.disable a d).code = 2

/-- Rule R163: ISWE reports the flag, emits nothing and changes nothing else; the same bit is on `we_o`; directly after a
successful OPEN it reports 0. -/
def Obligations.IsweReportsFlag : Prop :=
  (∀ s : State, s.phase = .idle →
    (s.opened = false → exec .iswe s = .next { s with status := .notOpen, result := 0, done := true }) ∧
    (s.opened = true → exec .iswe s =
      .next { s with status := .ok, result := if s.writeEnabled then 1 else 0, done := true })) ∧
  (∀ s : State, s.weO = s.writeEnabled) ∧
  (∀ (s t : State) (m : Model) (o : Organization), s.opened = false →
    exec (.openDev (modelRaw m) o) s = .next t →
    exec .iswe t = .next { t with status := .ok, result := 0, done := true }) ∧
  Instr.iswe.code = 3

/-- Rule R181: READ, under every environment. `ls` are the levels the environment answered, the first sampled first; with no responder and enough
answers held they are those answers. No flag changes, and the trace has a fixed
length. (That `data` is latched too is rule R205 against rule R57's list, log entry 7.) -/
def Obligations.ReadSamplesOneUnit : Prop :=
  ∀ (s : State) (a d : Nat),
    (s.opened = false → s.phase = .idle → exec (.read a d) s =
      .next { s with status := .notOpen, result := 0, done := true }) ∧
    (s.opened = true → s.profileLegal →
      ∃ (ls : List Level) (e : Env), ls.length = s.width ∧
        exec (.read a d) s = .next { s with
          op := .read
          addr := effectiveAddress a s
          data := truncUnit d s
          seg := .frame
          sh := BitVec.ofNat 16 (2 * 2 ^ s.addrWidth + a % 2 ^ s.addrWidth)
          cnt := 0
          rx := BitVec.ofNat 16 (bitsValue ls)
          cs := .low
          sk := .low
          di := Level.ofBool (a.testBit 0)
          trace := s.trace ++ transactTrace (encodeBus s.addrWidth s.width (.read (a % 2 ^ s.addrWidth))) ls
          env := e
          status := .ok
          result := BitVec.ofNat 16 (bitsValue ls)
          done := true
          phase := .idle } ∧
        bitsValue ls < 2 ^ s.width ∧
        (s.env.chip = none → s.width ≤ s.env.levels.length →
          ls = s.env.levels.take s.width ∧ e = { s.env with levels := s.env.levels.drop s.width }) ∧
        (transactTrace (encodeBus s.addrWidth s.width (.read (a % 2 ^ s.addrWidth))) ls).length =
          8 + 6 * (s.addrWidth + 2) + 5 * s.width + 1)

/-- Rules R97, R247: a reserved code completes with `BAD_OP` whatever `opened` is, with no event and no other change. -/
def Obligations.ReservedCodesAreBadOp : Prop :=
  (∀ (s : State) (i : Instr), s.phase = .idle →
    i ∈ [Instr.reserved9, .reserved10, .reserved11, .reserved12, .reserved13, .reserved14, .reserved15] →
    exec i s = .next { s with status := .badOp, result := 0, done := true }) ∧
  (∀ i : Instr, i.code ≤ 15 ∧ (9 ≤ i.code ↔
    i ∈ [Instr.reserved9, .reserved10, .reserved11, .reserved12, .reserved13, .reserved14, .reserved15])) ∧
  Status.badOp.code = 5

/-! ## Write-class operations -/

/-- ERASEALL to its completion (rules R164, R136, R140): after `k` `Low` samples the poll sees `High`, before any limit is
reached. -/
def Obligations.EraseAllCompletes : Prop :=
  ∀ (s : State) (a d k : Nat) (rest : List Level),
    s.opened = true → s.profileLegal → s.writeEnabled = true →
    s.env.chip = none → s.env.levels = List.replicate k .low ++ .high :: rest →
    (∀ n, s.pollLimit = some n → k < n) →
    exec (.eraseAll a d) s = .next { s with
      op := .eraseAll
      addr := effectiveAddress a s
      data := truncUnit d s
      seg := .frame
      sh := BitVec.ofNat 16 (0b10 <<< (s.addrWidth - 2))
      cnt := 0
      cs := .low
      sk := .low
      di := .low
      pollCount := k + 1
      trace := s.trace ++ transactTrace (encodeBus s.addrWidth s.width .eraseAll) [] ++ pollTrace k .high
      env := { s.env with levels := rest }
      status := .ok
      result := 0
      done := true
      phase := .idle }

/-- ERASE to its completion (rules R183, R136, R140). -/
def Obligations.EraseCompletes : Prop :=
  ∀ (s : State) (a d k : Nat) (rest : List Level),
    s.opened = true → s.profileLegal → s.writeEnabled = true →
    s.env.chip = none → s.env.levels = List.replicate k .low ++ .high :: rest →
    (∀ n, s.pollLimit = some n → k < n) →
    exec (.erase a d) s = .next { s with
      op := .erase
      addr := effectiveAddress a s
      data := truncUnit d s
      seg := .frame
      sh := BitVec.ofNat 16 (3 * 2 ^ s.addrWidth + a % 2 ^ s.addrWidth)
      cnt := 0
      cs := .low
      sk := .low
      di := Level.ofBool (a.testBit 0)
      pollCount := k + 1
      trace := s.trace ++ transactTrace (encodeBus s.addrWidth s.width (.erase (a % 2 ^ s.addrWidth))) [] ++
        pollTrace k .high
      env := { s.env with levels := rest }
      status := .ok
      result := 0
      done := true
      phase := .idle }

/-- WRITEALL to its completion (rules R165, R136, R140). -/
def Obligations.WriteAllCompletes : Prop :=
  ∀ (s : State) (a d k : Nat) (rest : List Level),
    s.opened = true → s.profileLegal → s.writeEnabled = true →
    s.env.chip = none → s.env.levels = List.replicate k .low ++ .high :: rest →
    (∀ n, s.pollLimit = some n → k < n) →
    exec (.writeAll a d) s = .next { s with
      op := .writeAll
      addr := effectiveAddress a s
      data := BitVec.ofNat 16 (d % 2 ^ s.width)
      seg := .payload
      sh := BitVec.ofNat 16 (d % 2 ^ s.width)
      cnt := 0
      cs := .low
      sk := .low
      di := Level.ofBool (d.testBit 0)
      pollCount := k + 1
      trace := s.trace ++ transactTrace (encodeBus s.addrWidth s.width (.writeAll (d % 2 ^ s.width))) [] ++
        pollTrace k .high
      env := { s.env with levels := rest }
      status := .ok
      result := 0
      done := true
      phase := .idle }

/-- WRITE to its completion (rules R182, R136, R140). -/
def Obligations.WriteCompletes : Prop :=
  ∀ (s : State) (a d k : Nat) (rest : List Level),
    s.opened = true → s.profileLegal → s.writeEnabled = true →
    s.env.chip = none → s.env.levels = List.replicate k .low ++ .high :: rest →
    (∀ n, s.pollLimit = some n → k < n) →
    exec (.write a d) s = .next { s with
      op := .write
      addr := effectiveAddress a s
      data := BitVec.ofNat 16 (d % 2 ^ s.width)
      seg := .payload
      sh := BitVec.ofNat 16 (d % 2 ^ s.width)
      cnt := 0
      cs := .low
      sk := .low
      di := Level.ofBool (d.testBit 0)
      pollCount := k + 1
      trace := s.trace ++
        transactTrace (encodeBus s.addrWidth s.width (.write (a % 2 ^ s.addrWidth) (d % 2 ^ s.width))) [] ++
        pollTrace k .high
      env := { s.env with levels := rest }
      status := .ok
      result := 0
      done := true
      phase := .idle }

/-- Rule R243 for its four operations: with `writeEnabled = 0` nothing is emitted, the environment (the chip's array with it) is as it was, and only
`status`, `result` and `done` change; with the engine closed the status is `NOT_OPEN` (rule R245); no other command is
gated. -/
def Obligations.RefusedWritesDoNothing : Prop :=
  (∀ (s : State) (a d : Nat) (i : Instr), s.phase = .idle →
    i ∈ [Instr.eraseAll a d, .erase a d, .writeAll a d, .write a d] →
    (s.opened = true → s.writeEnabled = false →
      exec i s = .next { s with status := .writeProtected, result := 0, done := true }) ∧
    (s.opened = false → exec i s = .next { s with status := .notOpen, result := 0, done := true })) ∧
  (∀ (s t : State) (i : Instr), exec i s = .next t → t.done = true → t.status = .writeProtected →
    s.opened = true ∧ s.writeEnabled = false ∧
    ∃ a d, i ∈ [Instr.eraseAll a d, .erase a d, .writeAll a d, .write a d]) ∧
  Status.writeProtected.code = 1 ∧ Status.notOpen.code = 3

/-- Rules R244 and R137 (5) for the four write-class operations: with `POLL_LIMIT = n` and `n` `Low` samples the whole transaction and `n` samples
are emitted, no delay follows the last, and the operation completes with `POLL_TIMEOUT` (code 6 on the port, rule R240), pins at rest, the
flags as they were. -/
def Obligations.PollTimesOutAtLimit : Prop :=
  ∀ (s : State) (a d n : Nat) (i : Instr) (b : BusOp) (rest : List Level),
    i ∈ [Instr.eraseAll a d, .erase a d, .writeAll a d, .write a d] → busOpOf s i = some b →
    s.opened = true → s.profileLegal → s.writeEnabled = true →
    s.env.chip = none → s.pollLimit = some n → 0 < n → s.env.levels = List.replicate n .low ++ rest →
    ∃ t, exec i s = .next t ∧ t.status = .pollTimeout ∧ Status.pollTimeout.code = 6 ∧ t.statusPort = 6 ∧ t.result = 0 ∧ t.done = true ∧ t.phase = .idle ∧
      t.trace = s.trace ++ transactTrace (encodeBus s.addrWidth s.width b) [] ++ pollTrace (n - 1) .low ∧
      t.pollCount = n ∧ t.env = { s.env with levels := rest } ∧ t.cs = .low ∧ t.sk = .low ∧
      t.writeEnabled = true ∧ t.opened = true

/-- Rule R281: with no limit and no `High` among the environment's answers the operation does not complete: the transaction is sent, the poll is under way,
the engine is busy with chip-select `High`, and `status` and `result` are those of the command before. (Where `exec`
hands the poll over to the sequencer is log entry 6.) -/
def Obligations.PollWithoutReadyStaysBusy : Prop :=
  ∀ (s : State) (a d k : Nat) (i : Instr) (b : BusOp),
    i ∈ [Instr.eraseAll a d, .erase a d, .writeAll a d, .write a d] → busOpOf s i = some b →
    s.opened = true → s.profileLegal → s.writeEnabled = true →
    s.env.chip = none → s.pollLimit = none → s.env.levels = List.replicate k .low →
    ∃ t, exec i s = .next t ∧ t.phase = .pollSample ∧ t.busy = true ∧ t.done = false ∧ t.cs = .high ∧
      t.status = s.status ∧ t.result = s.result ∧ t.pollCount = k ∧
      t.trace = s.trace ++ transactTrace (encodeBus s.addrWidth s.width b) [] ++ pollWaitTrace k

/-- Rules R244 and R223: with no limit a ready-poll goes round for as long as the samples are `Low`: after `2 * n` micro-steps it stands where it stood, having
emitted `n` samples and delays and nothing else. -/
def Obligations.PollHangsWhileLow : Prop :=
  ∀ (s : State) (n : Nat) (rest : List Level),
    s.phase = .pollSample → s.pollLimit = none → s.env.chip = none →
    s.env.levels = List.replicate n .low ++ rest → s.done = false →
    runMicro (2 * n) s = { s with
      pollCount := s.pollCount + n
      trace := s.trace ++ (List.replicate n pollWaitEvents).flatten
      env := { s.env with levels := rest } }

/-- Rules R136 and R137 for `pollReady`, under a free environment: `OK` at the first `High`, which comes before or at the limit; `POLL_TIMEOUT` when
the limit comes first, with no delay after the last sample; still polling when neither has come (the model's hand-over, log entry 6). -/
def Obligations.PollReadyOutcomes : Prop :=
  ∀ (s : State) (k : Nat) (rest : List Level), s.env.chip = none →
    (s.env.levels = List.replicate k .low ++ .high :: rest → (∀ n, s.pollLimit = some n → k < n) →
      pollReady s = { s with
        trace := s.trace ++ pollTrace k .high
        cs := .low
        pollCount := k + 1
        env := { s.env with levels := rest }
        status := .ok
        result := 0
        done := true
        phase := .idle } ∧
      (pollTrace k .high).length = 2 + 2 * (k + 1) - 1) ∧
    (s.env.levels = List.replicate (k + 1) .low ++ rest → s.pollLimit = some (k + 1) →
      pollReady s = { s with
        trace := s.trace ++ pollTrace k .low
        cs := .low
        pollCount := k + 1
        env := { s.env with levels := rest }
        status := .pollTimeout
        result := 0
        done := true
        phase := .idle }) ∧
    (s.env.levels = List.replicate k .low → s.pollLimit = none →
      pollReady s = { s with
        trace := s.trace ++ pollWaitTrace k
        cs := .high
        pollCount := k
        env := { s.env with levels := [] }
        done := false
        phase := .pollSample })

/-! ## The primitives -/

/-- Rule R133: `receiveBits` emits five events a bit, never writes DI, samples with the clock `High`, and returns the samples most significant
first, below `2^amtBits`. -/
def Obligations.ReceiveBitsValue : Prop :=
  ∀ (s : State) (n : Nat), n ≤ 16 →
    ∃ ls : List Level, ls.length = n ∧
      (receiveBits n s).trace = s.trace ++ receiveTrace ls ∧
      (receiveTrace ls).length = 5 * n ∧
      (receiveBits n s).rx = BitVec.ofNat 16 (bitsValue ls) ∧
      bitsValue ls < 2 ^ n ∧
      (receiveBits n s).di = s.di ∧
      bitsValue ls = ((List.range n).map (fun j => (ls.getD j .low).toNat * 2 ^ (n - (j + 1)))).sum

/-- Rule R131 (2), (3), (6): bits at and above `length` do not reach the bus, a bit takes six events, and the clock is `Low` on return. -/
def Obligations.SendBitsIgnoresHighBits : Prop :=
  ∀ (s : State) (v : BitVec 16) (n : Nat), n ≤ 16 →
    (sendBits v n s).trace = (sendBits (BitVec.ofNat 16 (v.toNat % 2 ^ n)) n s).trace ∧
    (sendBits v n s).trace.length = s.trace.length + 6 * n ∧
    (s.sk = .low → (sendBits v n s).sk = .low)

/-- Rule R27: left-aligning the transmit register and shifting it left once a bit gives the very events of `sendBits`, and the level of each `TxData`
micro-step; shifting the receive register left and joining each sample at bit 0 gives the events of `receiveBits` and the `rx` it ends
with; as bit strings and values the two forms agree. -/
def Obligations.ShiftRegisterFormsAgree : Prop :=
  (∀ (s : State) (v : BitVec 16) (n : Nat), n ≤ 16 →
    (sendBits v n s).trace = s.trace ++ sendTrace (shiftedOut n (v <<< (16 - n)))) ∧
  (∀ s : State, s.phase = .txData → 1 ≤ s.cnt.toNat → s.cnt.toNat ≤ 16 →
    (transition s).di = Level.ofBool (s.sh <<< (16 - s.cnt.toNat)).msb) ∧
  (∀ (s : State) (n : Nat), n ≤ 16 → ∃ ls : List Level, ls.length = n ∧
    (receiveBits n s).trace = s.trace ++ receiveTrace ls ∧ (receiveBits n s).rx = shiftedIn ls) ∧
  (∀ (v : BitVec 16) (n : Nat), n ≤ 16 → shiftedOut n (v <<< (16 - n)) = bitsMsb n v.toNat) ∧
  (∀ ls : List Level, ls.length ≤ 16 → shiftedIn ls = BitVec.ofNat 16 (bitsValue ls))

/-! ## What every operation leaves alone -/

/-- Rule R22: every event that touches `writeEnabled`, and that nothing else does: reset, a successful OPEN, ENABLE and DISABLE when they complete. -/
def Obligations.WriteEnabledChangesOnlyByRule : Prop :=
  (∀ s : State, (applyReset s).writeEnabled = false) ∧
  ∀ (s t : State) (i : Instr), exec i s = .next t →
    match i with
    | .openDev _ _ => t.writeEnabled = if t.status = .ok then false else s.writeEnabled
    | .enable _ _ => t.writeEnabled = if t.status = .ok then true else s.writeEnabled
    | .disable _ _ => t.writeEnabled = if t.status = .ok then false else s.writeEnabled
    | _ => t.writeEnabled = s.writeEnabled

/-- Rules R140 and R225: at the sequencer's grain the flag changes only in a micro-step that emits the operation's last `PinWrite(CS, Low)` and completes
it. -/
def Obligations.FlagChangesWithLastChipSelectFall : Prop :=
  ∀ s : State, (transition s).writeEnabled ≠ s.writeEnabled →
    newEvents s (transition s) = [.pinWrite .cs .low] ∧ (transition s).phase = .idle ∧
    (transition s).done = true ∧ (s.op = .enable ∨ s.op = .disable)

/-- Rules R21, R23, R25: once open, no step but a reset changes the profile, `opened` or `pad_oe`; at either grain. (That the poll limit, a parameter of rule R8, is a
field that no step changes is the model's, log entry 1.) -/
def Obligations.ProfileImmutableOnceOpen : Prop :=
  ∀ s t : State, s.opened = true → callerNow s ≠ .assertReset → (step s = .next t ∨ microStep s = .next t) →
    t.model = s.model ∧ t.organization = s.organization ∧ t.capacityUnits = s.capacityUnits ∧
    t.addressBits = s.addressBits ∧ t.addressMask = s.addressMask ∧ t.opened = true ∧ t.padOe = s.padOe ∧
    t.pollLimit = s.pollLimit

/-- Rules R54, R55, R85, R86 and R251: only the masked address and the truncated value count; an address above the mask or a value above the width gives the
very state that the reduced ones give, and no error. -/
def Obligations.OnlyMaskedOperandsMatter : Prop :=
  ∀ (s : State) (a d : Nat), s.profileLegal →
    exec (.write a d) s = exec (.write (a % 2 ^ s.addrWidth) (d % 2 ^ s.width)) s ∧
    exec (.read a d) s = exec (.read (a % 2 ^ s.addrWidth) (d % 2 ^ s.width)) s ∧
    exec (.erase a d) s = exec (.erase (a % 2 ^ s.addrWidth) (d % 2 ^ s.width)) s ∧
    exec (.writeAll a d) s = exec (.writeAll (a % 2 ^ s.addrWidth) (d % 2 ^ s.width)) s

/-- Rules R90 and R284: the model and the capacity reach nothing but the result of OPEN: two engines that differ only in them behave alike on every other
command. -/
def Obligations.ModelAndCapacityAreInvisible : Prop :=
  ∀ (s t : State) (i : Instr) (m : Model) (c : BitVec 12), i.code ≠ 0 → exec i s = .next t →
    exec i { s with model := m, capacityUnits := c } = .next { t with model := m, capacityUnits := c }

/-- Rule R95: the argument ports that an operation does not use change neither its trace, its status, its result nor its
flags. -/
def Obligations.UnusedPortsAreIgnored : Prop :=
  ∀ (s t u : State) (a d a' d' : Nat),
    (exec (.enable a d) s = .next t → exec (.enable a' d') s = .next u →
      u = { t with addr := u.addr, data := u.data }) ∧
    (exec (.disable a d) s = .next t → exec (.disable a' d') s = .next u →
      u = { t with addr := u.addr, data := u.data }) ∧
    (exec (.eraseAll a d) s = .next t → exec (.eraseAll a' d') s = .next u →
      u = { t with addr := u.addr, data := u.data }) ∧
    (exec (.erase a d) s = .next t → exec (.erase a d') s = .next u → u = { t with data := u.data }) ∧
    (exec (.writeAll a d) s = .next t → exec (.writeAll a' d) s = .next u → u = { t with addr := u.addr }) ∧
    (exec (.read a d) s = .next t → exec (.read a d') s = .next u → u = { t with data := u.data })

/-- Rule R248: the refusals at acceptance in their order. A command that is refused changes only `status`, `result`, `done` (and ends in `Idle`);
one that is not ends with `OK` or `POLL_TIMEOUT`, or is still polling (the model's hand-over, log entry 6). -/
def Obligations.RefusalPriority : Prop :=
  ∀ (s : State) (i : Instr),
    (∀ st, refusalOf s i = some st →
      exec i s = .next { s with status := st, result := 0, done := true, phase := .idle }) ∧
    (refusalOf s i = none → ∃ t, exec i s = .next t ∧
      (t.done = true ∧ t.phase = .idle ∧ (t.status = .ok ∨ t.status = .pollTimeout ∧ t.result = 0) ∨
       t.done = false ∧ t.phase = .pollSample ∧ t.status = s.status ∧ t.result = s.result))

/-- Rule R253: the states of permission are left only as that rule shows. -/
def Obligations.PermissionTransitions : Prop :=
  (∀ s : State, (applyReset s).permission = .closed) ∧
  ∀ (s t : State) (i : Instr), exec i s = .next t → t.permission ≠ s.permission →
    (s.permission = .closed ∧ t.permission = .writeProtected ∧ i.code = 0 ∧ t.status = .ok) ∨
    (s.permission = .writeProtected ∧ t.permission = .writeEnabled ∧ i.code = 1) ∨
    (s.permission = .writeEnabled ∧ t.permission = .writeProtected ∧ i.code = 2)

/-! ## What is on the wires -/

/-- Rule R89 as the chip sees it: the levels of DI at the rising edges of SK of a command's events are the bits of its bus encoding; a READ
adds `W` pulses under the held last bit. -/
def Obligations.DiBitsAreTheBusEncoding : Prop :=
  ∀ (s t : State) (i : Instr) (b : BusOp), s.cs = .low → s.sk = .low → s.opened = true → s.profileLegal →
    (busGated b = true → s.writeEnabled = true) → busOpOf s i = some b → exec i s = .next t →
    diAtRise s.sk s.di (newEvents s t) =
      encodeBus s.addrWidth s.width b ++ List.replicate (busRxBits s.width b) t.di

/-- Rule R291: the delays of each kind and the SK pulses of a bus operation that completes, by the number `s` of poll samples (`pollCount` after a write-class
operation); OPEN, ISWE and every refused command have none. -/
def Obligations.DelayAndPulseBudget : Prop :=
  (∀ (s t : State) (i : Instr) (b : BusOp), s.opened = true → s.profileLegal →
    (busGated b = true → s.writeEnabled = true) → busOpOf s i = some b → exec i s = .next t → t.phase = .idle →
    eventCount (.delay .cs) (newEvents s t) = 1 ∧
    eventCount (.delay .tx) (newEvents s t) = 3 * (s.addrWidth + 3 + busTxBits s.width b) ∧
    eventCount (.delay .rx) (newEvents s t) = 2 * busRxBits s.width b ∧
    eventCount (.delay .poll) (newEvents s t) = (if busGated b then t.pollCount - 1 else 0) ∧
    eventCount (.pinWrite .sk .high) (newEvents s t) =
      s.addrWidth + 3 + busTxBits s.width b + busRxBits s.width b) ∧
  (∀ (s t : State) (i : Instr) (k : DelayKind), refusalOf s i ≠ none ∨ busOpOf s i = none →
    exec i s = .next t →
    eventCount (.delay k) (newEvents s t) = 0 ∧ eventCount (.pinWrite .sk .high) (newEvents s t) = 0)

/-! ## The sequencer -/

/-- Rule R227: every transition out of a phase other than `Idle` emits exactly one event of that phase's row and goes to a phase of that row; a micro-step in `Idle`
emits nothing, or the four `Cfg` of OPEN, and ends in `Idle` or `CsHigh`. -/
def Obligations.TransitionGraph : Prop :=
  (∀ s : State, s.phase ≠ .idle →
    ∃ e, e ∈ (graphRow s.phase).1 ∧ (transition s).trace = s.trace ++ [e] ∧
      (transition s).phase ∈ (graphRow s.phase).2) ∧
  (∀ (s : State) (i : Instr), s.phase = .idle →
    (newEvents s (accept i s) = [] ∨
      newEvents s (accept i s) = [.cfgOut .cs, .cfgOut .sk, .cfgOut .di, .cfgInDO]) ∧
    (accept i s).phase ∈ (graphRow .idle).2)

/-- Rules R201 and R204: `done` is 1 exactly in a micro-step that completes a command (that a quiet micro-step in `Idle` ends
the pulse is log entry 9). -/
def Obligations.DonePulsesOnCompletion : Prop :=
  (∀ s : State, s.phase ≠ .idle → ((transition s).done = true ↔ (transition s).phase = .idle)) ∧
  (∀ s : State, s.phase = .idle → transition s = { s with done := false }) ∧
  (∀ (s : State) (i : Instr), s.phase = .idle →
    ((accept i s).done = true ↔ (accept i s).phase = .idle))

/-- Rule R24: the pin registers follow the pin writes of the trace, and nothing else moves them but reset, which sets all three `Low`. -/
def Obligations.PinsFollowPinWrites : Prop :=
  ∀ (s : State) (i : Instr),
    (transition s).pinLevels = (newEvents s (transition s)).foldl levelsAfter s.pinLevels ∧
    (accept i s).pinLevels = (newEvents s (accept i s)).foldl levelsAfter s.pinLevels ∧
    (applyReset s).pinLevels = PinLevels.allLow

/-- Rule R226: from every state and for every command, whatever the environment answers, the micro-steps from acceptance reach exactly the
state that the operation's procedure ends in (every register, the trace, the environment), one micro-step an event, with the engine
busy on the way and no completion before. (For a poll with no limit and no `High` in sight the procedure's state is the one in
mid-poll, log entry 6.) -/
def Obligations.SequencerRefinesProcedures : Prop :=
  ∀ (s t : State) (i : Instr), exec i s = .next t →
    runMicro (t.trace.length - (accept i s).trace.length) (accept i s) = t ∧
    ∀ m, m < t.trace.length - (accept i s).trace.length →
      (runMicro m (accept i s)).phase ≠ .idle ∧ (runMicro m (accept i s)).done = false

/-- Rule R228: how many micro-steps follow the acceptance micro-step of each command that completes; OPEN, ISWE and every refused command take the
acceptance micro-step alone. -/
def Obligations.MicroStepCounts : Prop :=
  ∀ (s t : State) (i : Instr), exec i s = .next t →
    (refusalOf s i ≠ none ∨ busOpOf s i = none → accept i s = t) ∧
    ∀ b, busOpOf s i = some b → refusalOf s i = none → s.profileLegal → t.phase = .idle →
      runMicro (2 + 6 * (s.addrWidth + 3 + busTxBits s.width b) + 5 * busRxBits s.width b + 1 +
        (if busGated b then 1 + 2 * t.pollCount else 0)) (accept i s) = t ∧
      (busGated b = true → 1 ≤ t.pollCount)

/-- Rule R203: while the engine is busy a presented command is neither run nor queued: the step is the one a quiet caller gives; while it
is idle the command is accepted. At either grain. (One act of the caller a step is the model's form, log entry 15.) -/
def Obligations.CommandsAcceptedOnlyInIdle : Prop :=
  ∀ (s : State) (w : CmdWord) (rest : List CallerAct), s.caller = .present w :: rest →
    (s.phase ≠ .idle →
      step s = step { s with caller := .quiet :: rest } ∧
      microStep s = microStep { s with caller := .quiet :: rest }) ∧
    (s.phase = .idle → ∀ i, decode w = .ok i →
      step s = exec i { s with caller := rest } ∧
      microStep s = .next (accept i { s with caller := rest }))

/-! ## Reset -/

/-- Rule R39: the reset values (`op` and `seg`, log entry 8, are left out). -/
def Obligations.ResetValues : Prop :=
  State.reset.opened = false ∧ State.reset.writeEnabled = false ∧
  State.reset.organization = orgOfRaw 0 ∧ some State.reset.model = modelOfRaw 0 ∧
  State.reset.capacityUnits = 0 ∧ State.reset.addressBits = 0 ∧ State.reset.addressMask = 0 ∧
  State.reset.cs = .low ∧ State.reset.sk = .low ∧ State.reset.di = .low ∧ State.reset.padOe = false ∧
  State.reset.phase = .idle ∧ State.reset.addr = 0 ∧ State.reset.data = 0 ∧ State.reset.sh = 0 ∧
  State.reset.cnt = 0 ∧ State.reset.rx = 0 ∧ State.reset.pollCount = 0 ∧
  State.reset.status.code = 0 ∧ State.reset.result = 0 ∧ State.reset.done = false

/-- Rules R270 to R272: reset wins in every phase and over every command, puts every register at its reset value, emits no event, and leaves the environment
alone when the engine was idle. (The model's own, no part of those rules: the poll limit, a parameter by rules R8 and R30, stands through a reset, log
entry 1; one act of the caller is used up and the rest stand, log entry 15; the trace starts anew and a responder is given up
after a reset in mid-operation, log entry 10.) -/
def Obligations.ResetFromEveryPhase : Prop :=
  ∀ (s : State) (rest : List CallerAct), s.caller = .assertReset :: rest →
    step s = .next { State.reset with
      pollLimit := s.pollLimit
      caller := rest
      env := if s.phase = .idle then s.env else { s.env with chip := none } } ∧
    microStep s = step s

/-! ## The step -/

/-- A step in `Idle` with a command presented is that command's meaning; with nothing presented no register changes (rule R202) but `done`, whose pulse
ends. (The model's own: that `done` falls there, by rules R29 and R201 against rule R202's "no register change", is log entry 9; that a word which is no
command stops by name is log entry 3; that the step uses the caller's act up is log entry 15.) -/
def Obligations.StepRunsDecodedCommand : Prop :=
  ∀ s : State, s.phase = .idle →
    (∀ w rest i, s.caller = .present w :: rest → decode w = .ok i → step s = exec i { s with caller := rest }) ∧
    (∀ w rest, s.caller = .present w :: rest → decode w = .error .padBits → step s = .fault .notAPortWord) ∧
    (∀ rest, s.caller = .quiet :: rest → step s = .next { s with caller := rest, done := false }) ∧
    (s.caller = [] → step s = .next { s with done := false })

/-- The step after `withFetchWord` runs exactly the command of that word (log entry 5). -/
def Obligations.FetchedWordRuns : Prop :=
  ∀ (s : State) (nbits w : Nat) (i : Instr), decodeTableWord nbits w = some i →
    step (s.withFetchWord nbits w) = exec i { s with phase := .idle }

/-! ## Invariants -/

/-- The reset state meets the invariant. -/
def Obligations.ResetMeetsInvariant : Prop := State.reset.Inv

/-- Every step keeps the invariant: the profile is `resolve`'s, closed means clean, the pin levels fit the phase, the whole trace obeys rule R141,
a busy sequencer is consistent, and a responder's array stays in canonical form. -/
def Obligations.StepKeepsInvariant : Prop :=
  ∀ s t : State, s.Inv → step s = .next t → t.Inv

/-- Every micro-step keeps the invariant. -/
def Obligations.MicroStepKeepsInvariant : Prop :=
  ∀ s t : State, s.Inv → microStep s = .next t → t.Inv

/-- Rules R209 and R24 in every state of the invariant: a data micro-step drives the bit of `sh` that `cnt` points at, and the counter points at
one. -/
def Obligations.TxDataDrivesCountedBit : Prop :=
  ∀ s : State, s.Inv → s.phase = .txData →
    1 ≤ s.cnt.toNat ∧ (transition s).di = Level.ofBool (s.sh.getLsbD (s.cnt.toNat - 1)) ∧
    (transition s).trace = s.trace ++ [.pinWrite .di (Level.ofBool (s.sh.getLsbD (s.cnt.toNat - 1)))] ∧
    (transition s).phase = .txDly1

/-! ## With the reference responder (an assumption about the chip, rule R66) -/

/-- Rule R70 through the engine: WRITE to a responder whose latch is set stores the truncated value in the unit of the masked address modulo the
capacity, every other unit reads as before, and the operation completes with `OK`. -/
def Obligations.WriteStoresOneUnit : Prop :=
  ∀ (s : State) (c : Chip) (a d : Nat), s.opened = true → s.profileLegal → s.writeEnabled = true →
    s.pollLimit = none → s.chipReady c → c.ewLatch = true →
    ∃ (t : State) (c' : Chip), exec (.write a d) s = .next t ∧ t.status = .ok ∧ t.phase = .idle ∧
      t.chipReady c' ∧ c'.ewLatch = true ∧
      ∀ u, c'.mem.read u =
        if u = a % 2 ^ s.addrWidth % c.cap then BitVec.ofNat 16 (d % 2 ^ s.width) else c.mem.read u

/-- ERASE in the same way: the unit becomes all ones (the responder's erased value, general knowledge G4). -/
def Obligations.EraseClearsOneUnit : Prop :=
  ∀ (s : State) (c : Chip) (a d : Nat), s.opened = true → s.profileLegal → s.writeEnabled = true →
    s.pollLimit = none → s.chipReady c → c.ewLatch = true →
    ∃ (t : State) (c' : Chip), exec (.erase a d) s = .next t ∧ t.status = .ok ∧ t.phase = .idle ∧
      t.chipReady c' ∧ c'.ewLatch = true ∧
      ∀ u, c'.mem.read u =
        if u = a % 2 ^ s.addrWidth % c.cap then BitVec.ofNat 16 (2 ^ s.width - 1) else c.mem.read u

/-- ERASEALL and WRITEALL reach every unit (all ones is the responder's, general knowledge G4, log entry 11). -/
def Obligations.AllUnitOperationsFill : Prop :=
  ∀ (s : State) (c : Chip) (a d : Nat), s.opened = true → s.profileLegal → s.writeEnabled = true →
    s.pollLimit = none → s.chipReady c → c.ewLatch = true →
    (∃ (t : State) (c' : Chip), exec (.eraseAll a d) s = .next t ∧ t.status = .ok ∧ t.phase = .idle ∧
      t.chipReady c' ∧ c'.ewLatch = true ∧ ∀ u, c'.mem.read u = BitVec.ofNat 16 (2 ^ s.width - 1)) ∧
    (∃ (t : State) (c' : Chip), exec (.writeAll a d) s = .next t ∧ t.status = .ok ∧ t.phase = .idle ∧
      t.chipReady c' ∧ c'.ewLatch = true ∧ ∀ u, c'.mem.read u = BitVec.ofNat 16 (d % 2 ^ s.width))

/-- READ returns the unit of the masked address modulo the capacity and changes no unit; ENABLE and DISABLE set and clear the latch with the flag and
change no unit. -/
def Obligations.ReadEnableDisableKeepArray : Prop :=
  ∀ (s : State) (c : Chip) (a d : Nat), s.opened = true → s.profileLegal → s.chipReady c →
    (∃ (t : State) (c' : Chip), exec (.read a d) s = .next t ∧ t.status = .ok ∧
      t.result = c.mem.read (a % 2 ^ s.addrWidth % c.cap) ∧
      t.chipReady c' ∧ c'.ewLatch = c.ewLatch ∧ c'.mem = c.mem) ∧
    (∃ (t : State) (c' : Chip), exec (.enable a d) s = .next t ∧ t.writeEnabled = true ∧
      t.chipReady c' ∧ c'.ewLatch = true ∧ c'.mem = c.mem) ∧
    (∃ (t : State) (c' : Chip), exec (.disable a d) s = .next t ∧ t.writeEnabled = false ∧
      t.chipReady c' ∧ c'.ewLatch = false ∧ c'.mem = c.mem)

/-- The round trip of rules R58 and R72 (1): after ENABLE, a WRITE followed by a READ of the same address returns the value written, truncated to the
unit's width, for every profile, address, value, array and busy time. -/
def Obligations.WriteThenReadReturnsValue : Prop :=
  ∀ (s : State) (c : Chip) (a v x y z : Nat), s.opened = true → s.profileLegal → s.pollLimit = none →
    s.chipReady c →
    ∃ t u w : State, exec (.enable x y) s = .next t ∧ exec (.write a v) t = .next u ∧
      exec (.read a z) u = .next w ∧ u.status = .ok ∧ w.status = .ok ∧
      w.result = BitVec.ofNat 16 (v % 2 ^ s.width)

/-- Rule R283 (b): the mirror can be wrong. There is a state in which the engine believes writing is enabled, the chip's latch is off, and a WRITE reports
`OK` with the array unchanged. -/
def Obligations.MirrorCanDisagree : Prop :=
  ∃ (s t : State) (c c' : Chip), s.Inv ∧ s.chipReady c ∧ s.writeEnabled = true ∧ c.ewLatch = false ∧
    exec (.write 5 0xA5) s = .next t ∧ t.status = .ok ∧ t.chipReady c' ∧ c'.mem = c.mem ∧
    c.mem.read 5 ≠ 0xA5

/-- Rule R67's start of the responder, and that it is the chip the caller said: after a successful OPEN with resting pins, the responder assumed from there
on is ready, has the engine's capacity, address width and unit width, its latch off as `writeEnabled` is, its pin copies at the
pins' levels, mode `Off`, no bits, nothing pending, and the array it was given; assuming it changes no register. -/
def Obligations.ResponderStartsAsOpened : Prop :=
  ∀ (s : State) (m : Model) (o : Organization) (mem : Memory) (b : Nat) (ds : List Nat),
    s.opened = false → s.pinLevels = PinLevels.allLow → (Chip.initial m o mem b ds).wf →
    ∃ (t : State) (c : Chip), exec (.openDev (modelRaw m) o) s = .next t ∧
      assumeResponder mem b ds t = { t with env := { t.env with chip := some c } } ∧
      (assumeResponder mem b ds t).chipReady c ∧
      c.cap = t.capacityUnits.toNat ∧ c.addrBits = t.addressBits.toNat ∧ c.width = t.width ∧
      c.ewLatch = false ∧ t.writeEnabled = false ∧ c.mode = .off ∧ c.bits = [] ∧ c.pending = false ∧
      c.csL = t.cs ∧ c.skL = t.sk ∧ c.diL = t.di ∧ c.mem = mem

/-- Rules R240 and R32: the seven status codes, and `status` as the 3-bit port shows it: in every state the code, never 7. -/
def Obligations.StatusCodesOnThePort : Prop :=
  Status.ok.code = 0 ∧ Status.writeProtected.code = 1 ∧ Status.cfgError.code = 2 ∧ Status.notOpen.code = 3 ∧
  Status.alreadyOpen.code = 4 ∧ Status.badOp.code = 5 ∧ Status.pollTimeout.code = 6 ∧
  ∀ s : State, s.statusPort.toNat = s.status.code ∧ s.statusPort ≠ 7
end

