-- ==== Sys2Proof/Laws/Memory.lean ====
section
/-! SUPPORT. The laws of the chip's array: reading after writing, and the canonical form kept by every operation. -/

namespace Sys2Proof.Machine

open Sys2Proof

/-- Cells in canonical form over a default value. -/
abbrev cellsWf (dflt : BitVec 16) (cells : List (Nat × BitVec 16)) : Prop :=
  cells.Pairwise (fun x y => x.1 < y.1) ∧ ∀ c ∈ cells, c.2 ≠ dflt

theorem cellsRead_of_forall_lt {dflt : BitVec 16} {a : Nat} {cells : List (Nat × BitVec 16)}
    (h : ∀ c ∈ cells, a < c.1) : cellsRead dflt a cells = dflt := by
  induction cells with
  | nil => rfl
  | cons c rest ih =>
    have hc : c.1 ≠ a := by
      have := h c (List.mem_cons_self ..)
      omega
    simp only [cellsRead, hc, if_false]
    exact ih fun d hd => h d (List.mem_cons_of_mem _ hd)

theorem cellsRead_consCell {dflt : BitVec 16} {a b : Nat} {v : BitVec 16} {rest : List (Nat × BitVec 16)}
    (h : ∀ c ∈ rest, a < c.1) :
    cellsRead dflt b (consCell dflt a v rest) = if b = a then v else cellsRead dflt b rest := by
  unfold consCell
  by_cases hv : v = dflt
  · by_cases hb : b = a
    · subst hb
      simp [hv, cellsRead_of_forall_lt h]
    · simp [hv, hb]
  · by_cases hb : a = b
    · simp [hv, hb, cellsRead]
    · simp [hv, hb, Ne.symm hb, cellsRead]

theorem cellsRead_cellsWrite {dflt : BitVec 16} {a b : Nat} {v : BitVec 16} {cells : List (Nat × BitVec 16)}
    (h : cells.Pairwise (fun x y => x.1 < y.1)) :
    cellsRead dflt b (cellsWrite dflt a v cells) = if b = a then v else cellsRead dflt b cells := by
  induction cells with
  | nil => exact cellsRead_consCell (by simp)
  | cons c rest ih =>
    obtain ⟨hc, hrest⟩ := List.pairwise_cons.mp h
    unfold cellsWrite
    split
    · rename_i hlt
      refine cellsRead_consCell fun d hd => ?_
      rcases List.mem_cons.mp hd with rfl | hd
      · exact hlt
      · exact hlt.trans (hc d hd)
    · split
      · rename_i _ heq
        rw [cellsRead_consCell fun d hd => heq ▸ hc d hd]
        by_cases hb : b = a
        · simp [hb]
        · simp [hb, cellsRead, show c.1 ≠ b by omega]
      · rename_i _ hne
        simp only [cellsRead, ih hrest]
        by_cases hb : c.1 = b
        · simp [hb, show b ≠ a by omega]
        · simp [hb]

/-- Reading after writing (rule R70): the written unit holds the value, every other unit is as before. -/
theorem Memory.read_write {m : Memory} (h : m.wf) (a b : Nat) (v : BitVec 16) :
    (m.write a v).read b = if b = a then v else m.read b := cellsRead_cellsWrite h.1

@[simp] theorem Memory.read_fillAll (v : BitVec 16) (a : Nat) : (Memory.fillAll v).read a = v := rfl

@[simp] theorem Memory.write_fill (m : Memory) (a : Nat) (v : BitVec 16) : (m.write a v).fill = m.fill := rfl

theorem mem_consCell {dflt : BitVec 16} {a : Nat} {v : BitVec 16} {rest : List (Nat × BitVec 16)}
    {c : Nat × BitVec 16} (h : c ∈ consCell dflt a v rest) : c = (a, v) ∨ c ∈ rest := by
  unfold consCell at h
  split at h
  · exact .inr h
  · exact List.mem_cons.mp h

/-- A cell of a written list is the written one or was there before. -/
theorem mem_cellsWrite {dflt : BitVec 16} {a : Nat} {v : BitVec 16} {cells : List (Nat × BitVec 16)}
    {c : Nat × BitVec 16} (h : c ∈ cellsWrite dflt a v cells) : c = (a, v) ∨ c ∈ cells := by
  induction cells with
  | nil => exact mem_consCell h
  | cons d rest ih =>
    unfold cellsWrite at h
    split at h
    · exact mem_consCell h
    · split at h
      · exact (mem_consCell h).imp id (List.mem_cons_of_mem _)
      · rcases List.mem_cons.mp h with rfl | h
        · exact .inr (List.mem_cons_self ..)
        · exact (ih h).imp id (List.mem_cons_of_mem _)

theorem consCell_wf {dflt : BitVec 16} {a : Nat} {v : BitVec 16} {rest : List (Nat × BitVec 16)}
    (h : cellsWf dflt rest) (hlt : ∀ c ∈ rest, a < c.1) : cellsWf dflt (consCell dflt a v rest) := by
  unfold consCell
  split
  · exact h
  · rename_i hv
    refine ⟨List.pairwise_cons.mpr ⟨hlt, h.1⟩, fun c hc => ?_⟩
    rcases List.mem_cons.mp hc with rfl | hc
    · exact hv
    · exact h.2 c hc

theorem cellsWrite_wf {dflt : BitVec 16} {a : Nat} {v : BitVec 16} {cells : List (Nat × BitVec 16)}
    (h : cellsWf dflt cells) : cellsWf dflt (cellsWrite dflt a v cells) := by
  induction cells with
  | nil => exact consCell_wf h (by simp)
  | cons c rest ih =>
    obtain ⟨hp, hne⟩ := h
    obtain ⟨hc, hrest⟩ := List.pairwise_cons.mp hp
    have hr : cellsWf dflt rest := ⟨hrest, fun d hd => hne d (List.mem_cons_of_mem _ hd)⟩
    unfold cellsWrite
    split
    · rename_i hlt
      refine consCell_wf ⟨hp, hne⟩ fun d hd => ?_
      rcases List.mem_cons.mp hd with rfl | hd
      · exact hlt
      · exact hlt.trans (hc d hd)
    · split
      · rename_i _ heq
        exact consCell_wf hr fun d hd => heq ▸ hc d hd
      · rename_i hnlt hneq
        refine ⟨List.pairwise_cons.mpr ⟨fun d hd => ?_, (ih hr).1⟩, fun d hd => ?_⟩
        · rcases mem_cellsWrite hd with rfl | hd
          · show c.1 < a
            omega
          · exact hc d hd
        · rcases List.mem_cons.mp hd with rfl | hd
          · exact hne _ (List.mem_cons_self ..)
          · exact (ih hr).2 d hd

/-- A write keeps the canonical form. -/
theorem Memory.write_wf {m : Memory} (h : m.wf) (a : Nat) (v : BitVec 16) : (m.write a v).wf := cellsWrite_wf h

/-- Filling keeps the canonical form. -/
theorem Memory.fillAll_wf (v : BitVec 16) : (Memory.fillAll v).wf := ⟨List.Pairwise.nil, by simp [Memory.fillAll]⟩

end Sys2Proof.Machine
end

