-- ==== Sys2Proof/Laws/State.lean ====
section
/-! SUPPORT. One lemma per field for each update of State that the meanings are built from, each true by definition. -/

namespace Sys2Proof.Machine

open Sys2Proof

/-! ## `emit` -/

@[simp] theorem emit_organization (e : Event) (s : State) : (emit e s).organization = s.organization := rfl
@[simp] theorem emit_model (e : Event) (s : State) : (emit e s).model = s.model := rfl
@[simp] theorem emit_capacityUnits (e : Event) (s : State) : (emit e s).capacityUnits = s.capacityUnits := rfl
@[simp] theorem emit_addressBits (e : Event) (s : State) : (emit e s).addressBits = s.addressBits := rfl
@[simp] theorem emit_addressMask (e : Event) (s : State) : (emit e s).addressMask = s.addressMask := rfl
@[simp] theorem emit_writeEnabled (e : Event) (s : State) : (emit e s).writeEnabled = s.writeEnabled := rfl
@[simp] theorem emit_opened (e : Event) (s : State) : (emit e s).opened = s.opened := rfl
@[simp] theorem emit_cs (e : Event) (s : State) : (emit e s).cs = pinAfter .cs e s.cs := rfl
@[simp] theorem emit_sk (e : Event) (s : State) : (emit e s).sk = pinAfter .sk e s.sk := rfl
@[simp] theorem emit_di (e : Event) (s : State) : (emit e s).di = pinAfter .di e s.di := rfl
@[simp] theorem emit_padOe (e : Event) (s : State) : (emit e s).padOe = s.padOe := rfl
@[simp] theorem emit_phase (e : Event) (s : State) : (emit e s).phase = s.phase := rfl
@[simp] theorem emit_op (e : Event) (s : State) : (emit e s).op = s.op := rfl
@[simp] theorem emit_addr (e : Event) (s : State) : (emit e s).addr = s.addr := rfl
@[simp] theorem emit_data (e : Event) (s : State) : (emit e s).data = s.data := rfl
@[simp] theorem emit_seg (e : Event) (s : State) : (emit e s).seg = s.seg := rfl
@[simp] theorem emit_sh (e : Event) (s : State) : (emit e s).sh = s.sh := rfl
@[simp] theorem emit_cnt (e : Event) (s : State) : (emit e s).cnt = s.cnt := rfl
@[simp] theorem emit_rx (e : Event) (s : State) : (emit e s).rx = s.rx := rfl
@[simp] theorem emit_pollCount (e : Event) (s : State) : (emit e s).pollCount = s.pollCount := rfl
@[simp] theorem emit_status (e : Event) (s : State) : (emit e s).status = s.status := rfl
@[simp] theorem emit_result (e : Event) (s : State) : (emit e s).result = s.result := rfl
@[simp] theorem emit_done (e : Event) (s : State) : (emit e s).done = s.done := rfl
@[simp] theorem emit_pollLimit (e : Event) (s : State) : (emit e s).pollLimit = s.pollLimit := rfl
@[simp] theorem emit_trace (e : Event) (s : State) : (emit e s).trace = s.trace ++ [e] := rfl
@[simp] theorem emit_env (e : Event) (s : State) : (emit e s).env = s.env.observe e := rfl
@[simp] theorem emit_caller (e : Event) (s : State) : (emit e s).caller = s.caller := rfl

/-! ## `complete` -/

@[simp] theorem complete_organization (st : Status) (r : BitVec 16) (s : State) : (complete st r s).organization = s.organization := rfl
@[simp] theorem complete_model (st : Status) (r : BitVec 16) (s : State) : (complete st r s).model = s.model := rfl
@[simp] theorem complete_capacityUnits (st : Status) (r : BitVec 16) (s : State) : (complete st r s).capacityUnits = s.capacityUnits := rfl
@[simp] theorem complete_addressBits (st : Status) (r : BitVec 16) (s : State) : (complete st r s).addressBits = s.addressBits := rfl
@[simp] theorem complete_addressMask (st : Status) (r : BitVec 16) (s : State) : (complete st r s).addressMask = s.addressMask := rfl
@[simp] theorem complete_writeEnabled (st : Status) (r : BitVec 16) (s : State) : (complete st r s).writeEnabled = s.writeEnabled := rfl
@[simp] theorem complete_opened (st : Status) (r : BitVec 16) (s : State) : (complete st r s).opened = s.opened := rfl
@[simp] theorem complete_cs (st : Status) (r : BitVec 16) (s : State) : (complete st r s).cs = s.cs := rfl
@[simp] theorem complete_sk (st : Status) (r : BitVec 16) (s : State) : (complete st r s).sk = s.sk := rfl
@[simp] theorem complete_di (st : Status) (r : BitVec 16) (s : State) : (complete st r s).di = s.di := rfl
@[simp] theorem complete_padOe (st : Status) (r : BitVec 16) (s : State) : (complete st r s).padOe = s.padOe := rfl
@[simp] theorem complete_phase (st : Status) (r : BitVec 16) (s : State) : (complete st r s).phase = .idle := rfl
@[simp] theorem complete_op (st : Status) (r : BitVec 16) (s : State) : (complete st r s).op = s.op := rfl
@[simp] theorem complete_addr (st : Status) (r : BitVec 16) (s : State) : (complete st r s).addr = s.addr := rfl
@[simp] theorem complete_data (st : Status) (r : BitVec 16) (s : State) : (complete st r s).data = s.data := rfl
@[simp] theorem complete_seg (st : Status) (r : BitVec 16) (s : State) : (complete st r s).seg = s.seg := rfl
@[simp] theorem complete_sh (st : Status) (r : BitVec 16) (s : State) : (complete st r s).sh = s.sh := rfl
@[simp] theorem complete_cnt (st : Status) (r : BitVec 16) (s : State) : (complete st r s).cnt = s.cnt := rfl
@[simp] theorem complete_rx (st : Status) (r : BitVec 16) (s : State) : (complete st r s).rx = s.rx := rfl
@[simp] theorem complete_pollCount (st : Status) (r : BitVec 16) (s : State) : (complete st r s).pollCount = s.pollCount := rfl
@[simp] theorem complete_status (st : Status) (r : BitVec 16) (s : State) : (complete st r s).status = st := rfl
@[simp] theorem complete_result (st : Status) (r : BitVec 16) (s : State) : (complete st r s).result = r := rfl
@[simp] theorem complete_done (st : Status) (r : BitVec 16) (s : State) : (complete st r s).done = true := rfl
@[simp] theorem complete_pollLimit (st : Status) (r : BitVec 16) (s : State) : (complete st r s).pollLimit = s.pollLimit := rfl
@[simp] theorem complete_trace (st : Status) (r : BitVec 16) (s : State) : (complete st r s).trace = s.trace := rfl
@[simp] theorem complete_env (st : Status) (r : BitVec 16) (s : State) : (complete st r s).env = s.env := rfl
@[simp] theorem complete_caller (st : Status) (r : BitVec 16) (s : State) : (complete st r s).caller = s.caller := rfl

/-! ## `raise` -/

@[simp] theorem raise_organization (st : Status) (s : State) : (raise st s).organization = s.organization := rfl
@[simp] theorem raise_model (st : Status) (s : State) : (raise st s).model = s.model := rfl
@[simp] theorem raise_capacityUnits (st : Status) (s : State) : (raise st s).capacityUnits = s.capacityUnits := rfl
@[simp] theorem raise_addressBits (st : Status) (s : State) : (raise st s).addressBits = s.addressBits := rfl
@[simp] theorem raise_addressMask (st : Status) (s : State) : (raise st s).addressMask = s.addressMask := rfl
@[simp] theorem raise_writeEnabled (st : Status) (s : State) : (raise st s).writeEnabled = s.writeEnabled := rfl
@[simp] theorem raise_opened (st : Status) (s : State) : (raise st s).opened = s.opened := rfl
@[simp] theorem raise_cs (st : Status) (s : State) : (raise st s).cs = s.cs := rfl
@[simp] theorem raise_sk (st : Status) (s : State) : (raise st s).sk = s.sk := rfl
@[simp] theorem raise_di (st : Status) (s : State) : (raise st s).di = s.di := rfl
@[simp] theorem raise_padOe (st : Status) (s : State) : (raise st s).padOe = s.padOe := rfl
@[simp] theorem raise_phase (st : Status) (s : State) : (raise st s).phase = .idle := rfl
@[simp] theorem raise_op (st : Status) (s : State) : (raise st s).op = s.op := rfl
@[simp] theorem raise_addr (st : Status) (s : State) : (raise st s).addr = s.addr := rfl
@[simp] theorem raise_data (st : Status) (s : State) : (raise st s).data = s.data := rfl
@[simp] theorem raise_seg (st : Status) (s : State) : (raise st s).seg = s.seg := rfl
@[simp] theorem raise_sh (st : Status) (s : State) : (raise st s).sh = s.sh := rfl
@[simp] theorem raise_cnt (st : Status) (s : State) : (raise st s).cnt = s.cnt := rfl
@[simp] theorem raise_rx (st : Status) (s : State) : (raise st s).rx = s.rx := rfl
@[simp] theorem raise_pollCount (st : Status) (s : State) : (raise st s).pollCount = s.pollCount := rfl
@[simp] theorem raise_status (st : Status) (s : State) : (raise st s).status = st := rfl
@[simp] theorem raise_result (st : Status) (s : State) : (raise st s).result = 0 := rfl
@[simp] theorem raise_done (st : Status) (s : State) : (raise st s).done = true := rfl
@[simp] theorem raise_pollLimit (st : Status) (s : State) : (raise st s).pollLimit = s.pollLimit := rfl
@[simp] theorem raise_trace (st : Status) (s : State) : (raise st s).trace = s.trace := rfl
@[simp] theorem raise_env (st : Status) (s : State) : (raise st s).env = s.env := rfl
@[simp] theorem raise_caller (st : Status) (s : State) : (raise st s).caller = s.caller := rfl

/-! ## `latch` -/

@[simp] theorem latch_organization (o : Op) (a v : Nat) (s : State) : (latch o a v s).organization = s.organization := rfl
@[simp] theorem latch_model (o : Op) (a v : Nat) (s : State) : (latch o a v s).model = s.model := rfl
@[simp] theorem latch_capacityUnits (o : Op) (a v : Nat) (s : State) : (latch o a v s).capacityUnits = s.capacityUnits := rfl
@[simp] theorem latch_addressBits (o : Op) (a v : Nat) (s : State) : (latch o a v s).addressBits = s.addressBits := rfl
@[simp] theorem latch_addressMask (o : Op) (a v : Nat) (s : State) : (latch o a v s).addressMask = s.addressMask := rfl
@[simp] theorem latch_writeEnabled (o : Op) (a v : Nat) (s : State) : (latch o a v s).writeEnabled = s.writeEnabled := rfl
@[simp] theorem latch_opened (o : Op) (a v : Nat) (s : State) : (latch o a v s).opened = s.opened := rfl
@[simp] theorem latch_cs (o : Op) (a v : Nat) (s : State) : (latch o a v s).cs = s.cs := rfl
@[simp] theorem latch_sk (o : Op) (a v : Nat) (s : State) : (latch o a v s).sk = s.sk := rfl
@[simp] theorem latch_di (o : Op) (a v : Nat) (s : State) : (latch o a v s).di = s.di := rfl
@[simp] theorem latch_padOe (o : Op) (a v : Nat) (s : State) : (latch o a v s).padOe = s.padOe := rfl
@[simp] theorem latch_phase (o : Op) (a v : Nat) (s : State) : (latch o a v s).phase = s.phase := rfl
@[simp] theorem latch_op (o : Op) (a v : Nat) (s : State) : (latch o a v s).op = o := rfl
@[simp] theorem latch_addr (o : Op) (a v : Nat) (s : State) : (latch o a v s).addr = effectiveAddress a s := rfl
@[simp] theorem latch_data (o : Op) (a v : Nat) (s : State) : (latch o a v s).data = truncUnit v s := rfl
@[simp] theorem latch_seg (o : Op) (a v : Nat) (s : State) : (latch o a v s).seg = s.seg := rfl
@[simp] theorem latch_sh (o : Op) (a v : Nat) (s : State) : (latch o a v s).sh = s.sh := rfl
@[simp] theorem latch_cnt (o : Op) (a v : Nat) (s : State) : (latch o a v s).cnt = s.cnt := rfl
@[simp] theorem latch_rx (o : Op) (a v : Nat) (s : State) : (latch o a v s).rx = s.rx := rfl
@[simp] theorem latch_pollCount (o : Op) (a v : Nat) (s : State) : (latch o a v s).pollCount = s.pollCount := rfl
@[simp] theorem latch_status (o : Op) (a v : Nat) (s : State) : (latch o a v s).status = s.status := rfl
@[simp] theorem latch_result (o : Op) (a v : Nat) (s : State) : (latch o a v s).result = s.result := rfl
@[simp] theorem latch_done (o : Op) (a v : Nat) (s : State) : (latch o a v s).done = false := rfl
@[simp] theorem latch_pollLimit (o : Op) (a v : Nat) (s : State) : (latch o a v s).pollLimit = s.pollLimit := rfl
@[simp] theorem latch_trace (o : Op) (a v : Nat) (s : State) : (latch o a v s).trace = s.trace := rfl
@[simp] theorem latch_env (o : Op) (a v : Nat) (s : State) : (latch o a v s).env = s.env := rfl
@[simp] theorem latch_caller (o : Op) (a v : Nat) (s : State) : (latch o a v s).caller = s.caller := rfl

/-! ## `goPhase` -/

@[simp] theorem goPhase_organization (p : Phase) (s : State) : (goPhase p s).organization = s.organization := rfl
@[simp] theorem goPhase_model (p : Phase) (s : State) : (goPhase p s).model = s.model := rfl
@[simp] theorem goPhase_capacityUnits (p : Phase) (s : State) : (goPhase p s).capacityUnits = s.capacityUnits := rfl
@[simp] theorem goPhase_addressBits (p : Phase) (s : State) : (goPhase p s).addressBits = s.addressBits := rfl
@[simp] theorem goPhase_addressMask (p : Phase) (s : State) : (goPhase p s).addressMask = s.addressMask := rfl
@[simp] theorem goPhase_writeEnabled (p : Phase) (s : State) : (goPhase p s).writeEnabled = s.writeEnabled := rfl
@[simp] theorem goPhase_opened (p : Phase) (s : State) : (goPhase p s).opened = s.opened := rfl
@[simp] theorem goPhase_cs (p : Phase) (s : State) : (goPhase p s).cs = s.cs := rfl
@[simp] theorem goPhase_sk (p : Phase) (s : State) : (goPhase p s).sk = s.sk := rfl
@[simp] theorem goPhase_di (p : Phase) (s : State) : (goPhase p s).di = s.di := rfl
@[simp] theorem goPhase_padOe (p : Phase) (s : State) : (goPhase p s).padOe = s.padOe := rfl
@[simp] theorem goPhase_phase (p : Phase) (s : State) : (goPhase p s).phase = p := rfl
@[simp] theorem goPhase_op (p : Phase) (s : State) : (goPhase p s).op = s.op := rfl
@[simp] theorem goPhase_addr (p : Phase) (s : State) : (goPhase p s).addr = s.addr := rfl
@[simp] theorem goPhase_data (p : Phase) (s : State) : (goPhase p s).data = s.data := rfl
@[simp] theorem goPhase_seg (p : Phase) (s : State) : (goPhase p s).seg = s.seg := rfl
@[simp] theorem goPhase_sh (p : Phase) (s : State) : (goPhase p s).sh = s.sh := rfl
@[simp] theorem goPhase_cnt (p : Phase) (s : State) : (goPhase p s).cnt = s.cnt := rfl
@[simp] theorem goPhase_rx (p : Phase) (s : State) : (goPhase p s).rx = s.rx := rfl
@[simp] theorem goPhase_pollCount (p : Phase) (s : State) : (goPhase p s).pollCount = s.pollCount := rfl
@[simp] theorem goPhase_status (p : Phase) (s : State) : (goPhase p s).status = s.status := rfl
@[simp] theorem goPhase_result (p : Phase) (s : State) : (goPhase p s).result = s.result := rfl
@[simp] theorem goPhase_done (p : Phase) (s : State) : (goPhase p s).done = false := rfl
@[simp] theorem goPhase_pollLimit (p : Phase) (s : State) : (goPhase p s).pollLimit = s.pollLimit := rfl
@[simp] theorem goPhase_trace (p : Phase) (s : State) : (goPhase p s).trace = s.trace := rfl
@[simp] theorem goPhase_env (p : Phase) (s : State) : (goPhase p s).env = s.env := rfl
@[simp] theorem goPhase_caller (p : Phase) (s : State) : (goPhase p s).caller = s.caller := rfl

/-! ## `setWriteEnabled` -/

@[simp] theorem setWriteEnabled_organization (b : Bool) (s : State) : (setWriteEnabled b s).organization = s.organization := rfl
@[simp] theorem setWriteEnabled_model (b : Bool) (s : State) : (setWriteEnabled b s).model = s.model := rfl
@[simp] theorem setWriteEnabled_capacityUnits (b : Bool) (s : State) : (setWriteEnabled b s).capacityUnits = s.capacityUnits := rfl
@[simp] theorem setWriteEnabled_addressBits (b : Bool) (s : State) : (setWriteEnabled b s).addressBits = s.addressBits := rfl
@[simp] theorem setWriteEnabled_addressMask (b : Bool) (s : State) : (setWriteEnabled b s).addressMask = s.addressMask := rfl
@[simp] theorem setWriteEnabled_writeEnabled (b : Bool) (s : State) : (setWriteEnabled b s).writeEnabled = b := rfl
@[simp] theorem setWriteEnabled_opened (b : Bool) (s : State) : (setWriteEnabled b s).opened = s.opened := rfl
@[simp] theorem setWriteEnabled_cs (b : Bool) (s : State) : (setWriteEnabled b s).cs = s.cs := rfl
@[simp] theorem setWriteEnabled_sk (b : Bool) (s : State) : (setWriteEnabled b s).sk = s.sk := rfl
@[simp] theorem setWriteEnabled_di (b : Bool) (s : State) : (setWriteEnabled b s).di = s.di := rfl
@[simp] theorem setWriteEnabled_padOe (b : Bool) (s : State) : (setWriteEnabled b s).padOe = s.padOe := rfl
@[simp] theorem setWriteEnabled_phase (b : Bool) (s : State) : (setWriteEnabled b s).phase = s.phase := rfl
@[simp] theorem setWriteEnabled_op (b : Bool) (s : State) : (setWriteEnabled b s).op = s.op := rfl
@[simp] theorem setWriteEnabled_addr (b : Bool) (s : State) : (setWriteEnabled b s).addr = s.addr := rfl
@[simp] theorem setWriteEnabled_data (b : Bool) (s : State) : (setWriteEnabled b s).data = s.data := rfl
@[simp] theorem setWriteEnabled_seg (b : Bool) (s : State) : (setWriteEnabled b s).seg = s.seg := rfl
@[simp] theorem setWriteEnabled_sh (b : Bool) (s : State) : (setWriteEnabled b s).sh = s.sh := rfl
@[simp] theorem setWriteEnabled_cnt (b : Bool) (s : State) : (setWriteEnabled b s).cnt = s.cnt := rfl
@[simp] theorem setWriteEnabled_rx (b : Bool) (s : State) : (setWriteEnabled b s).rx = s.rx := rfl
@[simp] theorem setWriteEnabled_pollCount (b : Bool) (s : State) : (setWriteEnabled b s).pollCount = s.pollCount := rfl
@[simp] theorem setWriteEnabled_status (b : Bool) (s : State) : (setWriteEnabled b s).status = s.status := rfl
@[simp] theorem setWriteEnabled_result (b : Bool) (s : State) : (setWriteEnabled b s).result = s.result := rfl
@[simp] theorem setWriteEnabled_done (b : Bool) (s : State) : (setWriteEnabled b s).done = s.done := rfl
@[simp] theorem setWriteEnabled_pollLimit (b : Bool) (s : State) : (setWriteEnabled b s).pollLimit = s.pollLimit := rfl
@[simp] theorem setWriteEnabled_trace (b : Bool) (s : State) : (setWriteEnabled b s).trace = s.trace := rfl
@[simp] theorem setWriteEnabled_env (b : Bool) (s : State) : (setWriteEnabled b s).env = s.env := rfl
@[simp] theorem setWriteEnabled_caller (b : Bool) (s : State) : (setWriteEnabled b s).caller = s.caller := rfl

/-! ## `callerTaken` -/

@[simp] theorem callerTaken_organization (s : State) : (callerTaken s).organization = s.organization := rfl
@[simp] theorem callerTaken_model (s : State) : (callerTaken s).model = s.model := rfl
@[simp] theorem callerTaken_capacityUnits (s : State) : (callerTaken s).capacityUnits = s.capacityUnits := rfl
@[simp] theorem callerTaken_addressBits (s : State) : (callerTaken s).addressBits = s.addressBits := rfl
@[simp] theorem callerTaken_addressMask (s : State) : (callerTaken s).addressMask = s.addressMask := rfl
@[simp] theorem callerTaken_writeEnabled (s : State) : (callerTaken s).writeEnabled = s.writeEnabled := rfl
@[simp] theorem callerTaken_opened (s : State) : (callerTaken s).opened = s.opened := rfl
@[simp] theorem callerTaken_cs (s : State) : (callerTaken s).cs = s.cs := rfl
@[simp] theorem callerTaken_sk (s : State) : (callerTaken s).sk = s.sk := rfl
@[simp] theorem callerTaken_di (s : State) : (callerTaken s).di = s.di := rfl
@[simp] theorem callerTaken_padOe (s : State) : (callerTaken s).padOe = s.padOe := rfl
@[simp] theorem callerTaken_phase (s : State) : (callerTaken s).phase = s.phase := rfl
@[simp] theorem callerTaken_op (s : State) : (callerTaken s).op = s.op := rfl
@[simp] theorem callerTaken_addr (s : State) : (callerTaken s).addr = s.addr := rfl
@[simp] theorem callerTaken_data (s : State) : (callerTaken s).data = s.data := rfl
@[simp] theorem callerTaken_seg (s : State) : (callerTaken s).seg = s.seg := rfl
@[simp] theorem callerTaken_sh (s : State) : (callerTaken s).sh = s.sh := rfl
@[simp] theorem callerTaken_cnt (s : State) : (callerTaken s).cnt = s.cnt := rfl
@[simp] theorem callerTaken_rx (s : State) : (callerTaken s).rx = s.rx := rfl
@[simp] theorem callerTaken_pollCount (s : State) : (callerTaken s).pollCount = s.pollCount := rfl
@[simp] theorem callerTaken_status (s : State) : (callerTaken s).status = s.status := rfl
@[simp] theorem callerTaken_result (s : State) : (callerTaken s).result = s.result := rfl
@[simp] theorem callerTaken_done (s : State) : (callerTaken s).done = s.done := rfl
@[simp] theorem callerTaken_pollLimit (s : State) : (callerTaken s).pollLimit = s.pollLimit := rfl
@[simp] theorem callerTaken_trace (s : State) : (callerTaken s).trace = s.trace := rfl
@[simp] theorem callerTaken_env (s : State) : (callerTaken s).env = s.env := rfl
@[simp] theorem callerTaken_caller (s : State) : (callerTaken s).caller = s.caller.tail := rfl

/-! ## `assumeResponder` -/

@[simp] theorem assumeResponder_organization (mem : Memory) (b : Nat) (ds : List Nat) (s : State) : (assumeResponder mem b ds s).organization = s.organization := rfl
@[simp] theorem assumeResponder_model (mem : Memory) (b : Nat) (ds : List Nat) (s : State) : (assumeResponder mem b ds s).model = s.model := rfl
@[simp] theorem assumeResponder_capacityUnits (mem : Memory) (b : Nat) (ds : List Nat) (s : State) : (assumeResponder mem b ds s).capacityUnits = s.capacityUnits := rfl
@[simp] theorem assumeResponder_addressBits (mem : Memory) (b : Nat) (ds : List Nat) (s : State) : (assumeResponder mem b ds s).addressBits = s.addressBits := rfl
@[simp] theorem assumeResponder_addressMask (mem : Memory) (b : Nat) (ds : List Nat) (s : State) : (assumeResponder mem b ds s).addressMask = s.addressMask := rfl
@[simp] theorem assumeResponder_writeEnabled (mem : Memory) (b : Nat) (ds : List Nat) (s : State) : (assumeResponder mem b ds s).writeEnabled = s.writeEnabled := rfl
@[simp] theorem assumeResponder_opened (mem : Memory) (b : Nat) (ds : List Nat) (s : State) : (assumeResponder mem b ds s).opened = s.opened := rfl
@[simp] theorem assumeResponder_cs (mem : Memory) (b : Nat) (ds : List Nat) (s : State) : (assumeResponder mem b ds s).cs = s.cs := rfl
@[simp] theorem assumeResponder_sk (mem : Memory) (b : Nat) (ds : List Nat) (s : State) : (assumeResponder mem b ds s).sk = s.sk := rfl
@[simp] theorem assumeResponder_di (mem : Memory) (b : Nat) (ds : List Nat) (s : State) : (assumeResponder mem b ds s).di = s.di := rfl
@[simp] theorem assumeResponder_padOe (mem : Memory) (b : Nat) (ds : List Nat) (s : State) : (assumeResponder mem b ds s).padOe = s.padOe := rfl
@[simp] theorem assumeResponder_phase (mem : Memory) (b : Nat) (ds : List Nat) (s : State) : (assumeResponder mem b ds s).phase = s.phase := rfl
@[simp] theorem assumeResponder_op (mem : Memory) (b : Nat) (ds : List Nat) (s : State) : (assumeResponder mem b ds s).op = s.op := rfl
@[simp] theorem assumeResponder_addr (mem : Memory) (b : Nat) (ds : List Nat) (s : State) : (assumeResponder mem b ds s).addr = s.addr := rfl
@[simp] theorem assumeResponder_data (mem : Memory) (b : Nat) (ds : List Nat) (s : State) : (assumeResponder mem b ds s).data = s.data := rfl
@[simp] theorem assumeResponder_seg (mem : Memory) (b : Nat) (ds : List Nat) (s : State) : (assumeResponder mem b ds s).seg = s.seg := rfl
@[simp] theorem assumeResponder_sh (mem : Memory) (b : Nat) (ds : List Nat) (s : State) : (assumeResponder mem b ds s).sh = s.sh := rfl
@[simp] theorem assumeResponder_cnt (mem : Memory) (b : Nat) (ds : List Nat) (s : State) : (assumeResponder mem b ds s).cnt = s.cnt := rfl
@[simp] theorem assumeResponder_rx (mem : Memory) (b : Nat) (ds : List Nat) (s : State) : (assumeResponder mem b ds s).rx = s.rx := rfl
@[simp] theorem assumeResponder_pollCount (mem : Memory) (b : Nat) (ds : List Nat) (s : State) : (assumeResponder mem b ds s).pollCount = s.pollCount := rfl
@[simp] theorem assumeResponder_status (mem : Memory) (b : Nat) (ds : List Nat) (s : State) : (assumeResponder mem b ds s).status = s.status := rfl
@[simp] theorem assumeResponder_result (mem : Memory) (b : Nat) (ds : List Nat) (s : State) : (assumeResponder mem b ds s).result = s.result := rfl
@[simp] theorem assumeResponder_done (mem : Memory) (b : Nat) (ds : List Nat) (s : State) : (assumeResponder mem b ds s).done = s.done := rfl
@[simp] theorem assumeResponder_pollLimit (mem : Memory) (b : Nat) (ds : List Nat) (s : State) : (assumeResponder mem b ds s).pollLimit = s.pollLimit := rfl
@[simp] theorem assumeResponder_trace (mem : Memory) (b : Nat) (ds : List Nat) (s : State) : (assumeResponder mem b ds s).trace = s.trace := rfl
@[simp] theorem assumeResponder_env (mem : Memory) (b : Nat) (ds : List Nat) (s : State) : (assumeResponder mem b ds s).env = { s.env with chip := some (Chip.initial s.model s.organization mem b ds) } := rfl
@[simp] theorem assumeResponder_caller (mem : Memory) (b : Nat) (ds : List Nat) (s : State) : (assumeResponder mem b ds s).caller = s.caller := rfl

end Sys2Proof.Machine
end

