-- ==== Sys2Proof/Laws/Ops.lean ====
section
/-! SUPPORT. What the shared operations do, said once: emitting, sampling, the shift primitives and the envelope. -/

namespace Sys2Proof.Machine

open Sys2Proof

/-! ## Emitting -/

@[simp] theorem emitAll_nil (s : State) : emitAll [] s = s := rfl

@[simp] theorem emitAll_cons (e : Event) (es : List Event) (s : State) :
    emitAll (e :: es) s = emitAll es (emit e s) := rfl

theorem emitAll_append (es fs : List Event) (s : State) :
    emitAll (es ++ fs) s = emitAll fs (emitAll es s) := List.foldl_append ..

/-- The closed form of emitting a list: the trace grows by it, the pins follow it, the environment sees it, and no
other register changes. -/
theorem emitAll_eq (es : List Event) (s : State) :
    emitAll es s = { s with
      trace := s.trace ++ es
      cs := es.foldl (fun l e => pinAfter .cs e l) s.cs
      sk := es.foldl (fun l e => pinAfter .sk e l) s.sk
      di := es.foldl (fun l e => pinAfter .di e l) s.di
      env := es.foldl Env.observe s.env } := by
  induction es generalizing s with
  | nil => simp
  | cons e es ih => simp [ih]

/-- A write to the bit counter does not touch what is emitted after it. -/
theorem emitAll_setCnt (es : List Event) (n : BitVec 5) (s : State) :
    emitAll es { s with cnt := n } = { emitAll es s with cnt := n } := by
  simp only [emitAll_eq]

/-- The environment does not change its chip when an event is no pin write (rule R68). -/
@[simp] theorem observe_pinRead (e : Env) (l : Level) : e.observe (.pinRead l) = e := rfl

@[simp] theorem observe_delay (e : Env) (k : DelayKind) : e.observe (.delay k) = e := rfl

@[simp] theorem observe_cfgOut (e : Env) (p : OutPin) : e.observe (.cfgOut p) = e := rfl

@[simp] theorem observe_cfgInDO (e : Env) : e.observe .cfgInDO = e := rfl

/-- Without a responder, a pin write does nothing to the environment. -/
theorem observe_of_chip_none {e : Env} (h : e.chip = none) (ev : Event) : e.observe ev = e := by
  cases e
  cases ev <;> simp_all [Env.observe]

/-- Without a responder, no trace does anything to the environment. -/
theorem foldl_observe_of_chip_none {e : Env} (h : e.chip = none) (es : List Event) :
    es.foldl Env.observe e = e := by
  induction es with
  | nil => rfl
  | cons ev es ih => simp [observe_of_chip_none h, ih]

/-- The closed form of a sample: one `PinRead` of the environment's level, which the environment has then answered. -/
theorem sampleDO_eq (s : State) :
    sampleDO s = { s with trace := s.trace ++ [.pinRead (doLevel s)], env := s.env.answered } := rfl

/-! ## Transmitting -/

/-- The events of a bit string leave the clock `Low` if there is a bit, and DI at the last bit. -/
theorem sendTrace_cons (b : Level) (bits : List Level) : sendTrace (b :: bits) = sendBitEvents b ++ sendTrace bits := rfl

/-- The loop of `sendBits`: it emits the trace of the low `n` bits, most significant first, and counts down to 0. -/
theorem sendLoop_eq (value : BitVec 16) (n : Nat) (s : State) :
    sendLoop value n s =
      { emitAll (sendTrace (bitsMsb n value.toNat)) s with cnt := if n = 0 then s.cnt else 0 } := by
  induction n generalizing s with
  | zero => simp [sendLoop, bitsMsb, sendTrace]
  | succ n ih =>
    rw [sendLoop, ih, emitAll_setCnt]
    rw [bitsMsb, sendTrace_cons, emitAll_append]
    rcases Nat.eq_zero_or_pos n with rfl | hn
    · simp [bitLevel, BitVec.getLsbD]
    · simp [bitLevel, BitVec.getLsbD, Nat.pos_iff_ne_zero.mp hn]

/-- The closed form of `sendBits` (rules R130 and R131), for a length that is not 0. -/
theorem sendBits_eq (value : BitVec 16) (n : Nat) (hn : n ≠ 0) (s : State) :
    sendBits value n s =
      { emitAll (sendTrace (bitsMsb n value.toNat)) s with sh := value, cnt := 0 } := by
  simp [sendBits, hn, sendLoop_eq, emitAll_eq]

/-! ## Receiving -/

/-- One received bit: its five events around the sampled level, which joins `rx` at bit `n`. -/
theorem receiveBit_spec (n : Nat) (s : State) :
    ∃ l env', receiveBit n s = { s with
      trace := s.trace ++ receiveBitEvents l
      sk := .low
      rx := s.rx ||| BitVec.ofNat 16 (l.toNat <<< n)
      cnt := BitVec.ofNat 5 n
      env := env' } :=
  ⟨doLevel (delay .rx (writePin .sk .high s)), (receiveBit n s).env, by
    simp [receiveBit, sampleDO_eq, writePin, delay, receiveBitEvents, emit, pinAfter]⟩

/-- The loop of `receiveBits`: one sample a bit, the trace of rule R133, and nothing else but `sk`, `rx`, `cnt` and the
environment. -/
theorem receiveLoop_spec (n : Nat) (s : State) :
    ∃ ls rx' cnt' sk' env', ls.length = n ∧ receiveLoop n s = { s with
      trace := s.trace ++ receiveTrace ls
      sk := sk'
      rx := rx'
      cnt := cnt'
      env := env' } := by
  induction n generalizing s with
  | zero => exact ⟨[], s.rx, s.cnt, s.sk, s.env, rfl, by simp [receiveLoop, receiveTrace]⟩
  | succ n ih =>
    obtain ⟨l, env1, h1⟩ := receiveBit_spec n s
    obtain ⟨ls, rx2, cnt2, sk2, env2, hlen, h2⟩ := ih (receiveBit n s)
    refine ⟨l :: ls, rx2, cnt2, sk2, env2, by simp [hlen], ?_⟩
    rw [receiveLoop, h2, h1]
    simp [receiveTrace]

/-! ## Latching -/

/-- What `data` held before a bus operation is gone once the operation is accepted (rule R205), so nothing reads what an earlier command
left there. -/
@[simp] theorem latch_data_irrelevant (o : Op) (a v : Nat) (d : BitVec 16) (s : State) :
    latch o a v { s with data := d } = latch o a v s := rfl

/-! ## The gates and the poll -/

/-- `requireOpened`: the body when open, else `NOT_OPEN` and nothing else (rule R160). -/
theorem requireOpened_cases (body : State → State) (s : State) :
    (s.opened = true ∧ requireOpened body s = body s) ∨
    (s.opened = false ∧ requireOpened body s = raise .notOpen s) := by
  cases h : s.opened <;> simp [requireOpened, h]

/-- `requireWritable`: the body when open and write-enabled, else the first refusal of rule R248. -/
theorem requireWritable_cases (body : State → State) (s : State) :
    (s.opened = true ∧ s.writeEnabled = true ∧ requireWritable body s = body s) ∨
    (s.opened = true ∧ s.writeEnabled = false ∧ requireWritable body s = raise .writeProtected s) ∨
    (s.opened = false ∧ requireWritable body s = raise .notOpen s) := by
  cases h : s.opened <;> cases w : s.writeEnabled <;>
    simp [requireWritable, requireOpened, requireWriteEnabled, h, w]

/-- The poll's loop only samples: it adds to the trace, counts, and moves the environment on (rule R137 (2)). -/
theorem pollLoop_frame (fuel : Nat) (s : State) :
    ∃ k es env', (pollLoop fuel s).2 =
      { s with trace := s.trace ++ es, pollCount := s.pollCount + k, env := env' } := by
  induction fuel generalizing s with
  | zero => exact ⟨0, [], s.env, by simp [pollLoop]⟩
  | succ fuel ih =>
    have once : pollOnce s = { s with
        trace := s.trace ++ [.pinRead (doLevel s)]
        pollCount := s.pollCount + 1
        env := s.env.answered } := rfl
    unfold pollLoop
    split
    · exact ⟨1, _, _, once⟩
    · split
      · exact ⟨1, _, _, once⟩
      · obtain ⟨k, es, env', h⟩ := ih (delay .poll (pollOnce s))
        refine ⟨k + 1, [.pinRead (doLevel s), .delay .poll] ++ es, env', ?_⟩
        rw [h, once]
        simp [delay, emit, pinAfter, Nat.add_comm, Nat.add_left_comm]

/-- What `pollReady` can end in (rule R136): ready, timed out, or still waiting with the engine busy. -/
theorem pollReady_cases (s : State) :
    ∃ u, (∃ k es env', u = { pollStart s with
        trace := (pollStart s).trace ++ es, pollCount := k, env := env' }) ∧
      (pollReady s = complete .ok 0 (writePin .cs .low u) ∨
       pollReady s = complete .pollTimeout 0 (writePin .cs .low u) ∨
       pollReady s = goPhase .pollSample u) := by
  refine ⟨(pollLoop (pollFuel (pollStart s)) (pollStart s)).2, ?_, ?_⟩
  · obtain ⟨k, es, env', h⟩ := pollLoop_frame (pollFuel (pollStart s)) (pollStart s)
    exact ⟨_, es, env', h⟩
  · unfold pollReady
    rcases h : pollLoop (pollFuel (pollStart s)) (pollStart s) with ⟨e, u⟩
    cases e <;> simp [h]

end Sys2Proof.Machine
end

