-- ==== Sys2Proof/Laws/PerInstr.lean ====
section
/-! SUPPORT. Per-instruction families: facts about every command as syntax. `OpcodeField`: the table's field, bits 3..0 of the command's word, holds
its `cmd_op` code (rule R96), and the bits beside it are 0. -/

namespace Sys2Proof.Laws.OpcodeField

open Sys2Proof

/-- The opcode field of the command's word is its code, and the pad beside it is clear. -/
def Statement (i : Instr) : Prop := cmdField 0 4 (encode i) = i.code ∧ cmdField 4 12 (encode i) = 0

/-- The low 16 bits of a packed command are its code alone. -/
theorem pack_low {code : Nat} (h : code < 16) (m o a d : Nat) :
    cmdField 0 4 (packCommand code m o a d) = code ∧ cmdField 4 12 (packCommand code m o a d) = 0 := by
  simp only [cmdField, packCommand, BitVec.toNat_ofNat]
  omega

theorem code_lt (i : Instr) : i.code < 16 := by
  cases i <;> simp [Instr.code]

theorem openDev (m : Nat) (o : Organization) : Statement (.openDev m o) := pack_low (code_lt _) ..

theorem enable (a d : Nat) : Statement (.enable a d) := pack_low (code_lt _) ..

theorem disable (a d : Nat) : Statement (.disable a d) := pack_low (code_lt _) ..

theorem iswe : Statement .iswe := pack_low (code_lt _) ..

theorem eraseAll (a d : Nat) : Statement (.eraseAll a d) := pack_low (code_lt _) ..

theorem erase (a d : Nat) : Statement (.erase a d) := pack_low (code_lt _) ..

theorem writeAll (a d : Nat) : Statement (.writeAll a d) := pack_low (code_lt _) ..

theorem write (a d : Nat) : Statement (.write a d) := pack_low (code_lt _) ..

theorem read (a d : Nat) : Statement (.read a d) := pack_low (code_lt _) ..

theorem reserved9 : Statement .reserved9 := pack_low (code_lt _) ..

theorem reserved10 : Statement .reserved10 := pack_low (code_lt _) ..

theorem reserved11 : Statement .reserved11 := pack_low (code_lt _) ..

theorem reserved12 : Statement .reserved12 := pack_low (code_lt _) ..

theorem reserved13 : Statement .reserved13 := pack_low (code_lt _) ..

theorem reserved14 : Statement .reserved14 := pack_low (code_lt _) ..

theorem reserved15 : Statement .reserved15 := pack_low (code_lt _) ..

end Sys2Proof.Laws.OpcodeField
end

