-- ==== Sys2Proof/Laws/Responder.lean ====
section
/-! SUPPORT. The responder keeps its state meaningful: every reaction and every sample keeps `Chip.wf`. -/

namespace Sys2Proof.Machine

open Sys2Proof

theorem toNat_lt_two (l : Level) : l.toNat < 2 := by
  cases l <;> decide

theorem foldl_bits_lt (bits : List Level) (v : Nat) :
    bits.foldl (fun v l => 2 * v + l.toNat) v < (v + 1) * 2 ^ bits.length := by
  induction bits generalizing v with
  | nil => simp
  | cons l bits ih =>
    have hl := toNat_lt_two l
    calc bits.foldl (fun v l => 2 * v + l.toNat) (2 * v + l.toNat)
        < (2 * v + l.toNat + 1) * 2 ^ bits.length := ih _
      _ ≤ (2 * (v + 1)) * 2 ^ bits.length := Nat.mul_le_mul_right _ (by omega)
      _ = (v + 1) * 2 ^ (l :: bits).length := by rw [List.length_cons, pow_succ]; ring

/-- A bit string of `n` bits is below `2^n`. -/
theorem bitsValue_lt (bits : List Level) : bitsValue bits < 2 ^ bits.length := by
  simpa [bitsValue] using foldl_bits_lt bits 0

theorem bitsValue_take_lt (bits : List Level) (n : Nat) : bitsValue (bits.take n) < 2 ^ n :=
  (bitsValue_lt _).trans_le (Nat.pow_le_pow_right (by decide) (List.length_take_le ..))

theorem Chip.cap_pos (c : Chip) : 0 < c.cap := by
  unfold Chip.cap
  cases c.model <;> cases c.organization <;> decide

theorem Chip.width_le (c : Chip) : c.width ≤ 16 := by
  unfold Chip.width
  cases c.organization <;> decide

theorem ofNat_toNat_lt {n w : Nat} (h : n < 2 ^ w) (hw : w ≤ 16) : (BitVec.ofNat 16 n).toNat < 2 ^ w := by
  have : n < 2 ^ 16 := h.trans_le (Nat.pow_le_pow_right (by decide) hw)
  rwa [BitVec.toNat_ofNat, Nat.mod_eq_of_lt this]

theorem Chip.ones_lt (c : Chip) : c.ones.toNat < 2 ^ c.width :=
  ofNat_toNat_lt (Nat.sub_lt (Nat.two_pow_pos _) (by decide)) c.width_le

/-- What may be stored into a chip: an array in canonical form, within capacity and width. -/
abbrev Chip.fits (c : Chip) (m : Memory) : Prop :=
  m.wf ∧ m.fill.toNat < 2 ^ c.width ∧ ∀ x ∈ m.cells, x.1 < c.cap ∧ x.2.toNat < 2 ^ c.width

theorem Chip.fits_write {c : Chip} (h : c.wf) (f : Nat) {v : BitVec 16} (hv : v.toNat < 2 ^ c.width) :
    c.fits (c.mem.write (f % c.cap) v) := by
  refine ⟨Memory.write_wf h.1 _ _, h.2.1, fun x hx => ?_⟩
  rcases mem_cellsWrite hx with rfl | hx
  · exact ⟨Nat.mod_lt _ c.cap_pos, hv⟩
  · exact h.2.2 x hx

theorem Chip.fits_fillAll {c : Chip} {v : BitVec 16} (hv : v.toNat < 2 ^ c.width) :
    c.fits (Memory.fillAll v) :=
  ⟨Memory.fillAll_wf v, hv, by simp [Memory.fillAll]⟩

/-- A responder starts meaningful exactly when the array it is given fits it (rule R67). -/
theorem Chip.initial_wf (m : Model) (o : Organization) (mem : Memory) (b : Nat) (ds : List Nat) :
    (Chip.initial m o mem b ds).wf ↔ (Chip.initial m o mem b ds).fits mem := Iff.rfl

theorem Chip.store_wf {c : Chip} (h : c.wf) {m : Memory} (hm : c.fits m) : (c.store m).wf := by
  unfold Chip.store
  split
  · exact hm
  · exact h

/-- The payload the chip reads from a bit string fits its units. -/
theorem decodeBus_payload_lt {A W : Nat} {bits : List Level} {b : BusOp} (h : decodeBus A W bits = some b) :
    (∀ d, b = .writeAll d → d < 2 ^ W) ∧ (∀ f d, b = .write f d → d < 2 ^ W) := by
  have hd := bitsValue_take_lt (bits.drop (3 + A)) W
  simp only [decodeBus, controlOp] at h
  repeat' split at h
  all_goals simp only [Option.some.injEq, reduceCtorEq] at h
  all_goals (subst h; simp [hd])

theorem Chip.perform_wf {c : Chip} (h : c.wf) {b : BusOp} (hall : ∀ d, b = .writeAll d → d < 2 ^ c.width)
    (hone : ∀ f d, b = .write f d → d < 2 ^ c.width) : (c.perform b).wf := by
  cases b with
  | enable => exact h
  | disable => exact h
  | read => exact h
  | eraseAll => exact Chip.store_wf h (Chip.fits_fillAll c.ones_lt)
  | writeAll d => exact Chip.store_wf h (Chip.fits_fillAll (ofNat_toNat_lt (hall d rfl) c.width_le))
  | write f d => exact Chip.store_wf h (Chip.fits_write h f (ofNat_toNat_lt (hone f d rfl) c.width_le))
  | erase f => exact Chip.store_wf h (Chip.fits_write h f c.ones_lt)

theorem Chip.execute_wf {c : Chip} (h : c.wf) (bits : List Level) : (c.execute bits).wf := by
  unfold Chip.execute
  split
  · rename_i b hb
    exact Chip.perform_wf h (decodeBus_payload_lt hb).1 (decodeBus_payload_lt hb).2
  · exact h

theorem Chip.deselected_wf {c : Chip} (h : c.wf) : c.deselected.wf := by
  unfold Chip.deselected
  split
  · exact h
  · exact Chip.execute_wf (c := { c with csL := .low }) h c.bits
  · exact h

theorem Chip.clocked_wf {c : Chip} (h : c.wf) : c.clocked.wf := by
  unfold Chip.clocked
  split <;> exact h

/-- Every reaction to a pin write keeps the responder meaningful (rule R68). -/
theorem Chip.onPinWrite_wf {c : Chip} (h : c.wf) (p : OutPin) (l : Level) : (c.onPinWrite p l).wf := by
  cases p <;> cases l <;> simp only [Chip.onPinWrite]
  · split
    · exact Chip.deselected_wf h
    · exact h
  · split <;> exact h
  · exact h
  · split
    · exact Chip.clocked_wf h
    · exact h
  · exact h
  · exact h

/-- Every sample keeps the responder meaningful (rule R69). -/
theorem Chip.sampled_wf {c : Chip} (h : c.wf) : c.sampled.wf := by
  unfold Chip.sampled
  split <;> exact h

end Sys2Proof.Machine
end

