-- ==== Sys2Proof/Laws/Step.lean ====
section
/-! SUPPORT. What a step can do, said once. -/

namespace Sys2Proof.Machine

open Sys2Proof

/-- Every case of a step (rules R202, R203, R270): a reset, a command accepted in `Idle`, a word that is no command, or the sequencer's
transition. -/
theorem step_cases {s t : State} (h : step s = .next t) :
    (callerNow s = .assertReset ∧ t = applyReset (callerTaken s)) ∨
    (∃ w i, callerNow s = .present w ∧ s.phase = .idle ∧ decode w = .ok i ∧ exec i (callerTaken s) = .next t) ∨
    (t = transition (callerTaken s) ∧ (callerNow s = .quiet ∨ s.phase ≠ .idle)) := by
  unfold step cycle at h
  split at h
  · rename_i hc
    exact .inl ⟨hc, by simpa using h.symm⟩
  · rename_i hc
    exact .inr (.inr ⟨by simpa using h.symm, .inl hc⟩)
  · rename_i w hc
    split at h
    · rename_i hidle
      unfold acceptWord at h
      split at h
      · rename_i i hd
        exact .inr (.inl ⟨w, i, hc, hidle, hd, h⟩)
      · cases h
    · rename_i hbusy
      exact .inr (.inr ⟨by simpa using h.symm, .inr hbusy⟩)

/-- The engine itself never stops a command: every meaning answers a next state (rule R249: "In every case the engine is at
once ready for the next command"). -/
theorem exec_ne_fault (i : Instr) (s : State) (r : Fault) : exec i s ≠ .fault r := by
  cases i <;> simp [exec, execOpenDev, execEnable, execDisable, execIswe, execEraseAll, execErase, execWriteAll,
    execWrite, execRead, execReserved9, execReserved10, execReserved11, execReserved12, execReserved13,
    execReserved14, execReserved15]

end Sys2Proof.Machine
end

