-- ==== Sys2Proof/Machine/CallSyntax.lean ====
section
/-! DEFINITION. Operation syntax (rule R98): one call a line, and a program of calls as what the caller does. -/

namespace Sys2Proof.Machine

open Sys2Proof

/-- A model's name in a call; a code that is no model has none (rule R21). -/
def modelName (raw : Nat) : String :=
  match modelOfRaw raw with
  | some .c46 => "C46"
  | some .c56 => "C56"
  | some .c66 => "C66"
  | some .c76 => "C76"
  | some .c86 => "C86"
  | none => "C99"

/-- A command as a call: mnemonic in capitals, arguments in the document's order, numbers in decimal (rule R98). A reserved code
has no call ("`cmd_op = 12`, written `FOO`" in `spec/95_test_vectors.md` TV324). -/
def callText : Instr → String
  | .openDev m o => "OPEN " ++ modelName m ++ ", " ++ toString (unitWidth o)
  | .enable _ _ => "ENABLE"
  | .disable _ _ => "DISABLE"
  | .iswe => "ISWE"
  | .eraseAll _ _ => "ERASEALL"
  | .erase a _ => "ERASE " ++ toString a
  | .writeAll _ d => "WRITEALL " ++ toString d
  | .write a d => "WRITE " ++ toString a ++ ", " ++ toString d
  | .read a _ => "READ " ++ toString a
  | .reserved9 => "FOO"
  | .reserved10 => "FOO"
  | .reserved11 => "FOO"
  | .reserved12 => "FOO"
  | .reserved13 => "FOO"
  | .reserved14 => "FOO"
  | .reserved15 => "FOO"

/-- A program is a sequence of calls (rule R98); the caller presents one in each step. -/
def callerOf (program : List Instr) : List CallerAct := program.map (fun i => .present (encode i))

end Sys2Proof.Machine
end

