-- ==== Sys2Proof/Tests/Slice0.lean ====
section
/-! SUPPORT. Tests of one step or one definition each, the expected values from the rules and vectors of `spec/` (named at each), and
one witness for the hypotheses of every statement. -/

namespace Sys2Proof.Tests

open Sys2Proof Sys2Proof.Machine

/-! ## Helpers -/

/-- An engine opened for a chip, idle, with `levels` as the answers to come. -/
def lab (m : Model) (o : Organization) (we : Bool) (levels : List Level) : State :=
  setWriteEnabled we { loadProfile m o State.reset with
    opened := true, padOe := true, env := { levels := levels, draws := 0, chip := none } }

/-- A responder between two chip-select periods, every unit holding `fill`, with the busy times to come. -/
def chipOf (m : Model) (o : Organization) (latch : Bool) (fill : BitVec 16) (busy : List Nat) : Chip :=
  { Chip.initial m o (Memory.fillAll fill) 0 busy with ewLatch := latch }

/-- An engine opened for a chip, with the reference responder as environment. -/
def labChip (m : Model) (o : Organization) (we : Bool) (c : Chip) (levels : List Level) : State :=
  { lab m o we levels with env := { levels := levels, draws := 0, chip := some c } }

/-- The state after a command. -/
def after (i : Instr) (s : State) : State :=
  match exec i s with
  | .next t => t
  | .fault _ => s
  | .refused _ => s

/-- Levels from digits. -/
def lv (digits : List Nat) : List Level := digits.map (fun d => if d = 0 then .low else .high)

/-! ## Decoding the command port (rule R96, the packing of log entry 3) -/

theorem test_decode_openDev : decode 0x00000000000A0000 = .ok (.openDev 2 .sixteenBit) := rfl

theorem test_decode_enable : decode 0x0000000000000001 = .ok (.enable 0 0) := rfl

theorem test_decode_disable : decode 0x0000000000000002 = .ok (.disable 0 0) := rfl

theorem test_decode_iswe : decode 0x0000000000000003 = .ok (.iswe) := rfl

theorem test_decode_eraseAll : decode 0x0000000000000004 = .ok (.eraseAll 0 0) := rfl

theorem test_decode_erase : decode 0x0000007F00000005 = .ok (.erase 0x7F 0) := rfl

theorem test_decode_writeAll : decode 0x00A5000000000006 = .ok (.writeAll 0 0xA5) := rfl

theorem test_decode_write : decode 0xBEEF002100000007 = .ok (.write 0x21 0xBEEF) := rfl

theorem test_decode_read : decode 0x0000000500000008 = .ok (.read 5 0) := rfl

theorem test_decode_reserved9 : decode 0x9 = .ok (.reserved9) := rfl

theorem test_decode_reserved10 : decode 0xa = .ok (.reserved10) := rfl

theorem test_decode_reserved11 : decode 0xb = .ok (.reserved11) := rfl

theorem test_decode_reserved12 : decode 0xc = .ok (.reserved12) := rfl

theorem test_decode_reserved13 : decode 0xd = .ok (.reserved13) := rfl

theorem test_decode_reserved14 : decode 0xe = .ok (.reserved14) := rfl

theorem test_decode_reserved15 : decode 0xf = .ok (.reserved15) := rfl

/-- A bit beside `cmd_op` has no wire. -/
theorem test_decode_pad_low : decode 0x10 = .error .padBits := rfl

theorem test_decode_pad_high : decode 0x80000000 = .error .padBits := rfl

/-- The last argument bits that do have wires. -/
theorem test_decode_top_bits : decode 0x80008000000F0008 = .ok (.read 0x8000 0x8000) := rfl

theorem test_table_word_open : decodeTableWord 8 0x0 = some (.openDev 0 .eightBit) := rfl

theorem test_table_word_read : decodeTableWord 8 0x8 = some (.read 0 0) := rfl

/-! ## WellFormed refuses -/

theorem test_wf_refuses_model : (Instr.openDev 8 .eightBit).wf = false := by decide

theorem test_wf_refuses_address : (Instr.read 0x10000 0).wf = false := by decide

theorem test_wf_refuses_value : (Instr.write 0 0x10000).wf = false := by decide

theorem test_wf_refuses_erase : (Instr.erase 0x10000 0).wf = false := by decide

theorem test_wf_refuses_unused_ports :
    (Instr.enable 0x10000 0).wf = false ∧ (Instr.disable 0 0x10000).wf = false ∧
    (Instr.eraseAll 0x10000 0).wf = false ∧ (Instr.writeAll 0 0x10000).wf = false := by decide

theorem test_wf_refuses_field : (BusOp.read 64).wf 6 16 = false ∧ (BusOp.erase 64).wf 6 16 = false ∧
    (BusOp.write 64 0).wf 6 16 = false := by decide

theorem test_wf_refuses_payload : (BusOp.writeAll 256).wf 7 8 = false ∧ (BusOp.write 0 256).wf 7 8 = false := by
  decide

/-! ## The 42 bus rows of `spec/opcode_table.json` (rule R91), field and payload bits filled in by hand -/

theorem test_bus_rows_A6_encode :
    encodeBus 6 16 .enable = lv [1, 0, 0, 1, 1, 0, 0, 0, 0] ∧
    encodeBus 6 16 .disable = lv [1, 0, 0, 0, 0, 0, 0, 0, 0] ∧
    encodeBus 6 16 .eraseAll = lv [1, 0, 0, 1, 0, 0, 0, 0, 0] ∧
    encodeBus 6 16 (.writeAll 0xbeef) = lv [1, 0, 0, 0, 1, 0, 0, 0, 0, 1, 0, 1, 1, 1, 1, 1, 0, 1, 1, 1, 0, 1, 1, 1, 1] ∧
    encodeBus 6 16 (.write 0x2c 0xbeef) = lv [1, 0, 1, 1, 0, 1, 1, 0, 0, 1, 0, 1, 1, 1, 1, 1, 0, 1, 1, 1, 0, 1, 1, 1, 1] ∧
    encodeBus 6 16 (.read 0x2c) = lv [1, 1, 0, 1, 0, 1, 1, 0, 0] ∧
    encodeBus 6 16 (.erase 0x2c) = lv [1, 1, 1, 1, 0, 1, 1, 0, 0] := by decide

theorem test_bus_rows_A6_decode :
    decodeBus 6 16 (lv [1, 0, 0, 1, 1, 0, 0, 0, 0]) = some .enable ∧
    decodeBus 6 16 (lv [1, 0, 0, 0, 0, 0, 0, 0, 0]) = some .disable ∧
    decodeBus 6 16 (lv [1, 0, 0, 1, 0, 0, 0, 0, 0]) = some .eraseAll ∧
    decodeBus 6 16 (lv [1, 0, 0, 0, 1, 0, 0, 0, 0, 1, 0, 1, 1, 1, 1, 1, 0, 1, 1, 1, 0, 1, 1, 1, 1]) = some (.writeAll 0xbeef) ∧
    decodeBus 6 16 (lv [1, 0, 1, 1, 0, 1, 1, 0, 0, 1, 0, 1, 1, 1, 1, 1, 0, 1, 1, 1, 0, 1, 1, 1, 1]) = some (.write 0x2c 0xbeef) ∧
    decodeBus 6 16 (lv [1, 1, 0, 1, 0, 1, 1, 0, 0]) = some (.read 0x2c) ∧
    decodeBus 6 16 (lv [1, 1, 1, 1, 0, 1, 1, 0, 0]) = some (.erase 0x2c) := by decide

theorem test_bus_rows_A7_encode :
    encodeBus 7 8 .enable = lv [1, 0, 0, 1, 1, 0, 0, 0, 0, 0] ∧
    encodeBus 7 8 .disable = lv [1, 0, 0, 0, 0, 0, 0, 0, 0, 0] ∧
    encodeBus 7 8 .eraseAll = lv [1, 0, 0, 1, 0, 0, 0, 0, 0, 0] ∧
    encodeBus 7 8 (.writeAll 0xa5) = lv [1, 0, 0, 0, 1, 0, 0, 0, 0, 0, 1, 0, 1, 0, 0, 1, 0, 1] ∧
    encodeBus 7 8 (.write 0x59 0xa5) = lv [1, 0, 1, 1, 0, 1, 1, 0, 0, 1, 1, 0, 1, 0, 0, 1, 0, 1] ∧
    encodeBus 7 8 (.read 0x59) = lv [1, 1, 0, 1, 0, 1, 1, 0, 0, 1] ∧
    encodeBus 7 8 (.erase 0x59) = lv [1, 1, 1, 1, 0, 1, 1, 0, 0, 1] := by decide

theorem test_bus_rows_A7_decode :
    decodeBus 7 8 (lv [1, 0, 0, 1, 1, 0, 0, 0, 0, 0]) = some .enable ∧
    decodeBus 7 8 (lv [1, 0, 0, 0, 0, 0, 0, 0, 0, 0]) = some .disable ∧
    decodeBus 7 8 (lv [1, 0, 0, 1, 0, 0, 0, 0, 0, 0]) = some .eraseAll ∧
    decodeBus 7 8 (lv [1, 0, 0, 0, 1, 0, 0, 0, 0, 0, 1, 0, 1, 0, 0, 1, 0, 1]) = some (.writeAll 0xa5) ∧
    decodeBus 7 8 (lv [1, 0, 1, 1, 0, 1, 1, 0, 0, 1, 1, 0, 1, 0, 0, 1, 0, 1]) = some (.write 0x59 0xa5) ∧
    decodeBus 7 8 (lv [1, 1, 0, 1, 0, 1, 1, 0, 0, 1]) = some (.read 0x59) ∧
    decodeBus 7 8 (lv [1, 1, 1, 1, 0, 1, 1, 0, 0, 1]) = some (.erase 0x59) := by decide

theorem test_bus_rows_A8_encode :
    encodeBus 8 16 .enable = lv [1, 0, 0, 1, 1, 0, 0, 0, 0, 0, 0] ∧
    encodeBus 8 16 .disable = lv [1, 0, 0, 0, 0, 0, 0, 0, 0, 0, 0] ∧
    encodeBus 8 16 .eraseAll = lv [1, 0, 0, 1, 0, 0, 0, 0, 0, 0, 0] ∧
    encodeBus 8 16 (.writeAll 0xbeef) = lv [1, 0, 0, 0, 1, 0, 0, 0, 0, 0, 0, 1, 0, 1, 1, 1, 1, 1, 0, 1, 1, 1, 0, 1, 1, 1, 1] ∧
    encodeBus 8 16 (.write 0xb3 0xbeef) = lv [1, 0, 1, 1, 0, 1, 1, 0, 0, 1, 1, 1, 0, 1, 1, 1, 1, 1, 0, 1, 1, 1, 0, 1, 1, 1, 1] ∧
    encodeBus 8 16 (.read 0xb3) = lv [1, 1, 0, 1, 0, 1, 1, 0, 0, 1, 1] ∧
    encodeBus 8 16 (.erase 0xb3) = lv [1, 1, 1, 1, 0, 1, 1, 0, 0, 1, 1] := by decide

theorem test_bus_rows_A8_decode :
    decodeBus 8 16 (lv [1, 0, 0, 1, 1, 0, 0, 0, 0, 0, 0]) = some .enable ∧
    decodeBus 8 16 (lv [1, 0, 0, 0, 0, 0, 0, 0, 0, 0, 0]) = some .disable ∧
    decodeBus 8 16 (lv [1, 0, 0, 1, 0, 0, 0, 0, 0, 0, 0]) = some .eraseAll ∧
    decodeBus 8 16 (lv [1, 0, 0, 0, 1, 0, 0, 0, 0, 0, 0, 1, 0, 1, 1, 1, 1, 1, 0, 1, 1, 1, 0, 1, 1, 1, 1]) = some (.writeAll 0xbeef) ∧
    decodeBus 8 16 (lv [1, 0, 1, 1, 0, 1, 1, 0, 0, 1, 1, 1, 0, 1, 1, 1, 1, 1, 0, 1, 1, 1, 0, 1, 1, 1, 1]) = some (.write 0xb3 0xbeef) ∧
    decodeBus 8 16 (lv [1, 1, 0, 1, 0, 1, 1, 0, 0, 1, 1]) = some (.read 0xb3) ∧
    decodeBus 8 16 (lv [1, 1, 1, 1, 0, 1, 1, 0, 0, 1, 1]) = some (.erase 0xb3) := by decide

theorem test_bus_rows_A9_encode :
    encodeBus 9 8 .enable = lv [1, 0, 0, 1, 1, 0, 0, 0, 0, 0, 0, 0] ∧
    encodeBus 9 8 .disable = lv [1, 0, 0, 0, 0, 0, 0, 0, 0, 0, 0, 0] ∧
    encodeBus 9 8 .eraseAll = lv [1, 0, 0, 1, 0, 0, 0, 0, 0, 0, 0, 0] ∧
    encodeBus 9 8 (.writeAll 0xa5) = lv [1, 0, 0, 0, 1, 0, 0, 0, 0, 0, 0, 0, 1, 0, 1, 0, 0, 1, 0, 1] ∧
    encodeBus 9 8 (.write 0x166 0xa5) = lv [1, 0, 1, 1, 0, 1, 1, 0, 0, 1, 1, 0, 1, 0, 1, 0, 0, 1, 0, 1] ∧
    encodeBus 9 8 (.read 0x166) = lv [1, 1, 0, 1, 0, 1, 1, 0, 0, 1, 1, 0] ∧
    encodeBus 9 8 (.erase 0x166) = lv [1, 1, 1, 1, 0, 1, 1, 0, 0, 1, 1, 0] := by decide

theorem test_bus_rows_A9_decode :
    decodeBus 9 8 (lv [1, 0, 0, 1, 1, 0, 0, 0, 0, 0, 0, 0]) = some .enable ∧
    decodeBus 9 8 (lv [1, 0, 0, 0, 0, 0, 0, 0, 0, 0, 0, 0]) = some .disable ∧
    decodeBus 9 8 (lv [1, 0, 0, 1, 0, 0, 0, 0, 0, 0, 0, 0]) = some .eraseAll ∧
    decodeBus 9 8 (lv [1, 0, 0, 0, 1, 0, 0, 0, 0, 0, 0, 0, 1, 0, 1, 0, 0, 1, 0, 1]) = some (.writeAll 0xa5) ∧
    decodeBus 9 8 (lv [1, 0, 1, 1, 0, 1, 1, 0, 0, 1, 1, 0, 1, 0, 1, 0, 0, 1, 0, 1]) = some (.write 0x166 0xa5) ∧
    decodeBus 9 8 (lv [1, 1, 0, 1, 0, 1, 1, 0, 0, 1, 1, 0]) = some (.read 0x166) ∧
    decodeBus 9 8 (lv [1, 1, 1, 1, 0, 1, 1, 0, 0, 1, 1, 0]) = some (.erase 0x166) := by decide

theorem test_bus_rows_A10_encode :
    encodeBus 10 16 .enable = lv [1, 0, 0, 1, 1, 0, 0, 0, 0, 0, 0, 0, 0] ∧
    encodeBus 10 16 .disable = lv [1, 0, 0, 0, 0, 0, 0, 0, 0, 0, 0, 0, 0] ∧
    encodeBus 10 16 .eraseAll = lv [1, 0, 0, 1, 0, 0, 0, 0, 0, 0, 0, 0, 0] ∧
    encodeBus 10 16 (.writeAll 0xbeef) = lv [1, 0, 0, 0, 1, 0, 0, 0, 0, 0, 0, 0, 0, 1, 0, 1, 1, 1, 1, 1, 0, 1, 1, 1, 0, 1, 1, 1, 1] ∧
    encodeBus 10 16 (.write 0x2cd 0xbeef) = lv [1, 0, 1, 1, 0, 1, 1, 0, 0, 1, 1, 0, 1, 1, 0, 1, 1, 1, 1, 1, 0, 1, 1, 1, 0, 1, 1, 1, 1] ∧
    encodeBus 10 16 (.read 0x2cd) = lv [1, 1, 0, 1, 0, 1, 1, 0, 0, 1, 1, 0, 1] ∧
    encodeBus 10 16 (.erase 0x2cd) = lv [1, 1, 1, 1, 0, 1, 1, 0, 0, 1, 1, 0, 1] := by decide

theorem test_bus_rows_A10_decode :
    decodeBus 10 16 (lv [1, 0, 0, 1, 1, 0, 0, 0, 0, 0, 0, 0, 0]) = some .enable ∧
    decodeBus 10 16 (lv [1, 0, 0, 0, 0, 0, 0, 0, 0, 0, 0, 0, 0]) = some .disable ∧
    decodeBus 10 16 (lv [1, 0, 0, 1, 0, 0, 0, 0, 0, 0, 0, 0, 0]) = some .eraseAll ∧
    decodeBus 10 16 (lv [1, 0, 0, 0, 1, 0, 0, 0, 0, 0, 0, 0, 0, 1, 0, 1, 1, 1, 1, 1, 0, 1, 1, 1, 0, 1, 1, 1, 1]) = some (.writeAll 0xbeef) ∧
    decodeBus 10 16 (lv [1, 0, 1, 1, 0, 1, 1, 0, 0, 1, 1, 0, 1, 1, 0, 1, 1, 1, 1, 1, 0, 1, 1, 1, 0, 1, 1, 1, 1]) = some (.write 0x2cd 0xbeef) ∧
    decodeBus 10 16 (lv [1, 1, 0, 1, 0, 1, 1, 0, 0, 1, 1, 0, 1]) = some (.read 0x2cd) ∧
    decodeBus 10 16 (lv [1, 1, 1, 1, 0, 1, 1, 0, 0, 1, 1, 0, 1]) = some (.erase 0x2cd) := by decide

theorem test_bus_rows_A11_encode :
    encodeBus 11 8 .enable = lv [1, 0, 0, 1, 1, 0, 0, 0, 0, 0, 0, 0, 0, 0] ∧
    encodeBus 11 8 .disable = lv [1, 0, 0, 0, 0, 0, 0, 0, 0, 0, 0, 0, 0, 0] ∧
    encodeBus 11 8 .eraseAll = lv [1, 0, 0, 1, 0, 0, 0, 0, 0, 0, 0, 0, 0, 0] ∧
    encodeBus 11 8 (.writeAll 0xa5) = lv [1, 0, 0, 0, 1, 0, 0, 0, 0, 0, 0, 0, 0, 0, 1, 0, 1, 0, 0, 1, 0, 1] ∧
    encodeBus 11 8 (.write 0x59a 0xa5) = lv [1, 0, 1, 1, 0, 1, 1, 0, 0, 1, 1, 0, 1, 0, 1, 0, 1, 0, 0, 1, 0, 1] ∧
    encodeBus 11 8 (.read 0x59a) = lv [1, 1, 0, 1, 0, 1, 1, 0, 0, 1, 1, 0, 1, 0] ∧
    encodeBus 11 8 (.erase 0x59a) = lv [1, 1, 1, 1, 0, 1, 1, 0, 0, 1, 1, 0, 1, 0] := by decide

theorem test_bus_rows_A11_decode :
    decodeBus 11 8 (lv [1, 0, 0, 1, 1, 0, 0, 0, 0, 0, 0, 0, 0, 0]) = some .enable ∧
    decodeBus 11 8 (lv [1, 0, 0, 0, 0, 0, 0, 0, 0, 0, 0, 0, 0, 0]) = some .disable ∧
    decodeBus 11 8 (lv [1, 0, 0, 1, 0, 0, 0, 0, 0, 0, 0, 0, 0, 0]) = some .eraseAll ∧
    decodeBus 11 8 (lv [1, 0, 0, 0, 1, 0, 0, 0, 0, 0, 0, 0, 0, 0, 1, 0, 1, 0, 0, 1, 0, 1]) = some (.writeAll 0xa5) ∧
    decodeBus 11 8 (lv [1, 0, 1, 1, 0, 1, 1, 0, 0, 1, 1, 0, 1, 0, 1, 0, 1, 0, 0, 1, 0, 1]) = some (.write 0x59a 0xa5) ∧
    decodeBus 11 8 (lv [1, 1, 0, 1, 0, 1, 1, 0, 0, 1, 1, 0, 1, 0]) = some (.read 0x59a) ∧
    decodeBus 11 8 (lv [1, 1, 1, 1, 0, 1, 1, 0, 0, 1, 1, 0, 1, 0]) = some (.erase 0x59a) := by decide

/-! ## The resolver (`spec/95_test_vectors.md` TV300 E2 to E4) -/

theorem test_resolve_values : resolve .c46 .eightBit = ⟨128, 7, 0x7F⟩ ∧ resolve .c86 .sixteenBit = ⟨1024, 10, 0x3FF⟩ ∧
    resolve .c76 .eightBit = ⟨1024, 11, 0x7FF⟩ := by decide

/-! ## Commands (TV302 to TV309, TV320 to TV325) -/

/-- V15: after reset, `OPEN C66, 8` returns 512 and emits the four direction events. -/
theorem test_open_c66 :
    (after (.openDev 2 .eightBit) State.reset).result = 512 ∧
    (after (.openDev 2 .eightBit) State.reset).addressBits = 9 ∧
    (after (.openDev 2 .eightBit) State.reset).addressMask = 0x1FF ∧
    (after (.openDev 2 .eightBit) State.reset).trace = [.cfgOut .cs, .cfgOut .sk, .cfgOut .di, .cfgInDO] := by decide

/-- V14 and V16. -/
theorem test_open_refused :
    (after (.openDev 7 .eightBit) State.reset).status = .cfgError ∧
    (after (.openDev 0 .eightBit) (lab .c66 .eightBit false [])).status = .alreadyOpen := by decide

/-- T1 (TV304): ten SK pulses, bits `1 00 1100000`, 63 events, the flag set. -/
theorem test_enable_bits :
    diAtRise .low .low (after (.enable 0 0) (lab .c46 .eightBit false [])).trace = lv [1, 0, 0, 1, 1, 0, 0, 0, 0, 0] ∧
    (after (.enable 0 0) (lab .c46 .eightBit false [])).trace.length = 63 := by decide

theorem test_enable_flag : (after (.enable 0 0) (lab .c46 .eightBit false [])).writeEnabled = true ∧
    (after (.enable 0 0) State.reset).status = .notOpen := by decide

/-- V21: DISABLE runs though the flag is already 0; the start marker is its only `High` bit. -/
theorem test_disable_bits :
    diAtRise .low .low (after (.disable 0 0) (lab .c46 .sixteenBit false [])).trace = lv [1, 0, 0, 0, 0, 0, 0, 0, 0] := by
  decide

theorem test_disable_flag : (after (.disable 0 0) (lab .c46 .eightBit true [])).writeEnabled = false := by decide

theorem test_iswe : (after .iswe (lab .c46 .eightBit true [])).result = 1 ∧
    (after .iswe (lab .c46 .eightBit true [])).trace = [] ∧ (after .iswe State.reset).status = .notOpen := by decide

/-- T2 (TV305): `READ 5`, samples `10100101`, result 0xA5, 103 events, DI held `High`. -/
theorem test_read_c46 :
    (after (.read 5 0) (lab .c46 .eightBit false (lv [1, 0, 1, 0, 0, 1, 0, 1]))).result = 0xA5 ∧
    (after (.read 5 0) (lab .c46 .eightBit false (lv [1, 0, 1, 0, 0, 1, 0, 1]))).di = .high ∧
    (after (.read 5 0) (lab .c46 .eightBit false (lv [1, 0, 1, 0, 0, 1, 0, 1]))).trace.length = 103 := by decide +kernel

/-- V25: an address above the capacity of a C56 is sent as it is (field `110100000`). -/
theorem test_read_above_capacity :
    (diAtRise .low .low (after (.read 0x1A0 0) (lab .c56 .eightBit false (lv [1, 1, 1, 1, 1, 1, 1, 1]))).trace).take 12 =
      lv [1, 1, 0, 1, 1, 0, 1, 0, 0, 0, 0, 0] := by decide +kernel

/-- T3 (TV306): bits `1 01 0000101 10100101`, poll answers 0, 0, 1: 118 events, three samples. -/
theorem test_write_c46 :
    diAtRise .low .low (after (.write 5 0xA5) (lab .c46 .eightBit true (lv [0, 0, 1]))).trace =
      lv [1, 0, 1, 0, 0, 0, 0, 1, 0, 1, 1, 0, 1, 0, 0, 1, 0, 1] ∧
    (after (.write 5 0xA5) (lab .c46 .eightBit true (lv [0, 0, 1]))).trace.length = 118 ∧
    (after (.write 5 0xA5) (lab .c46 .eightBit true (lv [0, 0, 1]))).pollCount = 3 := by decide +kernel

/-- E6: 0x1FF written to an 8-bit unit is 0xFF there (the responder stores it). -/
theorem test_write_truncates :
    ((after (.write 6 0x1FF) (labChip .c46 .eightBit true (chipOf .c46 .eightBit true 0x3C [0]) [])).env.chip.map
      (fun c => c.mem)) = some { fill := 0x3C, cells := [(6, 0xFF)] } := by decide +kernel

/-- T4 (TV307): the address 0xFF is masked to 0x7F, ten one-bits, 66 events. -/
theorem test_erase_masks :
    diAtRise .low .low (after (.erase 0xFF 0) (lab .c46 .eightBit true (lv [1]))).trace =
      lv [1, 1, 1, 1, 1, 1, 1, 1, 1, 1] ∧
    (after (.erase 0xFF 0) (lab .c46 .eightBit true (lv [1]))).trace.length = 66 := by decide +kernel

/-- V34: with no limit and only `Low` answers the engine stays busy with chip-select `High`. -/
theorem test_erase_hangs :
    (after (.erase 1 0) (lab .c46 .eightBit true (lv [0, 0]))).phase = .pollSample ∧
    (after (.erase 1 0) (lab .c46 .eightBit true (lv [0, 0]))).cs = .high ∧
    (after (.erase 1 0) (lab .c46 .eightBit true (lv [0, 0]))).done = false := by decide

/-- T5 (TV308): `POLL_LIMIT = 3`, DO stuck `Low`: 70 events and `POLL_TIMEOUT`. -/
theorem test_eraseAll_times_out :
    (after (.eraseAll 0 0) { lab .c46 .eightBit true (lv [0, 0, 0]) with pollLimit := some 3 }).status = .pollTimeout ∧
    (after (.eraseAll 0 0) { lab .c46 .eightBit true (lv [0, 0, 0]) with pollLimit := some 3 }).trace.length = 70 := by
  decide

/-- TV302: `C46/16 ERASEALL` sends `1 00 100000`. -/
theorem test_eraseAll_bits :
    diAtRise .low .low (after (.eraseAll 0 0) (lab .c46 .sixteenBit true (lv [1]))).trace =
      lv [1, 0, 0, 1, 0, 0, 0, 0, 0] := by decide

/-- TV302: `C56/8 WRITEALL 0x1FF` sends `1 00 010000000 11111111`. -/
theorem test_writeAll_bits :
    diAtRise .low .low (after (.writeAll 0 0x1FF) (lab .c56 .eightBit true (lv [1]))).trace =
      lv [1, 0, 0, 0, 1, 0, 0, 0, 0, 0, 0, 0, 1, 1, 1, 1, 1, 1, 1, 1] := by decide +kernel

/-- V18. -/
theorem test_writeAll_protected :
    (after (.writeAll 0 1) (lab .c46 .eightBit false [])).status = .writeProtected ∧
    (after (.writeAll 0 1) (lab .c46 .eightBit false [])).trace = [] := by decide

/-- V13 and V17. -/
theorem test_reserved : (after .reserved12 State.reset).status = .badOp ∧
    (after .reserved9 (lab .c46 .eightBit true [])).status = .badOp := by decide

/-! ## Micro-steps (TV310: `ERASE 0x21` on (SixteenBit, C46)) -/

/-- Step 9: the frame is loaded after the start marker. -/
theorem test_micro_loads_frame :
    let s := { lab .c46 .sixteenBit true [] with phase := .txDly3, op := .erase, addr := 0x21, seg := .start, sh := 1, cnt := 1 }
    (transition s).phase = .txData ∧ (transition s).seg = .frame ∧ (transition s).sh = 0xE1 ∧ (transition s).cnt = 8 := by
  decide

/-- Step 58: chip-select falls, then the poll. -/
theorem test_micro_cs_low :
    let s := { lab .c46 .sixteenBit true [] with phase := .csLow, op := .erase, cs := .high, di := .high }
    (transition s).phase = .pollCsHigh ∧ (transition s).cs = .low ∧ (transition s).done = false := by decide

/-- Steps 60 and 62: a `Low` sample leads to the delay, a `High` one to the end. -/
theorem test_micro_poll :
    let s := { lab .c46 .sixteenBit true (lv [0]) with phase := .pollSample, op := .erase, cs := .high }
    let t := { s with env := { s.env with levels := lv [1] } }
    (transition s).phase = .pollDly ∧ (transition t).phase = .pollCsLow ∧ (transition t).pollCount = 1 := by decide

/-- V29: reset in mid-operation. -/
theorem test_reset_mid_operation :
    let s := { lab .c46 .sixteenBit true [] with phase := .txSkLow, cs := .high, sk := .high, caller := [.assertReset] }
    step s = .next { State.reset with env := s.env } := rfl

/-! ## Call syntax (rule R98) -/

theorem test_call_open : callText (.openDev 2 .eightBit) = "OPEN C66, 8" := by decide

theorem test_call_write : callText (.write 5 165) = "WRITE 5, 165" := by decide

/-! ## Witnesses: each statement's hypotheses hold together somewhere -/

theorem witness_DecodeEncodeCommand : (Instr.write 0xFFFF 0xFFFF).wf = true ∧ (Instr.openDev 7 .sixteenBit).wf = true := by
  decide

theorem witness_DecoderAcceptsExactlyPortWords : decode 0xFFFFFFFF000F000F = .ok .reserved15 := rfl

theorem witness_DecodeEncodeBus : 2 ≤ 6 ∧ (BusOp.write 63 0xFFFF).wf 6 16 = true := by decide

theorem witness_BusFrameLengths : 2 ≤ 2 := by decide

theorem witness_FrameValuesAreSums :
    (lab .c46 .sixteenBit false []).profileLegal ∧ (lab .c86 .eightBit false []).profileLegal ∧ 3 < 4 := by decide

theorem witness_SequencerFrameTable :
    ∀ o ∈ [Op.enable, .disable, .eraseAll, .writeAll, .write, .read, .erase],
      let s := { lab .c46 .sixteenBit false [] with op := o, addr := 63 }
      s.profileLegal ∧ s.addr.toNat < 2 ^ s.addrWidth ∧ s.op = o := by decide

theorem witness_OpenLoadsProfile : State.reset.opened = false := by decide

theorem witness_OpenRefusals_already :
    (lab .c46 .eightBit false []).phase = .idle ∧ (lab .c46 .eightBit false []).opened = true := by decide

theorem witness_OpenRefusals_config : State.reset.phase = .idle ∧ State.reset.opened = false ∧ 4 < 5 := by decide

theorem witness_OpenRefusals_only : ∃ t, exec (.openDev 5 .eightBit) State.reset = .next t ∧ t.done = true ∧ t.status = .cfgError :=
  ⟨after (.openDev 5 .eightBit) State.reset, rfl, by decide⟩

/-- The closed clause of the statements about ENABLE, DISABLE, ISWE and READ. -/
theorem witness_closed_engine : State.reset.opened = false ∧ State.reset.phase = .idle := by decide

/-- The open clause of the statements about ENABLE, DISABLE, ISWE and READ, at both ends of the profiles. -/
theorem witness_open_engine :
    (lab .c46 .sixteenBit false []).opened = true ∧ (lab .c46 .sixteenBit false []).profileLegal ∧
    (lab .c86 .eightBit true []).opened = true ∧ (lab .c86 .eightBit true []).profileLegal ∧
    (lab .c86 .eightBit true []).phase = .idle := by decide

theorem witness_IsweReportsFlag_after_open : ∃ t, State.reset.opened = false ∧ exec (.openDev (modelRaw .c86) .sixteenBit) State.reset = .next t :=
  ⟨after (.openDev 4 .sixteenBit) State.reset, rfl, rfl⟩

theorem witness_ReadSamplesOneUnit_free :
    let s := lab .c46 .eightBit false (lv [1, 0, 1, 0, 0, 1, 0, 1])
    s.env.chip = none ∧ s.width ≤ s.env.levels.length := by decide

theorem witness_ReservedCodesAreBadOp : State.reset.phase = .idle ∧
    Instr.reserved15 ∈ [Instr.reserved9, .reserved10, .reserved11, .reserved12, .reserved13, .reserved14, .reserved15] := by
  decide

/-- The hypotheses of the four completion statements, with no limit and with the `High` at the very limit. -/
theorem witness_write_class_completes :
    let s := lab .c66 .sixteenBit true (lv [0, 0, 1])
    s.opened = true ∧ s.profileLegal ∧ s.writeEnabled = true ∧ s.env.chip = none ∧
    s.env.levels = List.replicate 2 .low ++ .high :: [] ∧
    (∀ n, s.pollLimit = some n → 2 < n) ∧ (∀ n, some 3 = some n → 2 < n) := by
  refine ⟨by decide, by decide, by decide, by decide, by decide, fun n h => ?_, fun n h => ?_⟩
  · exact absurd h (by simp [lab, loadProfile, setWriteEnabled, State.reset])
  · cases h
    decide

theorem witness_RefusedWritesDoNothing_protected :
    let s := lab .c46 .eightBit false []
    s.phase = .idle ∧ s.opened = true ∧ s.writeEnabled = false ∧
    Instr.write 1 1 ∈ [Instr.eraseAll 1 1, .erase 1 1, .writeAll 1 1, .write 1 1] := by decide

theorem witness_RefusedWritesDoNothing_only :
    ∃ t, exec (.write 1 1) (lab .c46 .eightBit false []) = .next t ∧ t.done = true ∧ t.status = .writeProtected :=
  ⟨after (.write 1 1) (lab .c46 .eightBit false []), rfl, by decide⟩

theorem witness_PollTimesOutAtLimit :
    let s := { lab .c46 .eightBit true (lv [0, 1]) with pollLimit := some 1 }
    Instr.erase 1 0 ∈ [Instr.eraseAll 1 0, .erase 1 0, .writeAll 1 0, .write 1 0] ∧ busOpOf s (.erase 1 0) = some (.erase 1) ∧
    s.opened = true ∧ s.profileLegal ∧ s.writeEnabled = true ∧ s.env.chip = none ∧ s.pollLimit = some 1 ∧ 0 < 1 ∧
    s.env.levels = List.replicate 1 .low ++ [.high] := by decide

theorem witness_PollWithoutReadyStaysBusy :
    let s := lab .c46 .eightBit true (lv [0, 0])
    Instr.write 1 2 ∈ [Instr.eraseAll 1 2, .erase 1 2, .writeAll 1 2, .write 1 2] ∧
    busOpOf s (.write 1 2) = some (.write 1 2) ∧
    s.opened = true ∧ s.profileLegal ∧ s.writeEnabled = true ∧ s.env.chip = none ∧ s.pollLimit = none ∧
    s.env.levels = List.replicate 2 .low := by decide

theorem witness_PollHangsWhileLow :
    let s := { lab .c46 .eightBit true (lv [0, 0, 1]) with phase := .pollSample }
    s.phase = .pollSample ∧ s.pollLimit = none ∧ s.env.chip = none ∧
    s.env.levels = List.replicate 2 .low ++ [.high] ∧ s.done = false := by decide

theorem witness_PollReadyOutcomes_ready :
    let s := lab .c46 .eightBit true (lv [1])
    s.env.chip = none ∧ s.env.levels = List.replicate 0 .low ++ .high :: [] ∧ s.pollLimit = none := by decide

theorem witness_PollReadyOutcomes_limit :
    let s := { lab .c46 .eightBit true (lv [0]) with pollLimit := some 1 }
    s.env.chip = none ∧ s.env.levels = List.replicate (0 + 1) .low ++ [] ∧ s.pollLimit = some (0 + 1) := by decide

theorem witness_PollReadyOutcomes_waiting :
    let s := lab .c46 .eightBit true (lv [0, 0])
    s.env.chip = none ∧ s.env.levels = List.replicate 2 .low ∧ s.pollLimit = none := by decide

theorem witness_ReceiveBitsValue : 16 ≤ 16 := by decide

theorem witness_SendBitsIgnoresHighBits : 0 ≤ 16 ∧ State.reset.sk = .low := by decide

theorem witness_ShiftRegisterFormsAgree : 16 ≤ 16 ∧ (lv [1, 0, 1]).length ≤ 16 := by decide

theorem witness_WriteEnabledChangesOnlyByRule :
    ∃ t, exec (.enable 0 0) (lab .c46 .eightBit false []) = .next t ∧ t.status = .ok :=
  ⟨after (.enable 0 0) (lab .c46 .eightBit false []), rfl, by decide⟩

theorem witness_FlagChangesWithLastChipSelectFall :
    let s := { lab .c46 .eightBit false [] with phase := .csLow, op := .enable, cs := .high }
    (transition s).writeEnabled ≠ s.writeEnabled := by decide

theorem witness_ProfileImmutableOnceOpen :
    let s := lab .c46 .eightBit true []
    s.opened = true ∧ callerNow s ≠ .assertReset ∧ step s = .next { s with done := false } := ⟨rfl, by decide, rfl⟩

theorem witness_OnlyMaskedOperandsMatter : (lab .c76 .eightBit true []).profileLegal := by decide

theorem witness_ModelAndCapacityAreInvisible :
    ∃ t, (Instr.read 1 0).code ≠ 0 ∧ exec (.read 1 0) (lab .c56 .eightBit false (lv [1, 1, 1, 1, 0, 0, 0, 0])) = .next t :=
  ⟨after (.read 1 0) (lab .c56 .eightBit false (lv [1, 1, 1, 1, 0, 0, 0, 0])), by decide, rfl⟩

theorem witness_UnusedPortsAreIgnored :
    ∃ t u, exec (.enable 1 2) (lab .c46 .eightBit false []) = .next t ∧
      exec (.enable 3 4) (lab .c46 .eightBit false []) = .next u :=
  ⟨after (.enable 1 2) (lab .c46 .eightBit false []), after (.enable 3 4) (lab .c46 .eightBit false []), rfl, rfl⟩

theorem witness_RefusalPriority :
    refusalOf (lab .c46 .eightBit false []) (.write 1 1) = some .writeProtected ∧
    refusalOf State.reset .reserved9 = some .badOp ∧ refusalOf State.reset (.read 0 0) = some .notOpen ∧
    refusalOf State.reset (.openDev 5 .eightBit) = some .cfgError ∧
    refusalOf (lab .c46 .eightBit false []) (.openDev 5 .eightBit) = some .alreadyOpen ∧
    refusalOf State.reset (.openDev 4 .eightBit) = none := by decide

theorem witness_PermissionTransitions :
    ∃ t, exec (.openDev 0 .eightBit) State.reset = .next t ∧ t.permission ≠ State.reset.permission :=
  ⟨after (.openDev 0 .eightBit) State.reset, rfl, by decide⟩

theorem witness_DiBitsAreTheBusEncoding :
    let s := lab .c46 .eightBit true (lv [1])
    s.cs = .low ∧ s.sk = .low ∧ s.opened = true ∧ s.profileLegal ∧ (busGated (.erase 1) = true → s.writeEnabled = true) ∧
    busOpOf s (.erase 1 0) = some (.erase 1) ∧ exec (.erase 1 0) s = .next (after (.erase 1 0) s) :=
  ⟨rfl, rfl, rfl, by decide, by decide, by decide, rfl⟩

theorem witness_DelayAndPulseBudget :
    let s := lab .c46 .eightBit true (lv [0, 1])
    s.opened = true ∧ s.profileLegal ∧ (busGated (.erase 1) = true → s.writeEnabled = true) ∧
    busOpOf s (.erase 1 0) = some (.erase 1) ∧ exec (.erase 1 0) s = .next (after (.erase 1 0) s) ∧
    (after (.erase 1 0) s).phase = .idle := ⟨rfl, by decide, by decide, by decide, rfl, by decide⟩

theorem witness_DelayAndPulseBudget_none :
    busOpOf State.reset .iswe = none ∧ exec .iswe State.reset = .next (after .iswe State.reset) := ⟨rfl, rfl⟩

theorem witness_TransitionGraph : ({ lab .c46 .eightBit true [] with phase := .rxDly2 } : State).phase ≠ .idle ∧
    State.reset.phase = .idle := by decide

theorem witness_SequencerRefinesProcedures :
    exec (.write 5 0xA5) (lab .c46 .eightBit true (lv [0, 1])) =
      .next (after (.write 5 0xA5) (lab .c46 .eightBit true (lv [0, 1]))) ∧
    0 < (after (.write 5 0xA5) (lab .c46 .eightBit true (lv [0, 1]))).trace.length -
      (accept (.write 5 0xA5) (lab .c46 .eightBit true (lv [0, 1]))).trace.length := ⟨rfl, by decide +kernel⟩

theorem witness_MicroStepCounts :
    let s := lab .c46 .eightBit true (lv [0, 1])
    exec (.erase 1 0) s = .next (after (.erase 1 0) s) ∧ busOpOf s (.erase 1 0) = some (.erase 1) ∧
    refusalOf s (.erase 1 0) = none ∧ s.profileLegal ∧ (after (.erase 1 0) s).phase = .idle ∧
    refusalOf State.reset (.erase 1 0) ≠ none := ⟨rfl, by decide, by decide, by decide, by decide, by decide⟩

theorem witness_CommandsAcceptedOnlyInIdle_busy :
    let s := { lab .c46 .eightBit true [] with phase := .pollDly, caller := [.present 1] }
    s.caller = .present 1 :: [] ∧ s.phase ≠ .idle := by decide

theorem witness_CommandsAcceptedOnlyInIdle_idle :
    let s := { State.reset with caller := [.present 1] }
    s.caller = .present 1 :: [] ∧ s.phase = .idle ∧ decode 1 = .ok (.enable 0 0) := ⟨rfl, rfl, rfl⟩

theorem witness_ResetFromEveryPhase :
    ({ lab .c46 .eightBit true [] with phase := .txData, caller := [.assertReset] } : State).caller = .assertReset :: [] := rfl

theorem witness_StepRunsDecodedCommand :
    let s := { State.reset with caller := [.present 0x10] }
    s.phase = .idle ∧ s.caller = .present 0x10 :: [] ∧ decode 0x10 = .error .padBits ∧ State.reset.caller = [] ∧
    ({ State.reset with caller := [.quiet] } : State).caller = .quiet :: [] := ⟨rfl, rfl, rfl, rfl, rfl⟩

theorem witness_FetchedWordRuns : decodeTableWord 8 3 = some .iswe := rfl

/-- An open idle engine meets the invariant. -/
theorem lab_inv : (lab .c66 .eightBit true [.high]).Inv where
  open_profile := by decide
  closed_clean := by decide
  phase_levels := by decide
  trace_pins := by decide
  busy_clean := by decide
  result_zero := by decide
  chip_wf := by decide

theorem witness_StepKeepsInvariant :
    (lab .c66 .eightBit true [.high]).Inv ∧
    step (lab .c66 .eightBit true [.high]) = .next { lab .c66 .eightBit true [.high] with done := false } := ⟨lab_inv, rfl⟩

theorem witness_MicroStepKeepsInvariant :
    (lab .c66 .eightBit true [.high]).Inv ∧
    microStep (lab .c66 .eightBit true [.high]) = .next { lab .c66 .eightBit true [.high] with done := false } :=
  ⟨lab_inv, rfl⟩

theorem witness_TxDataDrivesCountedBit :
    ∃ s : State, s.Inv ∧ s.phase = .txData := by
  refine ⟨{ lab .c46 .sixteenBit true [] with
    phase := .txData, op := .read, cs := .high, seg := .start, sh := 1, cnt := 1
    trace := [.pinWrite .cs .high, .delay .cs] }, ⟨?_, ?_, ?_, ?_, ?_, ?_, ?_⟩, rfl⟩
  all_goals decide

theorem witness_ResponderStartsAsOpened :
    State.reset.opened = false ∧ State.reset.pinLevels = PinLevels.allLow ∧
    (Chip.initial .c76 .eightBit (Memory.fillAll 0xFF) 3 [1]).wf := by decide

/-- `ls` is pinned down in the receiving clause, and the counted clause has its boundary values 1 and 16. -/
theorem witness_ShiftRegisterFormsAgree_counts :
    (∀ c ∈ [(1 : BitVec 5), 16],
      let s := { lab .c46 .sixteenBit true [] with phase := .txData, cnt := c, sh := 0x8001 }
      s.phase = .txData ∧ 1 ≤ s.cnt.toNat ∧ s.cnt.toNat ≤ 16 ∧ (transition s).di = .high) := by decide

/-- The hypotheses of the statements about the reference responder. -/
theorem witness_responder :
    let c := chipOf .c86 .sixteenBit true 0xDEAD [2]
    let s := labChip .c86 .sixteenBit true c []
    s.opened = true ∧ s.profileLegal ∧ s.writeEnabled = true ∧ s.pollLimit = none ∧ s.chipReady c ∧
    c.ewLatch = true := by decide

end Sys2Proof.Tests
end

