-- ==== Sys2Proof/Proofs/CommandWord.lean ====
section
/-! PROOF. The command word of `packCommand` (log entry 3): which number it is, what each of its fields reads, and so which command `decode`
takes from it. From these, the round trip of every well-formed command (O2). -/

namespace Sys2Proof

/-- The port values fit their places in the command word: `cmd_op` 4 bits, `cfg_model` 3, `cfg_org` 1, `cmd_addr` and
`cmd_data` 16 each (rules R9 and R32). -/
abbrev portsFit (code m o a d : Nat) : Prop :=
  code < 2 ^ 4 ∧ m < 2 ^ 3 ∧ o < 2 ^ 1 ∧ operandsFit a d

theorem orgRaw_lt (o : Organization) : orgRaw o < 2 ^ 1 := by
  cases o <;> decide

@[simp] theorem orgOfRaw_orgRaw (o : Organization) : orgOfRaw (orgRaw o) = o := by
  cases o <;> rfl

section Fields

variable {code m o a d : Nat}

/-- Ports that fit do not overlap and do not run past bit 63. -/
theorem packCommand_toNat (h : portsFit code m o a d) :
    (packCommand code m o a d).toNat = code + m * 2 ^ 16 + o * 2 ^ 19 + a * 2 ^ 32 + d * 2 ^ 48 := by
  obtain ⟨hcode, hm, ho, ha, hd⟩ := h
  rw [packCommand, BitVec.toNat_ofNat]
  omega

theorem packCommand_code (h : portsFit code m o a d) : cmdField 0 4 (packCommand code m o a d) = code :=
  (Laws.OpcodeField.pack_low h.1 m o a d).1

theorem packCommand_padLow (h : portsFit code m o a d) : cmdField 4 12 (packCommand code m o a d) = 0 :=
  (Laws.OpcodeField.pack_low h.1 m o a d).2

theorem packCommand_model (h : portsFit code m o a d) : cmdField 16 3 (packCommand code m o a d) = m := by
  rw [cmdField, packCommand_toNat h]
  omega

theorem packCommand_org (h : portsFit code m o a d) : cmdField 19 1 (packCommand code m o a d) = o := by
  rw [cmdField, packCommand_toNat h]
  omega

theorem packCommand_padHigh (h : portsFit code m o a d) : cmdField 20 12 (packCommand code m o a d) = 0 := by
  rw [cmdField, packCommand_toNat h]
  omega

theorem packCommand_addr (h : portsFit code m o a d) : cmdField 32 16 (packCommand code m o a d) = a := by
  rw [cmdField, packCommand_toNat h]
  omega

theorem packCommand_data (h : portsFit code m o a d) : cmdField 48 16 (packCommand code m o a d) = d := by
  rw [cmdField, packCommand_toNat h]
  omega

/-- `decode` reads from a packed word the ports that were packed. -/
theorem decode_packCommand (h : portsFit code m o a d) :
    decode (packCommand code m o a d) = .ok (commandOf code m (orgOfRaw o) a d) := by
  rw [decode, if_pos ⟨packCommand_padLow h, packCommand_padHigh h⟩, packCommand_code h, packCommand_model h,
    packCommand_org h, packCommand_addr h, packCommand_data h]

/-- A command without configuration operands: both `cfg` ports hold 0. -/
theorem decode_packOperands (hcode : code < 2 ^ 4) (h : operandsFit a d) :
    decode (packCommand code 0 0 a d) = .ok (commandOf code 0 .eightBit a d) :=
  decode_packCommand ⟨hcode, by decide, by decide, h⟩

/-- A command without operands: every argument port holds 0. -/
theorem decode_packCode (hcode : code < 2 ^ 4) :
    decode (packCommand code 0 0 0 0) = .ok (commandOf code 0 .eightBit 0 0) :=
  decode_packOperands hcode (by decide)

end Fields

theorem decode_encode_openDev {m : Nat} (hm : m < 2 ^ 3) (o : Organization) :
    decode (encode (.openDev m o)) = .ok (.openDev m o) := by
  have h : portsFit 0 m (orgRaw o) 0 0 := ⟨by decide, hm, orgRaw_lt o, by decide⟩
  calc decode (encode (.openDev m o))
      _ = .ok (.openDev m (orgOfRaw (orgRaw o))) := decode_packCommand h
      _ = .ok (.openDev m o) := by rw [orgOfRaw_orgRaw]

/-- The round trip, by the ports a command uses: the configuration, the operands, or none. -/
theorem decode_encode {i : Instr} (h : i.wf = true) : decode (encode i) = .ok i := by
  cases i with
  | openDev m o => exact decode_encode_openDev (of_decide_eq_true h) o
  | enable a d | disable a d | eraseAll a d | erase a d | writeAll a d | write a d | read a d =>
    exact decode_packOperands (Laws.OpcodeField.code_lt _) (of_decide_eq_true h)
  | iswe | reserved9 | reserved10 | reserved11 | reserved12 | reserved13 | reserved14 | reserved15 =>
    exact decode_packCode (Laws.OpcodeField.code_lt _)

/-- Settles O2: every field of the packed word reads back the port it was made from. -/
theorem decodeEncodeCommand : Obligations.DecodeEncodeCommand :=
  fun _ h => decode_encode h

end Sys2Proof
end

