-- ==== Sys2Proof/Proofs/ShiftForms.lean ====
section
/-! PROOF. The two forms of the transmit and of the receive register that rule R27 allows: indexed by the bit counter, as the model has them, and
shifted left once a bit. Both send and collect the same bits (O28). -/

namespace Sys2Proof.Machine

open Sys2Proof

/-! ## Transmitting -/

/-- Left-aligning `n + 1` bits puts bit `n` on top. -/
theorem msb_leftAligned (v : BitVec 16) {n : Nat} (hn : n < 16) : (v <<< (16 - (n + 1))).msb = v.getLsbD n := by
  have inside : 16 - (n + 1) < 16 := by omega
  have index : 16 - 1 - (16 - (n + 1)) = n := by omega
  rw [BitVec.msb_shiftLeft, BitVec.getMsbD_eq_getLsbD, index, decide_eq_true inside, Bool.true_and]

theorem shiftLeft_leftAligned (v : BitVec 16) {n : Nat} (hn : n < 16) :
    (v <<< (16 - (n + 1))) <<< 1 = v <<< (16 - n) := by
  rw [← BitVec.shiftLeft_add]
  congr 1
  omega

/-- A left-aligned register shifted left sends the low `n` bits, most significant first. -/
theorem shiftedOut_leftAligned (v : BitVec 16) {n : Nat} (hn : n ≤ 16) :
    shiftedOut n (v <<< (16 - n)) = bitsMsb n v.toNat := by
  induction n with
  | zero => rfl
  | succ n ih =>
    rw [shiftedOut, msb_leftAligned v hn, shiftLeft_leftAligned v hn, ih (by omega)]
    rfl

theorem sendBits_trace (v : BitVec 16) (n : Nat) (s : State) :
    (sendBits v n s).trace = s.trace ++ sendTrace (bitsMsb n v.toNat) := by
  rcases Nat.eq_zero_or_pos n with rfl | hn
  · simp [sendBits, bitsMsb, sendTrace]
  · simp [sendBits_eq v n hn.ne', emitAll_eq]

/-- Rule R209: a `TxData` micro-step puts the bit that `cnt` points at on DI. -/
theorem transition_di_of_txData {s : State} (h : s.phase = .txData) :
    (transition s).di = bitLevel s.sh (s.cnt - 1).toNat := by
  simp [transition, h, writePin, pinAfter]

theorem toNat_cnt_sub_one {c : BitVec 5} (h : 1 ≤ c.toNat) : (c - 1).toNat = c.toNat - 1 := by
  bv_omega

/-- The bit that `cnt` points at is the top bit of the left-aligned register. -/
theorem bitLevel_cnt_eq_msb (v : BitVec 16) {c : BitVec 5} (h : 1 ≤ c.toNat) (hle : c.toNat ≤ 16) :
    bitLevel v (c - 1).toNat = Level.ofBool (v <<< (16 - c.toNat)).msb := by
  have align := msb_leftAligned v (n := c.toNat - 1) (by omega)
  rw [Nat.sub_add_cancel h] at align
  rw [bitLevel, toNat_cnt_sub_one h, align]

/-! ## Receiving -/

theorem foldl_bits_eq (ls : List Level) (v : Nat) :
    ls.foldl (fun v l => 2 * v + l.toNat) v = v * 2 ^ ls.length + bitsValue ls := by
  induction ls generalizing v with
  | nil => simp [bitsValue]
  | cons l ls ih =>
    simp only [bitsValue, List.foldl_cons, List.length_cons, ih (2 * v + l.toNat), ih (2 * 0 + l.toNat)]
    ring

/-- The first sample is the most significant bit. -/
theorem bitsValue_cons (l : Level) (ls : List Level) :
    bitsValue (l :: ls) = (l.toNat <<< ls.length) ||| bitsValue ls := by
  rw [← Nat.shiftLeft_add_eq_or_of_lt (bitsValue_lt ls), Nat.shiftLeft_eq]
  simpa [bitsValue] using foldl_bits_eq ls l.toNat

theorem ofNat_shiftLeft_one (v : Nat) : BitVec.ofNat 16 v <<< 1 = BitVec.ofNat 16 (v <<< 1) := by
  apply BitVec.eq_of_toNat_eq
  simp only [BitVec.toNat_shiftLeft, BitVec.toNat_ofNat, Nat.shiftLeft_eq]
  omega

/-- Shifting left and joining a bit at the bottom is doubling and adding it. -/
theorem shiftLeft_or_level (v : Nat) (l : Level) :
    (BitVec.ofNat 16 v <<< 1) ||| BitVec.ofNat 16 l.toNat = BitVec.ofNat 16 (2 * v + l.toNat) := by
  have bit : l.toNat < 2 ^ 1 := toNat_lt_two l
  rw [ofNat_shiftLeft_one, ← BitVec.ofNat_or, ← Nat.shiftLeft_add_eq_or_of_lt bit, Nat.shiftLeft_eq, Nat.mul_comm]

theorem foldl_shiftIn (ls : List Level) (v : Nat) :
    ls.foldl (fun (r : BitVec 16) l => (r <<< 1) ||| BitVec.ofNat 16 l.toNat) (BitVec.ofNat 16 v) =
      BitVec.ofNat 16 (ls.foldl (fun v l => 2 * v + l.toNat) v) := by
  induction ls generalizing v with
  | nil => rfl
  | cons l ls ih => rw [List.foldl_cons, shiftLeft_or_level, ih, List.foldl_cons]

/-- The shifting receive register holds the number of its samples, modulo its width. -/
theorem shiftedIn_eq (ls : List Level) : shiftedIn ls = BitVec.ofNat 16 (bitsValue ls) :=
  foldl_shiftIn ls 0

/-- The loop of `receiveBits` adds the trace of its samples and joins their number to `rx` (rule R133). -/
theorem receiveLoop_samples (n : Nat) (s : State) :
    ∃ ls, ls.length = n ∧ (receiveLoop n s).trace = s.trace ++ receiveTrace ls ∧
      (receiveLoop n s).rx = s.rx ||| BitVec.ofNat 16 (bitsValue ls) := by
  induction n generalizing s with
  | zero => exact ⟨[], rfl, by simp [receiveLoop, receiveTrace], by simp [receiveLoop, bitsValue]⟩
  | succ n ih =>
    obtain ⟨l, env, hbit⟩ := receiveBit_spec n s
    obtain ⟨ls, rfl, htrace, hrx⟩ := ih (receiveBit n s)
    refine ⟨l :: ls, rfl, ?_, ?_⟩
    · rw [receiveLoop, htrace, hbit]
      simp [receiveTrace]
    · rw [receiveLoop, hrx, hbit, bitsValue_cons, BitVec.ofNat_or, ← BitVec.or_assoc]

/-- What `receiveBits` emits and what it leaves in `rx`, by its samples (rule R133). -/
theorem receiveBits_samples (n : Nat) (s : State) :
    ∃ ls, ls.length = n ∧ (receiveBits n s).trace = s.trace ++ receiveTrace ls ∧
      (receiveBits n s).rx = BitVec.ofNat 16 (bitsValue ls) := by
  obtain ⟨ls, hlen, htrace, hrx⟩ := receiveLoop_samples n { s with rx := 0, cnt := BitVec.ofNat 5 n }
  exact ⟨ls, hlen, htrace, by simpa [receiveBits] using hrx⟩

/-- Settles O28: both transmit registers send the low bits of the value, most significant first, and both receive
registers hold the number of the samples. -/
theorem shiftRegisterFormsAgree : Obligations.ShiftRegisterFormsAgree := by
  refine ⟨?_, ?_, ?_, ?_, ?_⟩
  · intro s v n hn
    rw [shiftedOut_leftAligned v hn, sendBits_trace]
  · intro s hphase hpos hle
    rw [transition_di_of_txData hphase, bitLevel_cnt_eq_msb s.sh hpos hle]
  · intro s n _
    obtain ⟨ls, hlen, htrace, hrx⟩ := receiveBits_samples n s
    exact ⟨ls, hlen, htrace, by rw [hrx, shiftedIn_eq]⟩
  · exact fun v n hn => shiftedOut_leftAligned v hn
  · exact fun ls _ => shiftedIn_eq ls

end Sys2Proof.Machine
end

