-- ==== Sys2Proof/Proofs/Settings.lean ====
section
/-! PROOF. The registers that an operation does not use as work registers: those that only OPEN and reset change, and `writeEnabled`. What
every shared operation and every command does to them; from it O29. -/

namespace Sys2Proof.Machine

open Sys2Proof

/-- The registers that no step but a successful OPEN or a reset changes (rules R21, R23 and R25), and the poll limit (log
entry 1). -/
structure OpenRegs where
  model : Model
  organization : Organization
  capacityUnits : BitVec 12
  addressBits : BitVec 4
  addressMask : BitVec 11
  opened : Bool
  padOe : Bool
  pollLimit : Option Nat

/-- The registers that stand from one command to the next. -/
structure Settings where
  openRegs : OpenRegs
  writeEnabled : Bool

def State.openRegs (s : State) : OpenRegs where
  model := s.model
  organization := s.organization
  capacityUnits := s.capacityUnits
  addressBits := s.addressBits
  addressMask := s.addressMask
  opened := s.opened
  padOe := s.padOe
  pollLimit := s.pollLimit

def State.settings (s : State) : Settings where
  openRegs := s.openRegs
  writeEnabled := s.writeEnabled

/-! ## The updates and the procedures -/

@[simp] theorem emit_settings (e : Event) (s : State) : (emit e s).settings = s.settings := rfl
@[simp] theorem writePin_settings (p : OutPin) (l : Level) (s : State) : (writePin p l s).settings = s.settings := rfl
@[simp] theorem delay_settings (k : DelayKind) (s : State) : (delay k s).settings = s.settings := rfl
@[simp] theorem complete_settings (st : Status) (r : BitVec 16) (s : State) :
    (complete st r s).settings = s.settings := rfl
@[simp] theorem raise_settings (st : Status) (s : State) : (raise st s).settings = s.settings := rfl
@[simp] theorem latch_settings (o : Op) (a v : Nat) (s : State) : (latch o a v s).settings = s.settings := rfl
@[simp] theorem goPhase_settings (p : Phase) (s : State) : (goPhase p s).settings = s.settings := rfl
@[simp] theorem callerTaken_settings (s : State) : (callerTaken s).settings = s.settings := rfl
@[simp] theorem setWriteEnabled_settings (b : Bool) (s : State) :
    (setWriteEnabled b s).settings = { s.settings with writeEnabled := b } := rfl

@[simp] theorem sendBits_settings (v : BitVec 16) (n : Nat) (s : State) :
    (sendBits v n s).settings = s.settings := by
  rcases Nat.eq_zero_or_pos n with rfl | hn
  · rfl
  · rw [sendBits_eq v n hn.ne', emitAll_eq]
    rfl

@[simp] theorem receiveBits_settings (n : Nat) (s : State) : (receiveBits n s).settings = s.settings := by
  obtain ⟨ls, rx, cnt, sk, env, -, h⟩ := receiveLoop_spec n { s with rx := 0, cnt := BitVec.ofNat 5 n }
  rw [receiveBits, h]
  rfl

@[simp] theorem beginTransaction_settings (s : State) : (beginTransaction s).settings = s.settings :=
  sendBits_settings ..

@[simp] theorem sendFrame_settings (f : BitVec 16) (s : State) : (sendFrame f s).settings = s.settings :=
  sendBits_settings ..

@[simp] theorem movePayload_settings (k : Payload) (d : BitVec 16) (s : State) :
    (movePayload k d s).settings = s.settings := by
  cases k with
  | none => rfl
  | tx => exact sendBits_settings ..
  | rx => exact receiveBits_settings ..

@[simp] theorem transact_settings (f : BitVec 16) (k : Payload) (d : BitVec 16) (s : State) :
    (transact f k d s).settings = s.settings := by
  simp [transact, endTransaction]

@[simp] theorem pollReady_settings (s : State) : (pollReady s).settings = s.settings := by
  obtain ⟨u, ⟨k, es, env, rfl⟩, h | h | h⟩ := pollReady_cases s
  all_goals
    rw [h]
    rfl

/-! ## The gates -/

/-- A view of the state that a refusal leaves alone is kept by a gated body if the body keeps it. -/
theorem requireOpened_keeps {β : Type} {view : State → β} {body : State → State} {s : State}
    (hraise : ∀ st, view (raise st s) = view s) (hbody : view (body s) = view s) :
    view (requireOpened body s) = view s := by
  obtain ⟨-, h⟩ | ⟨-, h⟩ := requireOpened_cases body s
  · rw [h, hbody]
  · rw [h, hraise]

theorem requireWritable_keeps {β : Type} {view : State → β} {body : State → State} {s : State}
    (hraise : ∀ st, view (raise st s) = view s) (hbody : view (body s) = view s) :
    view (requireWritable body s) = view s := by
  obtain ⟨-, -, h⟩ | ⟨-, -, h⟩ | ⟨-, h⟩ := requireWritable_cases body s
  · rw [h, hbody]
  · rw [h, hraise]
  · rw [h, hraise]

/-! ## Whole commands -/

/-- What OPEN can do (rules R110 and R248): refuse when open, refuse a raw code that is no model, or load the profile. -/
theorem openCommand_cases (m : Nat) (o : Organization) (s : State) :
    (s.opened = true ∧ openCommand m o s = raise .alreadyOpen s) ∨
    (s.opened = false ∧ modelOfRaw m = none ∧ openCommand m o s = raise .cfgError s) ∨
    (s.opened = false ∧ ∃ model, modelOfRaw m = some model ∧ openCommand m o s = openWith model o s) := by
  unfold openCommand
  cases hopen : s.opened with
  | true => exact .inl ⟨rfl, rfl⟩
  | false =>
    cases hmodel : modelOfRaw m with
    | none => exact .inr (.inl ⟨rfl, rfl, rfl⟩)
    | some model => exact .inr (.inr ⟨rfl, model, rfl, rfl⟩)

theorem openCommand_writeEnabled (m : Nat) (o : Organization) (s : State) :
    (openCommand m o s).writeEnabled = if (openCommand m o s).status = .ok then false else s.writeEnabled := by
  obtain ⟨-, h⟩ | ⟨-, -, h⟩ | ⟨-, model, -, h⟩ := openCommand_cases m o s
  all_goals
    rw [h]
    rfl

/-- A command that sets the flag after a body that keeps the settings (ENABLE and DISABLE, rules R140, R161 and R162). -/
theorem settings_of_flagCommand {body : State → State} {b : Bool} {s t : State}
    (h : t = requireOpened (fun s => complete .ok 0 (setWriteEnabled b (body s))) s)
    (hbody : (body s).settings = s.settings) :
    t.settings = { s.settings with writeEnabled := if t.status = .ok then b else s.writeEnabled } := by
  obtain ⟨-, hgate⟩ | ⟨-, hgate⟩ := requireOpened_cases (fun s => complete .ok 0 (setWriteEnabled b (body s))) s
  · rw [h, hgate]
    simp [hbody]
  · rw [h, hgate]
    rfl

/-- The settings after a command, by the command (rules R21 and R22). -/
theorem exec_settings {i : Instr} {s t : State} (h : exec i s = .next t) :
    match i with
    | .openDev m o => t = openCommand m o s
    | .enable _ _ => t.settings = { s.settings with writeEnabled := if t.status = .ok then true else s.writeEnabled }
    | .disable _ _ => t.settings = { s.settings with writeEnabled := if t.status = .ok then false else s.writeEnabled }
    | _ => t.settings = s.settings := by
  cases i <;> cases h
  case openDev => rfl
  case enable | disable => exact settings_of_flagCommand rfl (by simp)
  case iswe | read => exact requireOpened_keeps (fun _ => rfl) (by simp)
  case eraseAll | erase | writeAll | write => exact requireWritable_keeps (fun _ => rfl) (by simp)
  all_goals rfl

/-- Settles O29: every other command keeps the settings, and a refusal keeps them too. -/
theorem writeEnabledChangesOnlyByRule : Obligations.WriteEnabledChangesOnlyByRule := by
  refine ⟨fun _ => rfl, fun s t i h => ?_⟩
  have hset := exec_settings h
  cases i with
  | openDev m o =>
    rw [hset]
    exact openCommand_writeEnabled m o s
  | _ => exact congrArg Settings.writeEnabled hset

end Sys2Proof.Machine
end

