-- ==== Sys2Proof/Proofs/StepFrame.lean ====
section
/-! PROOF. What a micro-step does to the registers it does not work on: the pins and the trace follow its events, and what OPEN set stands. From
this, O41 and O31. -/

namespace Sys2Proof.Machine

open Sys2Proof

/-- What a micro-step changes by its events only: the pins and the trace; and what it does not change: the registers that OPEN
sets. -/
structure StepFrame where
  openRegs : OpenRegs
  pinLevels : PinLevels
  trace : List Event

def State.stepFrame (s : State) : StepFrame where
  openRegs := s.openRegs
  pinLevels := s.pinLevels
  trace := s.trace

/-- The frame after events (rules R12 and R24). -/
def StepFrame.emits (es : List Event) (f : StepFrame) : StepFrame :=
  { f with pinLevels := es.foldl levelsAfter f.pinLevels, trace := f.trace ++ es }

@[simp] theorem StepFrame.emits_nil (f : StepFrame) : f.emits [] = f := by
  simp [StepFrame.emits]

/-- `levelsAfter` and the three `pinAfter` say the same of an event (rule R24). -/
theorem emit_pinLevels (e : Event) (s : State) : (emit e s).pinLevels = levelsAfter s.pinLevels e := by
  cases e with
  | pinWrite p l => cases p <;> rfl
  | pinRead l | delay k | cfgOut p | cfgInDO => rfl

theorem emitAll_pinLevels (es : List Event) (s : State) :
    (emitAll es s).pinLevels = es.foldl levelsAfter s.pinLevels := by
  induction es generalizing s with
  | nil => rfl
  | cons e es ih => rw [emitAll_cons, ih, emit_pinLevels, List.foldl_cons]

theorem emit_stepFrame (e : Event) (s : State) : (emit e s).stepFrame = s.stepFrame.emits [e] := by
  simp only [State.stepFrame, StepFrame.emits, emit_pinLevels, emit_trace]
  rfl

/-! ## One micro-step -/

/-- The events of a micro-step without a command: none in `Idle`, else one (rules R207 to R224). -/
def phaseEvents (s : State) : List Event :=
  match s.phase with
  | .idle => []
  | .csHigh => [.pinWrite .cs .high]
  | .csDelay => [.delay .cs]
  | .txData => [.pinWrite .di (bitLevel s.sh (s.cnt - 1).toNat)]
  | .txDly1 => [.delay .tx]
  | .txSkHigh => [.pinWrite .sk .high]
  | .txDly2 => [.delay .tx]
  | .txSkLow => [.pinWrite .sk .low]
  | .txDly3 => [.delay .tx]
  | .rxSkHigh => [.pinWrite .sk .high]
  | .rxDly1 => [.delay .rx]
  | .rxSample => [.pinRead (doLevel s)]
  | .rxSkLow => [.pinWrite .sk .low]
  | .rxDly2 => [.delay .rx]
  | .csLow => [.pinWrite .cs .low]
  | .pollCsHigh => [.pinWrite .cs .high]
  | .pollSample => [.pinRead (doLevel s)]
  | .pollDly => [.delay .poll]
  | .pollCsLow => [.pinWrite .cs .low]
  | .pollAbort => [.pinWrite .cs .low]

theorem goPhase_stepFrame (p : Phase) (s : State) : (goPhase p s).stepFrame = s.stepFrame := rfl

theorem afterSend_stepFrame (s : State) : (afterSend s).stepFrame = s.stepFrame := by
  unfold afterSend
  split
  · rfl
  · split
    · rfl
    · split <;> rfl
  · rfl

theorem nextSend_stepFrame (s : State) : (nextSend s).stepFrame = s.stepFrame := by
  simp only [nextSend]
  split
  · exact afterSend_stepFrame _
  · rfl

theorem nextReceive_stepFrame (s : State) : (nextReceive s).stepFrame = s.stepFrame := by
  simp only [nextReceive]
  split <;> rfl

theorem finishFlag_stepFrame (s : State) : (finishFlag s).stepFrame = s.stepFrame := by
  unfold finishFlag
  split <;> rfl

theorem finish_stepFrame (st : Status) (s : State) : (finish st s).stepFrame = s.stepFrame :=
  finishFlag_stepFrame s

theorem afterCsLow_stepFrame (s : State) : (afterCsLow s).stepFrame = s.stepFrame := by
  unfold afterCsLow
  split
  · rfl
  · exact finish_stepFrame .ok s

theorem samplePoll_stepFrame (s : State) : (samplePoll s).stepFrame = (pollOnce s).stepFrame := by
  simp only [samplePoll]
  split
  · rfl
  · split <;> rfl

/-- What a micro-step leaves alone, and how its events move the pins and the trace. -/
theorem transition_stepFrame (s : State) : (transition s).stepFrame = s.stepFrame.emits (phaseEvents s) := by
  cases hphase : s.phase <;> simp only [transition, phaseEvents, hphase]
  case idle => exact (StepFrame.emits_nil _).symm
  case txDly3 => exact (nextSend_stepFrame _).trans (emit_stepFrame ..)
  case rxDly2 => exact (nextReceive_stepFrame _).trans (emit_stepFrame ..)
  case csLow => exact (afterCsLow_stepFrame _).trans (emit_stepFrame ..)
  case pollCsLow | pollAbort => exact (finish_stepFrame ..).trans (emit_stepFrame ..)
  case pollSample => exact (samplePoll_stepFrame s).trans (emit_stepFrame (.pinRead (doLevel s)) s)
  case rxSample => exact emit_stepFrame (.pinRead (doLevel s)) s
  case csDelay => exact emit_stepFrame (.delay .cs) s
  case pollCsHigh => exact emit_stepFrame (.pinWrite .cs .high) s
  all_goals exact (goPhase_stepFrame ..).trans (emit_stepFrame ..)

/-! ## Acceptance -/

theorem openWith_stepFrame (m : Model) (o : Organization) (s : State) :
    (openWith m o s).stepFrame = { s.stepFrame.emits openEvents with openRegs := (openWith m o s).openRegs } := by
  have htrace : (openWith m o s).trace = (emitAll openEvents s).trace := rfl
  rw [emitAll_eq] at htrace
  simp only [State.stepFrame, StepFrame.emits, htrace]
  rfl

/-- An acceptance moves no pin and changes nothing that OPEN sets, unless it is a successful OPEN (rules R205 and R248). -/
theorem accept_cases (i : Instr) (s : State) :
    (accept i s).stepFrame = s.stepFrame ∨
    (s.opened = false ∧ ∃ m o, accept i s = openWith m o s) := by
  cases i
  case openDev m o =>
    obtain ⟨-, h⟩ | ⟨-, -, h⟩ | ⟨hclosed, model, -, h⟩ := openCommand_cases m o s
    · exact .inl (by rw [accept, h]; rfl)
    · exact .inl (by rw [accept, h]; rfl)
    · exact .inr ⟨hclosed, model, o, h⟩
  case enable | disable | iswe | read => exact .inl (requireOpened_keeps (fun _ => rfl) rfl)
  case eraseAll | erase | writeAll | write => exact .inl (requireWritable_keeps (fun _ => rfl) rfl)
  all_goals exact .inl rfl

/-! ## The pins -/

/-- If `t` is reached from `s` by the events `es`, its pins follow the pin writes of its new events. -/
theorem pinLevels_eq_foldl_newEvents {s t : State} (es : List Event) (htrace : t.trace = s.trace ++ es)
    (hpins : t.pinLevels = es.foldl levelsAfter s.pinLevels) :
    t.pinLevels = (newEvents s t).foldl levelsAfter s.pinLevels := by
  rw [newEvents, htrace, List.drop_left, hpins]

/-- Settles O41: a micro-step's events move the pins, an acceptance emits no pin write. -/
theorem pinsFollowPinWrites : Obligations.PinsFollowPinWrites := by
  intro s i
  refine ⟨?_, ?_, rfl⟩
  · have h := transition_stepFrame s
    exact pinLevels_eq_foldl_newEvents (phaseEvents s) (congrArg StepFrame.trace h) (congrArg StepFrame.pinLevels h)
  · obtain h | ⟨-, m, o, hopen⟩ := accept_cases i s
    · exact pinLevels_eq_foldl_newEvents [] ((congrArg StepFrame.trace h).trans (List.append_nil _).symm)
        (congrArg StepFrame.pinLevels h)
    · have h := openWith_stepFrame m o s
      rw [hopen]
      exact pinLevels_eq_foldl_newEvents openEvents (congrArg StepFrame.trace h) (congrArg StepFrame.pinLevels h)

/-! ## What OPEN set -/

theorem transition_openRegs (s : State) : (transition s).openRegs = s.openRegs :=
  congrArg StepFrame.openRegs (transition_stepFrame s)

theorem accept_openRegs_of_opened (i : Instr) {s : State} (hopen : s.opened = true) :
    (accept i s).openRegs = s.openRegs := by
  obtain h | ⟨hclosed, -⟩ := accept_cases i s
  · exact congrArg StepFrame.openRegs h
  · simp [hopen] at hclosed

theorem exec_openRegs_of_opened {i : Instr} {s t : State} (hopen : s.opened = true) (h : exec i s = .next t) :
    t.openRegs = s.openRegs := by
  have hset := exec_settings h
  cases i with
  | openDev m o =>
    rw [hset, openCommand, if_pos hopen]
    rfl
  | _ => exact congrArg Settings.openRegs hset

/-- At either grain: a step without reset has what its command and the sequencer's transition both have. -/
theorem cycle_keeps {P : State → Prop} {run : Instr → State → Host.Outcome State Fault Refusal} {s t : State}
    (hreset : callerNow s ≠ .assertReset) (hrun : ∀ i, run i (callerTaken s) = .next t → P t)
    (htransition : P (transition (callerTaken s))) (h : cycle run s = .next t) : P t := by
  unfold cycle at h
  split at h
  case h_1 hcaller => exact absurd hcaller hreset
  case h_2 =>
    cases h
    exact htransition
  case h_3 =>
    split at h
    · unfold acceptWord at h
      split at h
      · exact hrun _ h
      · cases h
    · cases h
      exact htransition

theorem step_openRegs_of_opened {s t : State} (hopen : s.opened = true) (hreset : callerNow s ≠ .assertReset)
    (h : step s = .next t) : t.openRegs = s.openRegs :=
  cycle_keeps (P := fun t => t.openRegs = s.openRegs) hreset (fun _ => exec_openRegs_of_opened hopen)
    (transition_openRegs _) h

theorem microStep_openRegs_of_opened {s t : State} (hopen : s.opened = true) (hreset : callerNow s ≠ .assertReset)
    (h : microStep s = .next t) : t.openRegs = s.openRegs := by
  refine cycle_keeps (P := fun t => t.openRegs = s.openRegs) hreset (fun i haccept => ?_) (transition_openRegs _) h
  cases haccept
  exact accept_openRegs_of_opened i hopen

/-- Settles O31: no step at either grain but a reset changes what OPEN set, since a second OPEN is refused. -/
theorem profileImmutableOnceOpen : Obligations.ProfileImmutableOnceOpen := by
  intro s t hopen hreset hstep
  have h : t.openRegs = s.openRegs :=
    hstep.elim (step_openRegs_of_opened hopen hreset) (microStep_openRegs_of_opened hopen hreset)
  exact ⟨congrArg OpenRegs.model h, congrArg OpenRegs.organization h, congrArg OpenRegs.capacityUnits h,
    congrArg OpenRegs.addressBits h, congrArg OpenRegs.addressMask h, (congrArg OpenRegs.opened h).trans hopen,
    congrArg OpenRegs.padOe h, congrArg OpenRegs.pollLimit h⟩

end Sys2Proof.Machine
end

