-- ==== Sys2Proof/Proofs/ResetState.lean ====
section
/-! PROOF. The reset state: its register values (O45) and its invariant (O49). -/

namespace Sys2Proof.Machine

open Sys2Proof

/-- Settles O45: each register of `State.reset` is the value of rule R39. -/
theorem resetValues : Obligations.ResetValues := by
  unfold Obligations.ResetValues
  decide

/-- The engine is closed and idle, its trace empty, its status `OK`, and no responder is assumed. -/
theorem reset_inv : State.reset.Inv where
  open_profile hopen := by cases hopen
  closed_clean _ := by decide
  phase_levels := rfl
  trace_pins := rfl
  busy_clean hbusy := absurd rfl hbusy
  result_zero _ := rfl
  chip_wf := rfl

/-- Settles O49. -/
theorem resetMeetsInvariant : Obligations.ResetMeetsInvariant := reset_inv

end Sys2Proof.Machine
end

