-- ==== Sys2Proof/Proofs/BusFrame.lean ====
section
/-! PROOF. The bits of a bus operation (rules R80 to R91) in one form: start marker, opcode, field, payload; what each reading of
`decodeBus` takes from bits of that form; so that a chip reads every operation from its own bits (O4). -/

namespace Sys2Proof

/-! ## Bit strings -/

@[simp] theorem length_bitsMsb (n v : Nat) : (bitsMsb n v).length = n := by
  induction n with
  | zero => rfl
  | succ n ih => simp [bitsMsb, ih]

@[simp] theorem toNat_ofBool (b : Bool) : (Level.ofBool b).toNat = b.toNat := by
  cases b <;> rfl

/-- Bit `n` joins the low `n` bits as the next bit of the number. -/
theorem testBit_shiftLeft_or_mod (v n : Nat) :
    ((v.testBit n).toNat <<< n) ||| v % 2 ^ n = v % 2 ^ (n + 1) := by
  rw [← Nat.shiftLeft_add_eq_or_of_lt (Nat.mod_lt _ (Nat.two_pow_pos n)), Nat.shiftLeft_eq, Nat.mod_pow_succ,
    Nat.toNat_testBit]
  ring

/-- Reading back the low `n` bits of a number (rule R53). -/
theorem bitsValue_bitsMsb (n v : Nat) : bitsValue (bitsMsb n v) = v % 2 ^ n := by
  induction n with
  | zero => simp [bitsMsb, bitsValue, Nat.mod_one]
  | succ n ih =>
    rw [bitsMsb, Machine.bitsValue_cons, length_bitsMsb, ih, toNat_ofBool, testBit_shiftLeft_or_mod]

theorem bitsValue_bitsMsb_of_lt {n v : Nat} (h : v < 2 ^ n) : bitsValue (bitsMsb n v) = v := by
  rw [bitsValue_bitsMsb, Nat.mod_eq_of_lt h]

/-- The bits below `n` are those of the low part. -/
theorem bitsMsb_low (a : Nat) {b n m : Nat} (hb : b < 2 ^ n) (hm : m ≤ n) :
    bitsMsb m (2 ^ n * a + b) = bitsMsb m b := by
  induction m with
  | zero => rfl
  | succ m ih => rw [bitsMsb, bitsMsb, ih (by omega), Nat.testBit_two_pow_mul_add a hb,
      if_pos (Nat.lt_of_succ_le hm)]

/-- Two numbers put side by side send the bits of the one and then of the other. -/
theorem bitsMsb_append (m a : Nat) {n b : Nat} (hb : b < 2 ^ n) :
    bitsMsb (m + n) (2 ^ n * a + b) = bitsMsb m a ++ bitsMsb n b := by
  induction m with
  | zero => rw [Nat.zero_add, bitsMsb_low a hb le_rfl, bitsMsb, List.nil_append]
  | succ m ih =>
    have above : ¬ m + n < n := by omega
    rw [Nat.succ_add, bitsMsb, bitsMsb, ih, Nat.testBit_two_pow_mul_add a hb, if_neg above, Nat.add_sub_cancel,
      List.cons_append]

/-! ## The form of a frame -/

/-- The bits of a transaction with an `A`-bit field: start marker, 2-bit opcode, field, and what is clocked after them. -/
def busBits (A opcode field : Nat) (rest : List Level) : List Level :=
  .high :: (bitsMsb 2 opcode ++ bitsMsb A field ++ rest)

/-- The 2-bit opcode of an operation (rule R81). -/
def BusOp.opcode : BusOp → Nat
  | .enable | .disable | .eraseAll | .writeAll _ => 0
  | .write _ _ => 1
  | .read _ => 2
  | .erase _ => 3

/-- The `A`-bit field of an operation: a sub-code over zeros, or the address field (rules R83 to R85). -/
def BusOp.field (A : Nat) : BusOp → Nat
  | .enable => 2 ^ (A - 2) * 3
  | .disable => 2 ^ (A - 2) * 0
  | .eraseAll => 2 ^ (A - 2) * 2
  | .writeAll _ => 2 ^ (A - 2) * 1
  | .write f _ | .read f | .erase f => f

/-- The transmitted payload of an operation (rule R86). -/
def BusOp.payload (W : Nat) : BusOp → List Level
  | .writeAll d | .write _ d => bitsMsb W d
  | .enable | .disable | .eraseAll | .read _ | .erase _ => []

/-- A sub-code of two bits over zeros fits the field. -/
theorem subCode_lt {A sub : Nat} (hA : 2 ≤ A) (hsub : sub < 4) : 2 ^ (A - 2) * sub < 2 ^ A := by
  calc 2 ^ (A - 2) * sub
      _ < 2 ^ (A - 2) * 2 ^ 2 := Nat.mul_lt_mul_of_pos_left hsub (Nat.two_pow_pos _)
      _ = 2 ^ A := by rw [← Nat.pow_add, Nat.sub_add_cancel hA]

theorem BusOp.field_lt {A W : Nat} {b : BusOp} (hA : 2 ≤ A) (h : b.wf A W = true) : b.field A < 2 ^ A := by
  cases b with
  | enable | disable | eraseAll | writeAll => exact subCode_lt hA (by decide)
  | write => exact (of_decide_eq_true h).1
  | read | erase => exact of_decide_eq_true h

/-- A control operation's field is its sub-code, then zeros. -/
theorem bitsMsb_subCode {A : Nat} (hA : 2 ≤ A) (sub : Nat) :
    bitsMsb A (2 ^ (A - 2) * sub) = bitsMsb 2 sub ++ bitsMsb (A - 2) 0 := by
  have h := bitsMsb_append 2 sub (Nat.two_pow_pos (A - 2))
  rwa [Nat.add_sub_cancel' hA, Nat.add_zero] at h

/-- Every operation's bits have the form of `busBits`. -/
theorem encodeBus_eq {A : Nat} (hA : 2 ≤ A) (W : Nat) (b : BusOp) :
    encodeBus A W b = busBits A b.opcode (b.field A) (b.payload W) := by
  cases b with
  | enable | disable | eraseAll | writeAll =>
    simp only [encodeBus, busBits, BusOp.opcode, BusOp.field, BusOp.payload, bitsMsb_subCode hA, List.append_assoc,
      List.append_nil]
  | write | read | erase => simp [encodeBus, busBits, BusOp.opcode, BusOp.field, BusOp.payload]

/-! ## What a chip reads from it -/

section Readings

variable {A W opcode field : Nat} {rest : List Level}

@[simp] theorem head?_busBits : (busBits A opcode field rest).head? = some .high := rfl

@[simp] theorem length_busBits : (busBits A opcode field rest).length = 3 + A + rest.length := by
  simp only [busBits, List.length_cons, List.length_append, length_bitsMsb]
  omega

theorem opcode_of_busBits (h : opcode < 2 ^ 2) :
    bitsValue (((busBits A opcode field rest).drop 1).take 2) = opcode := by
  have htake : ((busBits A opcode field rest).drop 1).take 2 = bitsMsb 2 opcode := by
    simp [busBits]
  rw [htake, bitsValue_bitsMsb_of_lt h]

theorem field_of_busBits (h : field < 2 ^ A) :
    bitsValue (((busBits A opcode field rest).drop 3).take A) = field := by
  have htake : ((busBits A opcode field rest).drop 3).take A = bitsMsb A field := by
    simp [busBits, bitsMsb]
  rw [htake, bitsValue_bitsMsb_of_lt h]

@[simp] theorem drop_busBits : (busBits A opcode field rest).drop (3 + A) = rest := by
  have hlen : (.high :: (bitsMsb 2 opcode ++ bitsMsb A field)).length = 3 + A := by
    simp only [List.length_cons, List.length_append, length_bitsMsb]
    omega
  rw [← hlen]
  exact List.drop_left

theorem decodeBus_control (h : field < 2 ^ A) :
    decodeBus A W (busBits A 0 field rest) =
      controlOp (field / 2 ^ (A - 2)) (rest.length = 0) (rest.length = W) (bitsValue (rest.take W)) := by
  simp [decodeBus, -List.drop_one, opcode_of_busBits, field_of_busBits h]

theorem decodeBus_write (h : field < 2 ^ A) (hrest : rest.length = W) :
    decodeBus A W (busBits A 1 field rest) = some (.write field (bitsValue rest)) := by
  simp [decodeBus, -List.drop_one, opcode_of_busBits, field_of_busBits h, ← hrest]

theorem decodeBus_erase (h : field < 2 ^ A) : decodeBus A W (busBits A 3 field []) = some (.erase field) := by
  simp [decodeBus, -List.drop_one, opcode_of_busBits, field_of_busBits h]

/-- A READ is read whatever is clocked after its field (rule R70). -/
theorem decodeBus_read (h : field < 2 ^ A) : decodeBus A W (busBits A 2 field rest) = some (.read field) := by
  simp [decodeBus, -List.drop_one, opcode_of_busBits, field_of_busBits h]

end Readings

theorem decodeBus_encodeBus {A W : Nat} {b : BusOp} (hA : 2 ≤ A) (h : b.wf A W = true) :
    decodeBus A W (encodeBus A W b) = some b := by
  have hfield := BusOp.field_lt hA h
  have hsub (sub : Nat) : 2 ^ (A - 2) * sub / 2 ^ (A - 2) = sub := Nat.mul_div_cancel_left _ (Nat.two_pow_pos _)
  rw [encodeBus_eq hA]
  cases b with
  | enable | disable | eraseAll =>
    refine (decodeBus_control hfield).trans ?_
    simp [BusOp.field, BusOp.payload, hsub, controlOp]
  | writeAll d =>
    refine (decodeBus_control hfield).trans ?_
    rw [BusOp.field, hsub]
    have htake : (bitsMsb W d).take W = bitsMsb W d := List.take_of_length_le (length_bitsMsb W d).le
    simp [BusOp.payload, controlOp, htake, bitsValue_bitsMsb_of_lt (of_decide_eq_true h)]
  | write f d =>
    refine (decodeBus_write hfield (length_bitsMsb W d)).trans ?_
    rw [BusOp.field, bitsValue_bitsMsb_of_lt (of_decide_eq_true h).2]
  | read f => exact decodeBus_read hfield
  | erase f => exact decodeBus_erase hfield

/-- Settles O4: the readings of a frame give back its opcode, field and payload. -/
theorem decodeEncodeBus : Obligations.DecodeEncodeBus :=
  fun _ _ _ hA h => decodeBus_encodeBus hA h

end Sys2Proof
end

