-- ==== Sys2Proof/Proofs/MaskedOperands.lean ====
section
/-! PROOF. The operands of a command under a legal profile: the masked address as a remainder, and that an operation sees no more of its
operands than what the mask and the unit width leave (O32). -/

namespace Sys2Proof.Machine

open Sys2Proof

/-! ## The legal profiles -/

theorem resolve_addressMask (m : Model) (o : Organization) :
    (resolve m o).addressMask = 2 ^ (resolve m o).addressBits - 1 := by
  cases m <;> cases o <;> rfl

theorem resolve_addressBits_bounds (m : Model) (o : Organization) :
    6 ≤ (resolve m o).addressBits ∧ (resolve m o).addressBits ≤ 11 := by
  cases m <;> cases o <;> decide

theorem truncUnit_mod (d : Nat) (s : State) : truncUnit (d % 2 ^ s.width) s = truncUnit d s := by
  rw [truncUnit, Nat.mod_mod, truncUnit]

section Legal

variable {s : State} (h : s.profileLegal)
include h

theorem addrWidth_eq_resolve : s.addrWidth = (resolve s.model s.organization).addressBits := h.2.1

theorem addrWidth_bounds : 6 ≤ s.addrWidth ∧ s.addrWidth ≤ 11 := by
  rw [addrWidth_eq_resolve h]
  exact resolve_addressBits_bounds ..

theorem two_le_addrWidth : 2 ≤ s.addrWidth := le_trans (by decide) (addrWidth_bounds h).1

theorem addressMask_toNat : s.addressMask.toNat = 2 ^ s.addrWidth - 1 := by
  rw [addrWidth_eq_resolve h, ← resolve_addressMask]
  exact h.2.2

theorem two_pow_addrWidth_dvd : 2 ^ s.addrWidth ∣ 2 ^ 11 := Nat.pow_dvd_pow 2 (addrWidth_bounds h).2

/-- A field of `A` bits fits the address register. -/
theorem field_lt_addr {f : Nat} (hf : f < 2 ^ s.addrWidth) : f < 2 ^ 11 :=
  hf.trans_le (Nat.le_of_dvd (by decide) (two_pow_addrWidth_dvd h))

/-- The effective address is the address modulo `2^A` (rules R54 and R85). -/
theorem effectiveAddress_eq (a : Nat) : effectiveAddress a s = BitVec.ofNat 11 (a % 2 ^ s.addrWidth) := by
  apply BitVec.eq_of_toNat_eq
  rw [effectiveAddress, BitVec.toNat_and, BitVec.toNat_ofNat, addressMask_toNat h, Nat.and_two_pow_sub_one_eq_mod,
    Nat.mod_mod_of_dvd _ (two_pow_addrWidth_dvd h), BitVec.toNat_ofNat,
    Nat.mod_eq_of_lt (field_lt_addr h (Nat.mod_lt _ (Nat.two_pow_pos _)))]

theorem effectiveAddress_mod (a : Nat) : effectiveAddress (a % 2 ^ s.addrWidth) s = effectiveAddress a s := by
  rw [effectiveAddress_eq h, effectiveAddress_eq h, Nat.mod_mod]

/-- The latched operands are the reduced ones (rule R205). -/
theorem latch_mod (o : Op) (a d : Nat) : latch o (a % 2 ^ s.addrWidth) (d % 2 ^ s.width) s = latch o a d s := by
  rw [latch, effectiveAddress_mod h, truncUnit_mod, latch]

end Legal

/-! ## A latched state computes operands as the state before -/

@[simp] theorem latch_effectiveAddress (o : Op) (x y a : Nat) (s : State) :
    effectiveAddress a (latch o x y s) = effectiveAddress a s := rfl

@[simp] theorem latch_truncUnit (o : Op) (x y d : Nat) (s : State) : truncUnit d (latch o x y s) = truncUnit d s := rfl

theorem requireOpened_congr {f g : State → State} {s : State} (h : f s = g s) :
    requireOpened f s = requireOpened g s := by
  rw [requireOpened, requireOpened, h]

theorem requireWritable_congr {f g : State → State} {s : State} (h : f s = g s) :
    requireWritable f s = requireWritable g s :=
  requireOpened_congr (by rw [requireWriteEnabled, requireWriteEnabled, h])

/-- Settles O32: each of the four operations uses its operands through the latch, the mask and the truncation only. -/
theorem onlyMaskedOperandsMatter : Obligations.OnlyMaskedOperandsMatter := by
  intro s a d h
  refine ⟨congrArg Host.Outcome.next (requireWritable_congr ?_), congrArg Host.Outcome.next (requireOpened_congr ?_),
    congrArg Host.Outcome.next (requireWritable_congr ?_), congrArg Host.Outcome.next (requireWritable_congr ?_)⟩
  all_goals simp only [latch_mod h, latch_effectiveAddress, latch_truncUnit, effectiveAddress_mod h, truncUnit_mod]

end Sys2Proof.Machine
end

