-- ==== Sys2Proof/Proofs/ResponderStart.lean ====
section
/-! PROOF. The start of the reference responder after a successful OPEN (O59). -/

namespace Sys2Proof.Machine

open Sys2Proof

theorem modelOfRaw_modelRaw (m : Model) : modelOfRaw (modelRaw m) = some m := by
  cases m <;> rfl

theorem exec_openDev_of_closed {s : State} (hclosed : s.opened = false) (m : Model) (o : Organization) :
    exec (.openDev (modelRaw m) o) s = .next (openWith m o s) := by
  simp [exec, execOpenDev, openCommand, hclosed, modelOfRaw_modelRaw]

/-- The capacity register holds what was resolved, with no bit lost (rule R110). -/
theorem openWith_capacityUnits (m : Model) (o : Organization) (s : State) :
    (openWith m o s).capacityUnits.toNat = (resolve m o).capacityUnits := by
  cases m <;> cases o <;> rfl

theorem openWith_addressBits (m : Model) (o : Organization) (s : State) :
    (openWith m o s).addressBits.toNat = (resolve m o).addressBits := by
  cases m <;> cases o <;> rfl

/-- OPEN moves no pin (rule R110). -/
theorem openWith_pinLevels (m : Model) (o : Organization) (s : State) : (openWith m o s).pinLevels = s.pinLevels :=
  congrArg StepFrame.pinLevels (openWith_stepFrame m o s)

/-- The responder assumed for an engine with resting pins is ready if its array fits (rule R67). -/
theorem assumeResponder_chipReady {s : State} {mem : Memory} {b : Nat} {ds : List Nat}
    (h : (Chip.initial s.model s.organization mem b ds).wf) :
    (assumeResponder mem b ds s).chipReady (Chip.initial s.model s.organization mem b ds) :=
  ⟨rfl, rfl, rfl, h, rfl, rfl, rfl⟩

/-- Settles O59: the responder is `Chip.initial` with the profile that OPEN has loaded, and OPEN moves no pin. -/
theorem responderStartsAsOpened : Obligations.ResponderStartsAsOpened := by
  intro s m o mem b ds hclosed hpins hwf
  obtain ⟨hcs, hsk, hdi⟩ := PinLevels.mk.inj ((openWith_pinLevels m o s).trans hpins)
  refine ⟨openWith m o s, Chip.initial m o mem b ds, exec_openDev_of_closed hclosed m o, rfl,
    assumeResponder_chipReady hwf, (openWith_capacityUnits m o s).symm, (openWith_addressBits m o s).symm, rfl, ?_⟩
  exact ⟨rfl, rfl, rfl, rfl, rfl, hcs.symm, hsk.symm, hdi.symm, rfl⟩

end Sys2Proof.Machine
end

