-- ==== Sys2Proof/Proofs/ResponderBits.lean ====
section
/-! PROOF. The responder under the engine's events (rules R68 and R69): it collects the transmitted bits at the rising clock edges, performs the
operation they encode when chip-select falls, and answers the samples of a READ and of a ready-poll. -/

namespace Sys2Proof.Machine

open Sys2Proof

/-! ## Events -/

/-- The responder's reaction to an event: to pin writes only (rule R68). -/
def Chip.sees (c : Chip) : Event → Chip
  | .pinWrite p l => c.onPinWrite p l
  | .pinRead _ | .delay _ | .cfgOut _ | .cfgInDO => c

theorem observe_chip (e : Env) (ev : Event) : (e.observe ev).chip = e.chip.map (fun c => c.sees ev) := by
  cases ev with
  | pinWrite p l => rfl
  | pinRead l | delay k | cfgOut p | cfgInDO => exact Option.map_id'.symm

theorem emit_chip {s : State} {c : Chip} (h : s.env.chip = some c) (ev : Event) :
    (emit ev s).env.chip = some (c.sees ev) := by
  rw [emit_env, observe_chip, h, Option.map_some]

theorem emitAll_chip {s : State} {c : Chip} (h : s.env.chip = some c) (es : List Event) :
    (emitAll es s).env.chip = some (es.foldl Chip.sees c) := by
  induction es generalizing s c with
  | nil => exact h
  | cons ev es ih => exact ih (emit_chip h ev)

/-! ## The stages of a chip-select period -/

/-- `c` in its shift mode between two clock pulses, with these bits collected and this level on DI. -/
def Chip.shifting (c : Chip) (bits : List Level) (d : Level) : Chip :=
  { c with csL := .high, skL := .low, mode := .shift, bits := bits, diL := d }

/-- `c` in its shift mode while the clock is `High`. -/
def Chip.clockHigh (c : Chip) (bits : List Level) (d : Level) : Chip :=
  { c.shifting bits d with skL := .high }

/-- `c` in its status mode, busy for `n` more samples. -/
def Chip.reporting (c : Chip) (n : Nat) (d : Level) : Chip :=
  { c with csL := .high, skL := .low, mode := .status, bits := [], busyLeft := n, diL := d }

/-- `c` between two chip-select periods, with the bits of the last one and this level on DI. -/
def Chip.resting (c : Chip) (bits : List Level) (d : Level) : Chip :=
  { c with csL := .low, skL := .low, mode := .off, bits := bits, diL := d }

/-- Chip-select rises with nothing pending: a frame begins. -/
theorem sees_select {c : Chip} (hcs : c.csL = .low) (hsk : c.skL = .low) (hpending : c.pending = false) :
    c.sees (.pinWrite .cs .high) = c.shifting [] c.diL := by
  simp [Chip.sees, Chip.onPinWrite, Chip.selected, Chip.shifting, hcs, hsk, hpending]

/-- Chip-select rises after a write-class frame: the chip reports. -/
theorem sees_select_of_pending {c : Chip} (hpending : c.pending = true) (bits : List Level) (d : Level) :
    (c.resting bits d).sees (.pinWrite .cs .high) = c.reporting c.busyLeft d := by
  simp [Chip.sees, Chip.onPinWrite, Chip.selected, Chip.resting, Chip.reporting, hpending]

/-- The clock rises after the start marker: the chip takes the level of DI. -/
theorem sees_clockRise (c : Chip) {bits : List Level} {d : Level} (h : bits ≠ [] ∨ d = .high) :
    (c.shifting bits d).sees (.pinWrite .sk .high) = c.clockHigh (bits ++ [d]) d := by
  have hstart : ¬(bits = [] ∧ d = .low) := by
    rintro ⟨rfl, rfl⟩
    simp at h
  simp [Chip.sees, Chip.shifting, Chip.clockHigh, Chip.onPinWrite, Chip.clocked, hstart]

/-- One transmitted bit (rule R130). -/
theorem sees_sendBit (c : Chip) {bits : List Level} {b : Level} (d : Level) (h : bits ≠ [] ∨ b = .high) :
    (sendBitEvents b).foldl Chip.sees (c.shifting bits d) = c.shifting (bits ++ [b]) b := by
  calc (sendBitEvents b).foldl Chip.sees (c.shifting bits d)
      _ = ((c.shifting bits b).sees (.pinWrite .sk .high)).sees (.pinWrite .sk .low) := rfl
      _ = (c.clockHigh (bits ++ [b]) b).sees (.pinWrite .sk .low) := by rw [sees_clockRise c h]
      _ = c.shifting (bits ++ [b]) b := rfl

/-- A transmitted bit string, the start marker in front or already taken. -/
theorem sees_sendTrace (c : Chip) {sent : List Level} (bits : List Level) (d : Level)
    (h : bits ≠ [] ∨ sent.head? = some .high) :
    (sendTrace sent).foldl Chip.sees (c.shifting bits d) = c.shifting (bits ++ sent) (sent.getLastD d) := by
  induction sent generalizing bits d with
  | nil => simp [sendTrace]
  | cons b sent ih =>
    have hb : bits ≠ [] ∨ b = .high := h.imp_right Option.some.inj
    rw [sendTrace_cons, List.foldl_append, sees_sendBit c d hb, ih _ _ (.inl (by simp)), List.append_assoc,
      List.singleton_append, List.getLastD_cons]

theorem store_resting (c : Chip) (m : Memory) (bits : List Level) (d : Level) :
    { Chip.store { c.shifting bits d with csL := .low } m with mode := .off } = (c.store m).resting bits d := by
  cases c with
  | mk _ _ _ latch => cases latch <;> rfl

/-- What an operation does to the chip does not depend on the stage of the chip-select period. -/
theorem perform_resting (c : Chip) (b : BusOp) (bits : List Level) (d : Level) :
    { Chip.perform { c.shifting bits d with csL := .low } b with mode := .off } = (c.perform b).resting bits d := by
  cases b with
  | enable | disable | read => rfl
  | eraseAll | writeAll | write | erase => exact store_resting c ..

theorem execute_of_decodeBus {c : Chip} {bits : List Level} {b : BusOp}
    (h : decodeBus c.addrBits c.width bits = some b) : c.execute bits = c.perform b := by
  rw [Chip.execute, h]

/-- Chip-select falls: the chip performs the operation that it has read (rule R70). -/
theorem sees_deselect (c : Chip) {bits : List Level} {b : BusOp} (d : Level)
    (h : decodeBus c.addrBits c.width bits = some b) :
    (c.shifting bits d).sees (.pinWrite .cs .low) = (c.perform b).resting bits d := by
  have hexec : Chip.execute { c.shifting bits d with csL := .low } bits =
      Chip.perform { c.shifting bits d with csL := .low } b := execute_of_decodeBus h
  rw [← perform_resting, ← hexec]
  rfl

/-- Chip-select falls at the end of a ready-poll: the busy time is over (rule R68). -/
theorem sees_deselect_of_reporting (c : Chip) (d : Level) :
    (c.reporting 0 d).sees (.pinWrite .cs .low) = { c with pending := false, busyLeft := 0 }.resting [] d := rfl

/-! ## Samples -/

theorem drivenLevel_reporting_zero (c : Chip) (d : Level) : (c.reporting 0 d).drivenLevel = some .high := rfl

theorem drivenLevel_reporting_succ (c : Chip) (n : Nat) (d : Level) :
    (c.reporting (n + 1) d).drivenLevel = some .low := rfl

section Reading

variable {c : Chip} {f : Nat} {past : List Level}

theorem clocksPast_clockHigh (d : Level) : (c.clockHigh (busBits c.addrBits 2 f past) d).clocksPast = past.length :=
  Nat.sub_eq_of_eq_add' length_busBits

theorem drivesData_clockHigh (d : Level) (hpos : 0 < past.length) (hle : past.length ≤ c.width) :
    (c.clockHigh (busBits c.addrBits 2 f past) d).drivesData = true := by
  refine decide_eq_true ⟨rfl, ?_, opcode_of_busBits (by decide), (clocksPast_clockHigh d).trans_le hle⟩
  exact (Nat.lt_add_of_pos_right hpos).trans_eq length_busBits.symm

/-- After the `k`-th clock past a READ's field, the chip drives bit `W - k` of the addressed unit (rule R69). -/
theorem drivenLevel_clockHigh (d : Level) (hf : f < 2 ^ c.addrBits) (hpos : 0 < past.length)
    (hle : past.length ≤ c.width) :
    (c.clockHigh (busBits c.addrBits 2 f past) d).drivenLevel =
      some (Level.ofBool ((c.mem.read (f % c.cap)).getLsbD (c.width - past.length))) := by
  have hmode : (c.clockHigh (busBits c.addrBits 2 f past) d).mode ≠ .status := nofun
  have hbit : (c.clockHigh (busBits c.addrBits 2 f past) d).readBit past.length =
      Level.ofBool ((c.mem.read (bitsValue (((busBits c.addrBits 2 f past).drop 3).take c.addrBits) % c.cap)).getLsbD
        (c.width - past.length)) := rfl
  rw [Chip.drivenLevel, if_neg hmode, if_pos (drivesData_clockHigh d hpos hle), clocksPast_clockHigh, hbit,
    field_of_busBits hf]

end Reading

theorem sampled_clockHigh (c : Chip) (bits : List Level) (d : Level) :
    (c.clockHigh bits d).sampled = c.clockHigh bits d := rfl

/-- A sample that the responder decides: it gives that level and moves the responder on. -/
theorem sampleDO_of_driven {s : State} {c : Chip} {l : Level} (hchip : s.env.chip = some c)
    (hdriven : c.drivenLevel = some l) : doLevel s = l ∧ (sampleDO s).env.chip = some c.sampled := by
  simp [doLevel, Env.level, sampleDO_eq, Env.answered, hchip, hdriven]

end Sys2Proof.Machine
end

