-- ==== Sys2Proof/Proofs/BusTransaction.lean ====
section
/-! PROOF. A whole transaction with the responder as environment: whatever the bus operation, the responder performs it, and a READ leaves the
addressed unit in `rx`; a ready-poll after it ends with `OK`. -/

namespace Sys2Proof.Machine

open Sys2Proof

/-! ## Frames as numbers -/

section Frames

variable {s : State} (h : s.profileLegal)
include h

/-- A frame of `A + 2` bits fits the shift register (rule R88). -/
theorem frame_lt {opcode field : Nat} (hop : opcode < 4) (hf : field < 2 ^ s.addrWidth) :
    2 ^ s.addrWidth * opcode + field < 2 ^ 16 := by
  calc 2 ^ s.addrWidth * opcode + field
      _ < 2 ^ s.addrWidth * (opcode + 1) := by rw [Nat.mul_add_one]; omega
      _ ≤ 2 ^ 11 * 4 := Nat.mul_le_mul (Nat.le_of_dvd (by decide) (two_pow_addrWidth_dvd h)) hop
      _ < 2 ^ 16 := by decide

theorem controlFrame_toNat {sub : Nat} (hsub : sub < 4) :
    (controlFrame sub s).toNat = 2 ^ s.addrWidth * 0 + 2 ^ (s.addrWidth - 2) * sub := by
  have hlt := frame_lt h (opcode := 0) (by decide) (subCode_lt (two_le_addrWidth h) hsub)
  rw [controlFrame, Nat.shiftLeft_eq, Nat.mul_comm sub, BitVec.toNat_ofNat, Nat.mod_eq_of_lt (by omega)]
  omega

theorem addressFrame_toNat {opcode f : Nat} (hop : opcode < 4) (hf : f < 2 ^ s.addrWidth) :
    (addressFrame opcode (BitVec.ofNat 11 f) s).toNat = 2 ^ s.addrWidth * opcode + f := by
  rw [addressFrame, BitVec.toNat_ofNat, BitVec.toNat_ofNat, Nat.mod_eq_of_lt (field_lt_addr h hf),
    ← Nat.shiftLeft_add_eq_or_of_lt hf, Nat.shiftLeft_eq, Nat.mul_comm opcode, Nat.mod_eq_of_lt (frame_lt h hop hf)]

end Frames

/-- The frame that the engine sends for a bus operation (rules R83 to R88). -/
def busFrame (s : State) : BusOp → BitVec 16
  | .enable => controlFrame 0b11 s
  | .disable => controlFrame 0b00 s
  | .eraseAll => controlFrame 0b10 s
  | .writeAll _ => controlFrame 0b01 s
  | .write f _ => addressFrame 0b01 (BitVec.ofNat 11 f) s
  | .read f => addressFrame 0b10 (BitVec.ofNat 11 f) s
  | .erase f => addressFrame 0b11 (BitVec.ofNat 11 f) s

/-- The direction of its payload (rule R89). -/
def busKind : BusOp → Payload
  | .writeAll _ | .write _ _ => .tx
  | .read _ => .rx
  | .enable | .disable | .eraseAll | .erase _ => .none

/-- The transmitted unit (rule R86). -/
def busData : BusOp → BitVec 16
  | .writeAll d | .write _ d => BitVec.ofNat 16 d
  | .enable | .disable | .eraseAll | .read _ | .erase _ => 0

/-- The transaction of a bus operation (rule R138). -/
def transactBus (b : BusOp) (s : State) : State := transact (busFrame s b) (busKind b) (busData b) s

theorem busFrame_toNat {s : State} (h : s.profileLegal) {W : Nat} {b : BusOp} (hb : b.wf s.addrWidth W = true) :
    (busFrame s b).toNat = 2 ^ s.addrWidth * b.opcode + b.field s.addrWidth := by
  cases b with
  | enable | disable | eraseAll | writeAll => exact controlFrame_toNat h (by decide)
  | write => exact addressFrame_toNat h (by decide) (of_decide_eq_true hb).1
  | read | erase => exact addressFrame_toNat h (by decide) (of_decide_eq_true hb)

theorem busBits_append (A opcode field : Nat) (bits more : List Level) :
    busBits A opcode field bits ++ more = busBits A opcode field (bits ++ more) := by
  simp [busBits]

/-! ## The responder in the course of a transaction -/

/-- The environment is the responder `c`, selected, with these bits taken. -/
def State.collects (s : State) (c : Chip) (bits : List Level) : Prop :=
  ∃ d, s.env.chip = some (c.shifting bits d)

/-- The environment is the responder `c` between two chip-select periods. -/
def State.restsWith (s : State) (c : Chip) : Prop :=
  ∃ bits d, s.env.chip = some (c.resting bits d)

@[simp] theorem complete_restsWith (st : Status) (r : BitVec 16) (s : State) (c : Chip) :
    (complete st r s).restsWith c ↔ s.restsWith c := Iff.rfl

@[simp] theorem setWriteEnabled_restsWith (v : Bool) (s : State) (c : Chip) :
    (setWriteEnabled v s).restsWith c ↔ s.restsWith c := Iff.rfl

theorem sendBits_env (v : BitVec 16) (n : Nat) (s : State) :
    (sendBits v n s).env = (emitAll (sendTrace (bitsMsb n v.toNat)) s).env := by
  rcases Nat.eq_zero_or_pos n with rfl | hn
  · rfl
  · rw [sendBits_eq v n hn.ne']

theorem sendBits_collects {s : State} {c : Chip} {bits : List Level} (v : BitVec 16) (n : Nat)
    (h : s.collects c bits) (hstart : bits ≠ [] ∨ (bitsMsb n v.toNat).head? = some .high) :
    (sendBits v n s).collects c (bits ++ bitsMsb n v.toNat) := by
  obtain ⟨d, hd⟩ := h
  exact ⟨_, by rw [sendBits_env, emitAll_chip hd, sees_sendTrace c bits d hstart]⟩

/-- The start marker is sent and taken (rules R80 and R134). -/
theorem beginTransaction_collects {s : State} {c : Chip} (h : s.chipReady c) :
    (beginTransaction s).collects c [.high] := by
  obtain ⟨hchip, -, -, -, hcs, hsk, hpending⟩ := h
  refine sendBits_collects (bits := []) 1 1 ⟨c.diL, ?_⟩ (.inr rfl)
  exact (emit_chip hchip (.pinWrite .cs .high)).trans (congrArg some (sees_select hcs hsk hpending))

/-- The frame is sent and taken (rule R138). -/
theorem sendFrame_collects {s : State} {c : Chip} {frame : BitVec 16} {opcode field : Nat}
    (h : s.collects c [.high]) (hf : field < 2 ^ s.addrWidth)
    (hframe : frame.toNat = 2 ^ s.addrWidth * opcode + field) :
    (sendFrame frame s).collects c (busBits s.addrWidth opcode field []) := by
  have hbits : busBits s.addrWidth opcode field [] = [.high] ++ bitsMsb (s.addrWidth + 2) frame.toNat := by
    rw [hframe, Nat.add_comm, bitsMsb_append 2 opcode hf, busBits, List.append_nil, List.singleton_append]
  rw [hbits]
  exact sendBits_collects frame (s.addrWidth + 2) h (.inl (by simp))

/-- Chip-select falls after an operation's bits. -/
theorem endTransaction_restsWith {s : State} {c : Chip} {bits : List Level} {b : BusOp} (h : s.collects c bits)
    (hdecode : decodeBus c.addrBits c.width bits = some b) : (endTransaction s).restsWith (c.perform b) := by
  obtain ⟨d, hd⟩ := h
  exact ⟨bits, d, (emit_chip hd _).trans (congrArg some (sees_deselect c d hdecode))⟩

/-! ## The data bits of a READ -/

theorem receiveBit_rx (n : Nat) (s : State) : (receiveBit n s).rx =
    s.rx ||| BitVec.ofNat 16 ((doLevel (delay .rx (writePin .sk .high s))).toNat <<< n) := rfl

/-- One sample of a READ: the responder puts the counted bit of its unit on DO (rules R69 and R132). -/
theorem receiveBit_reads {s : State} {c : Chip} {f n : Nat} {past : List Level}
    (h : s.collects c (busBits c.addrBits 2 f past)) (hf : f < 2 ^ c.addrBits) (hn : past.length + (n + 1) = c.width) :
    (∃ l, (receiveBit n s).collects c (busBits c.addrBits 2 f (past ++ [l]))) ∧
      (receiveBit n s).rx = s.rx ||| BitVec.ofNat 16 (((c.mem.read (f % c.cap)).getLsbD n).toNat <<< n) := by
  obtain ⟨d, hd⟩ := h
  have hlen : (past ++ [d]).length = past.length + 1 := by simp
  have hindex : c.width - (past ++ [d]).length = n := by omega
  have hrise : (delay .rx (writePin .sk .high s)).env.chip =
      some (c.clockHigh (busBits c.addrBits 2 f (past ++ [d])) d) := by
    rw [← busBits_append, ← sees_clockRise c (.inl (by simp [busBits]))]
    exact emit_chip (emit_chip hd (.pinWrite .sk .high)) (.delay .rx)
  obtain ⟨hlevel, hsampled⟩ :=
    sampleDO_of_driven hrise (drivenLevel_clockHigh d hf (by omega) (by omega))
  rw [sampled_clockHigh] at hsampled
  refine ⟨⟨d, d, emit_chip (emit_chip hsampled (.pinWrite .sk .low)) (.delay .rx)⟩, ?_⟩
  rw [receiveBit_rx, hlevel, hindex, toNat_ofBool]

theorem receiveLoop_reads {s : State} {c : Chip} {f n : Nat} {past : List Level}
    (h : s.collects c (busBits c.addrBits 2 f past)) (hf : f < 2 ^ c.addrBits) (hn : past.length + n = c.width) :
    (∃ all, (receiveLoop n s).collects c (busBits c.addrBits 2 f all)) ∧
      (receiveLoop n s).rx = s.rx ||| BitVec.ofNat 16 ((c.mem.read (f % c.cap)).toNat % 2 ^ n) := by
  induction n generalizing s past with
  | zero => exact ⟨⟨past, h⟩, by simp [receiveLoop, Nat.mod_one]⟩
  | succ n ih =>
    obtain ⟨⟨l, hbit⟩, hrx⟩ := receiveBit_reads h hf hn
    obtain ⟨hall, hloop⟩ := ih hbit (by simp; omega)
    refine ⟨hall, ?_⟩
    rw [receiveLoop, hloop, hrx, BitVec.or_assoc, ← BitVec.ofNat_or, BitVec.getLsbD, testBit_shiftLeft_or_mod]

theorem cellsRead_cases (dflt : BitVec 16) (a : Nat) (cells : List (Nat × BitVec 16)) :
    cellsRead dflt a cells = dflt ∨ ∃ x ∈ cells, cellsRead dflt a cells = x.2 := by
  induction cells with
  | nil => exact .inl rfl
  | cons x rest ih =>
    rw [cellsRead]
    split
    · exact .inr ⟨x, List.mem_cons_self .., rfl⟩
    · exact ih.imp_right fun ⟨y, hy, h⟩ => ⟨y, List.mem_cons_of_mem _ hy, h⟩

/-- Every unit of a meaningful responder fits its width (rule R67). -/
theorem Chip.read_lt {c : Chip} (h : c.wf) (u : Nat) : (c.mem.read u).toNat < 2 ^ c.width := by
  obtain ⟨-, hfill, hcells⟩ := h
  obtain hu | ⟨x, hx, hu⟩ := cellsRead_cases c.mem.fill u c.mem.cells
  · rwa [Memory.read, hu]
  · rw [Memory.read, hu]
    exact (hcells x hx).2

theorem receiveBits_reads {s : State} {c : Chip} {f : Nat} (hwf : c.wf)
    (h : s.collects c (busBits c.addrBits 2 f [])) (hf : f < 2 ^ c.addrBits) :
    (∃ all, (receiveBits c.width s).collects c (busBits c.addrBits 2 f all)) ∧
      (receiveBits c.width s).rx = c.mem.read (f % c.cap) := by
  have hstart : ({ s with rx := 0, cnt := BitVec.ofNat 5 c.width } : State).collects c
    (busBits c.addrBits 2 f []) := h
  obtain ⟨hall, hrx⟩ := receiveLoop_reads hstart hf (Nat.zero_add _)
  refine ⟨hall, hrx.trans ?_⟩
  simp [Nat.mod_eq_of_lt (Chip.read_lt hwf _)]

/-! ## What the registers of OPEN decide -/

section OpenRegs

variable {s t : State} (h : t.openRegs = s.openRegs)
include h

theorem opened_of_openRegs (hopen : s.opened = true) : t.opened = true := (congrArg OpenRegs.opened h).trans hopen

theorem pollLimit_of_openRegs (hlimit : s.pollLimit = none) : t.pollLimit = none :=
  (congrArg OpenRegs.pollLimit h).trans hlimit

theorem addrWidth_of_openRegs : t.addrWidth = s.addrWidth := congrArg (fun x : OpenRegs => x.addressBits.toNat) h

theorem width_of_openRegs : t.width = s.width := congrArg (fun x : OpenRegs => unitWidth x.organization) h

theorem profileLegal_of_openRegs (hlegal : s.profileLegal) : t.profileLegal := by
  obtain ⟨hmodel, horg, hcap, hbits, hmask, -⟩ := OpenRegs.mk.inj h
  rwa [State.profileLegal, hmodel, horg, hcap, hbits, hmask]

/-- Two responders that are ready for the same profile have the same capacity. -/
theorem cap_of_openRegs {c c' : Chip} (hready : s.chipReady c) (hready' : t.chipReady c') : c'.cap = c.cap := by
  obtain ⟨hmodel, horg, -⟩ := OpenRegs.mk.inj h
  obtain ⟨-, hm, ho, -⟩ := hready
  obtain ⟨-, hm', ho', -⟩ := hready'
  rw [Chip.cap, Chip.cap, hm', ho', hmodel, horg, hm, ho]

end OpenRegs

/-! ## The whole transaction -/

/-- A ready responder is the chip that the engine's profile is for (rule R67). -/
theorem addrBits_of_chipReady {s : State} {c : Chip} (hlegal : s.profileLegal) (h : s.chipReady c) :
    c.addrBits = s.addrWidth := by
  obtain ⟨-, hmodel, horg, -⟩ := h
  rw [Chip.addrBits, hmodel, horg, addrWidth_eq_resolve hlegal]

theorem chip_wf_of_chipReady {s : State} {c : Chip} : s.chipReady c → c.wf :=
  fun ⟨_, _, _, hwf, _⟩ => hwf

theorem pending_of_chipReady {s : State} {c : Chip} : s.chipReady c → c.pending = false :=
  fun ⟨_, _, _, _, _, _, hpending⟩ => hpending

theorem width_of_chipReady {s : State} {c : Chip} (h : s.chipReady c) : c.width = s.width := by
  obtain ⟨-, -, horg, -⟩ := h
  rw [Chip.width, horg, State.width]

theorem Chip.addrBits_bounds (c : Chip) : 6 ≤ c.addrBits ∧ c.addrBits ≤ 11 := resolve_addressBits_bounds ..

/-- The transmitted unit reaches the responder with no bit lost (rule R86). -/
theorem bitsMsb_ofNat {W d : Nat} (hd : d < 2 ^ W) (hW : W ≤ 16) :
    bitsMsb W (BitVec.ofNat 16 d).toNat = bitsMsb W d := by
  have : d < 2 ^ 16 := hd.trans_le (Nat.pow_le_pow_right (by decide) hW)
  rw [BitVec.toNat_ofNat, Nat.mod_eq_of_lt this]

section Transaction

variable {s : State} {c : Chip} {b : BusOp}

/-- The frame of every bus operation reaches the responder as its opcode and field. -/
theorem sendFrame_collects_busFrame (hlegal : s.profileLegal) (h : s.chipReady c)
    (hb : b.wf s.addrWidth s.width = true) :
    (sendFrame (busFrame s b) (beginTransaction s)).collects c
      (busBits c.addrBits b.opcode (b.field c.addrBits) []) := by
  have hA : (beginTransaction s).addrWidth = s.addrWidth :=
    addrWidth_of_openRegs (congrArg Settings.openRegs (beginTransaction_settings s))
  rw [addrBits_of_chipReady hlegal h, ← hA]
  refine sendFrame_collects (beginTransaction_collects h) ?_ ?_
  · rw [hA]
    exact BusOp.field_lt (two_le_addrWidth hlegal) hb
  · rw [hA]
    exact busFrame_toNat hlegal hb

theorem sendPayload_collects {d opcode field : Nat} (hd : d < 2 ^ c.width) (hwidth : s.width = c.width)
    (h : s.collects c (busBits c.addrBits opcode field [])) :
    (movePayload .tx (BitVec.ofNat 16 d) s).collects c (busBits c.addrBits opcode field (bitsMsb c.width d)) := by
  have hseg : ({ s with seg := .payload } : State).collects c (busBits c.addrBits opcode field []) := h
  have hbits : busBits c.addrBits opcode field (bitsMsb c.width d) =
      busBits c.addrBits opcode field [] ++ bitsMsb s.width (BitVec.ofNat 16 d).toNat := by
    rw [hwidth, bitsMsb_ofNat hd c.width_le, busBits_append, List.nil_append]
  rw [hbits]
  exact sendBits_collects (BitVec.ofNat 16 d) s.width hseg (.inl (by simp [busBits]))

/-- After the payload the responder has bits that it reads as the operation. -/
theorem movePayload_collects (hwf : c.wf) (hb : b.wf c.addrBits c.width = true) (hwidth : s.width = c.width)
    (h : s.collects c (busBits c.addrBits b.opcode (b.field c.addrBits) [])) :
    ∃ bits, (movePayload (busKind b) (busData b) s).collects c bits ∧
      decodeBus c.addrBits c.width bits = some b := by
  have hA : 2 ≤ c.addrBits := le_trans (by decide) c.addrBits_bounds.1
  have hdecode := decodeBus_encodeBus hA hb
  rw [encodeBus_eq hA] at hdecode
  cases b with
  | enable | disable | eraseAll | erase => exact ⟨_, h, hdecode⟩
  | writeAll d => exact ⟨_, sendPayload_collects (of_decide_eq_true hb) hwidth h, hdecode⟩
  | write f d => exact ⟨_, sendPayload_collects (of_decide_eq_true hb).2 hwidth h, hdecode⟩
  | read f =>
    obtain ⟨⟨all, hall⟩, -⟩ := receiveBits_reads hwf h (of_decide_eq_true hb)
    rw [← hwidth] at hall
    exact ⟨_, hall, decodeBus_read (of_decide_eq_true hb)⟩

theorem width_sendFrame (h : s.chipReady c) :
    (sendFrame (busFrame s b) (beginTransaction s)).width = c.width := by
  rw [width_of_chipReady h]
  exact width_of_openRegs (congrArg Settings.openRegs ((sendFrame_settings ..).trans (beginTransaction_settings s)))

variable (hlegal : s.profileLegal) (h : s.chipReady c) (hb : b.wf s.addrWidth s.width = true)
include hlegal h hb

theorem wf_of_chipReady : b.wf c.addrBits c.width = true := by
  rwa [addrBits_of_chipReady hlegal h, width_of_chipReady h]

/-- The responder performs the operation whose transaction the engine runs (rule R70). -/
theorem transactBus_restsWith : (transactBus b s).restsWith (c.perform b) := by
  obtain ⟨bits, hbits, hdecode⟩ := movePayload_collects (chip_wf_of_chipReady h) (wf_of_chipReady hlegal h hb)
    (width_sendFrame h) (sendFrame_collects_busFrame hlegal h hb)
  exact endTransaction_restsWith hbits hdecode

end Transaction

/-- A READ leaves the addressed unit in `rx` (rules R69 and R181). -/
theorem transactBus_read_rx {s : State} {c : Chip} {f : Nat} (hlegal : s.profileLegal) (h : s.chipReady c)
    (hf : f < 2 ^ s.addrWidth) : (transactBus (.read f) s).rx = c.mem.read (f % c.cap) := by
  have hb : BusOp.wf s.addrWidth s.width (.read f) = true := decide_eq_true hf
  obtain ⟨-, hrx⟩ := receiveBits_reads (chip_wf_of_chipReady h) (sendFrame_collects_busFrame hlegal h hb)
    (of_decide_eq_true (wf_of_chipReady hlegal h hb))
  rwa [← width_sendFrame h] at hrx

/-! ## The ready-poll after it -/

/-- With no limit, a sample that is `Low` is followed by the next one (rule R137). -/
theorem pollLoop_of_low {s : State} (hlimit : s.pollLimit = none) (hlow : doLevel s = .low) (fuel : Nat) :
    pollLoop (fuel + 1) s = pollLoop fuel (delay .poll (pollOnce s)) := by
  have hnolimit : limitReached (pollOnce s) = false := by
    rw [limitReached, show (pollOnce s).pollLimit = none from hlimit]
  simp [pollLoop, hlow, hnolimit]

/-- A busy responder answers `Low` for its busy time and then `High` (rules R69 and R136). -/
theorem pollLoop_of_reporting {s : State} {c : Chip} {n : Nat} {d : Level} (hlimit : s.pollLimit = none)
    (h : s.env.chip = some (c.reporting n d)) :
    ∃ u, pollLoop (n + 1) s = (.ready, u) ∧ u.env.chip = some (c.reporting 0 d) := by
  induction n generalizing s with
  | zero =>
    obtain ⟨hhigh, hsampled⟩ := sampleDO_of_driven h (drivenLevel_reporting_zero c d)
    exact ⟨pollOnce s, by rw [pollLoop, if_pos hhigh], hsampled⟩
  | succ n ih =>
    obtain ⟨hlow, hsampled⟩ := sampleDO_of_driven h (drivenLevel_reporting_succ c n d)
    rw [pollLoop_of_low hlimit hlow]
    exact ih hlimit (emit_chip hsampled (.delay .poll))

/-- A ready-poll of a responder that has stored something completes with `OK`, whatever its busy time (rules R70 and R136). -/
theorem pollReady_of_pending {s : State} {c : Chip} (hlimit : s.pollLimit = none) (hpending : c.pending = true)
    (h : s.restsWith c) :
    (pollReady s).status = .ok ∧ (pollReady s).phase = .idle ∧
      (pollReady s).restsWith { c with pending := false, busyLeft := 0 } := by
  obtain ⟨bits, d, hd⟩ := h
  have hstart : (pollStart s).env.chip = some (c.reporting c.busyLeft d) :=
    (emit_chip hd _).trans (congrArg some (sees_select_of_pending hpending bits d))
  have hlimit' : (pollStart s).pollLimit = none := hlimit
  have hfuel : pollFuel (pollStart s) = c.busyLeft + 1 := by
    simp [pollFuel, hlimit', Env.horizon, hstart, Chip.reporting]
  obtain ⟨u, hloop, hu⟩ := pollLoop_of_reporting hlimit' hstart
  have hready : pollReady s = complete .ok 0 (writePin .cs .low u) := by
    simp only [pollReady, hfuel, hloop]
  rw [hready]
  exact ⟨rfl, rfl, [], d, (emit_chip hu _).trans (congrArg some (sees_deselect_of_reporting c d))⟩

end Sys2Proof.Machine
end

