-- ==== Sys2Proof/Proofs/ResponderArray.lean ====
section
/-! PROOF. The commands with the responder as environment: each runs the transaction of its bus operation, so the array changes as the
operation says (O53 to O56), and a value written is read back (O57). -/

namespace Sys2Proof.Machine

open Sys2Proof

/-! ## The commands as transactions -/

theorem requireOpened_of_opened {s : State} (hopen : s.opened = true) (body : State → State) :
    requireOpened body s = body s := if_pos hopen

theorem requireWritable_of_enabled {s : State} (hopen : s.opened = true) (hwe : s.writeEnabled = true)
    (body : State → State) : requireWritable body s = body s := by
  rw [requireWritable, requireOpened_of_opened hopen, requireWriteEnabled, if_pos hwe]

section Exec

variable {s : State} (a d : Nat)

theorem exec_enable_eq (hopen : s.opened = true) : exec (.enable a d) s =
    .next (complete .ok 0 (setWriteEnabled true (transactBus .enable (latch .enable a d s)))) :=
  congrArg Host.Outcome.next (requireOpened_of_opened hopen _)

theorem exec_disable_eq (hopen : s.opened = true) : exec (.disable a d) s =
    .next (complete .ok 0 (setWriteEnabled false (transactBus .disable (latch .disable a d s)))) :=
  congrArg Host.Outcome.next (requireOpened_of_opened hopen _)

theorem exec_read_eq (hopen : s.opened = true) (hlegal : s.profileLegal) : exec (.read a d) s =
    .next (complete .ok (transactBus (.read (a % 2 ^ s.addrWidth)) (latch .read a d s)).rx
      (transactBus (.read (a % 2 ^ s.addrWidth)) (latch .read a d s))) := by
  refine congrArg Host.Outcome.next ((requireOpened_of_opened hopen _).trans ?_)
  simp only [latch_effectiveAddress, effectiveAddress_eq hlegal]
  rfl

theorem exec_eraseAll_eq (hopen : s.opened = true) (hwe : s.writeEnabled = true) : exec (.eraseAll a d) s =
    .next (pollReady (transactBus .eraseAll (latch .eraseAll a d s))) :=
  congrArg Host.Outcome.next (requireWritable_of_enabled hopen hwe _)

theorem exec_writeAll_eq (hopen : s.opened = true) (hwe : s.writeEnabled = true) : exec (.writeAll a d) s =
    .next (pollReady (transactBus (.writeAll (d % 2 ^ s.width)) (latch .writeAll a d s))) :=
  congrArg Host.Outcome.next (requireWritable_of_enabled hopen hwe _)

theorem exec_erase_eq (hopen : s.opened = true) (hwe : s.writeEnabled = true) (hlegal : s.profileLegal) :
    exec (.erase a d) s =
    .next (pollReady (transactBus (.erase (a % 2 ^ s.addrWidth)) (latch .erase a d s))) := by
  refine congrArg Host.Outcome.next ((requireWritable_of_enabled hopen hwe _).trans ?_)
  simp only [latch_effectiveAddress, effectiveAddress_eq hlegal]
  rfl

theorem exec_write_eq (hopen : s.opened = true) (hwe : s.writeEnabled = true) (hlegal : s.profileLegal) :
    exec (.write a d) s =
    .next (pollReady (transactBus (.write (a % 2 ^ s.addrWidth) (d % 2 ^ s.width)) (latch .write a d s))) := by
  refine congrArg Host.Outcome.next ((requireWritable_of_enabled hopen hwe _).trans ?_)
  simp only [latch_effectiveAddress, effectiveAddress_eq hlegal]
  rfl

end Exec

/-! ## The responder after a command -/

theorem perform_wf_of_wf {c : Chip} {A : Nat} {b : BusOp} (h : c.wf) (hb : b.wf A c.width = true) :
    (c.perform b).wf := by
  refine Chip.perform_wf h (fun d hd => ?_) (fun f d hd => ?_)
  · subst hd
    exact of_decide_eq_true hb
  · subst hd
    exact (of_decide_eq_true hb).2

/-- A responder at rest with nothing pending, of the same profile as the ready one before, is ready. -/
theorem chipReady_of_restsWith {s t : State} {c c' : Chip} (hready : s.chipReady c) (hregs : t.openRegs = s.openRegs)
    (h : t.restsWith c') (hmodel : c'.model = c.model) (horg : c'.organization = c.organization) (hwf : c'.wf)
    (hpending : c'.pending = false) :
    ∃ r : Chip, t.chipReady r ∧ r.ewLatch = c'.ewLatch ∧ r.mem = c'.mem := by
  obtain ⟨bits, d, hd⟩ := h
  obtain ⟨-, hm, ho, -⟩ := hready
  refine ⟨c'.resting bits d, ⟨hd, ?_, ?_, hwf, rfl, rfl, hpending⟩, rfl, rfl⟩
  · exact hmodel.trans (hm.trans (congrArg OpenRegs.model hregs).symm)
  · exact horg.trans (ho.trans (congrArg OpenRegs.organization hregs).symm)

section Commands

variable {s : State} {c : Chip} (hopen : s.opened = true) (hlegal : s.profileLegal) (hready : s.chipReady c)
include hopen hlegal hready

/-- A write-class command whose operation stores `m`: with the latch set it completes with `OK`, and the units are those of `m`. -/
theorem chipReady_of_store {i : Instr} {b : BusOp} {m : Memory} {o : Op} {a d : Nat} {units : Nat → BitVec 16}
    (hlimit : s.pollLimit = none) (hlatch : c.ewLatch = true)
    (hexec : exec i s = .next (pollReady (transactBus b (latch o a d s))))
    (hb : b.wf s.addrWidth s.width = true) (hperform : c.perform b = c.store m)
    (hunits : ∀ u, m.read u = units u) :
    ∃ (t : State) (c' : Chip), exec i s = .next t ∧ t.status = .ok ∧ t.phase = .idle ∧ t.chipReady c' ∧
      c'.ewLatch = true ∧ ∀ u, c'.mem.read u = units u := by
  have hrest := transactBus_restsWith (s := latch o a d s) hlegal hready hb
  have hwf : (c.perform b).wf := perform_wf_of_wf (chip_wf_of_chipReady hready) (wf_of_chipReady hlegal hready hb)
  have hstored : c.perform b = Chip.startBusy { c with mem := m } := hperform.trans (if_pos hlatch)
  rw [hstored] at hrest hwf
  have hlimit' : (transactBus b (latch o a d s)).pollLimit = none :=
    pollLimit_of_openRegs (congrArg Settings.openRegs (transact_settings ..)) hlimit
  obtain ⟨hstatus, hphase, hrest'⟩ := pollReady_of_pending hlimit' rfl hrest
  obtain ⟨c', hready', hlatch', hmem⟩ :=
    chipReady_of_restsWith hready (exec_openRegs_of_opened hopen hexec) hrest' rfl rfl hwf rfl
  exact ⟨_, c', hexec, hstatus, hphase, hready', hlatch'.trans hlatch, fun u => hmem ▸ hunits u⟩

/-- A command without a ready-poll leaves a ready responder that has performed its operation. -/
theorem chipReady_of_perform (b : BusOp) {t : State} {i : Instr} (hexec : exec i s = .next t)
    (hrest : t.restsWith (c.perform b)) (hb : b.wf s.addrWidth s.width = true) (hgated : busGated b = false) :
    ∃ c' : Chip, t.chipReady c' ∧ c'.ewLatch = (c.perform b).ewLatch ∧ c'.mem = c.mem := by
  have hwf : (c.perform b).wf := perform_wf_of_wf (chip_wf_of_chipReady hready) (wf_of_chipReady hlegal hready hb)
  have hpending : c.pending = false := pending_of_chipReady hready
  have hregs := exec_openRegs_of_opened hopen hexec
  cases b with
  | enable | disable | read => exact chipReady_of_restsWith hready hregs hrest rfl rfl hwf hpending
  | eraseAll | writeAll | write | erase => cases hgated

end Commands

/-! ## The statements -/

theorem mod_wf_write (A W a d : Nat) : BusOp.wf A W (.write (a % 2 ^ A) (d % 2 ^ W)) = true :=
  decide_eq_true ⟨Nat.mod_lt _ (Nat.two_pow_pos A), Nat.mod_lt _ (Nat.two_pow_pos W)⟩

theorem mod_wf_writeAll (A W d : Nat) : BusOp.wf A W (.writeAll (d % 2 ^ W)) = true :=
  decide_eq_true (Nat.mod_lt _ (Nat.two_pow_pos W))

theorem mod_wf_erase (A W a : Nat) : BusOp.wf A W (.erase (a % 2 ^ A)) = true :=
  decide_eq_true (Nat.mod_lt _ (Nat.two_pow_pos A))

theorem mod_wf_read (A W a : Nat) : BusOp.wf A W (.read (a % 2 ^ A)) = true :=
  decide_eq_true (Nat.mod_lt _ (Nat.two_pow_pos A))

/-- `ONES` of a ready responder is all ones in the engine's unit width (rule R70). -/
theorem ones_of_chipReady {s : State} {c : Chip} (h : s.chipReady c) : c.ones = BitVec.ofNat 16 (2 ^ s.width - 1) := by
  rw [Chip.ones, width_of_chipReady h]

/-- Settles O53: the responder performs a write of the one unit. -/
theorem writeStoresOneUnit : Obligations.WriteStoresOneUnit := by
  intro s c a d hopen hlegal hwe hlimit hready hlatch
  refine chipReady_of_store hopen hlegal hready hlimit hlatch (exec_write_eq a d hopen hwe hlegal)
    (mod_wf_write ..) rfl fun u => ?_
  rw [Memory.read_write (chip_wf_of_chipReady hready).1]

/-- Settles O54: the responder performs a write of all ones to the one unit. -/
theorem eraseClearsOneUnit : Obligations.EraseClearsOneUnit := by
  intro s c a d hopen hlegal hwe hlimit hready hlatch
  refine chipReady_of_store hopen hlegal hready hlimit hlatch (exec_erase_eq a d hopen hwe hlegal)
    (mod_wf_erase ..) rfl fun u => ?_
  rw [Memory.read_write (chip_wf_of_chipReady hready).1, ones_of_chipReady hready]

/-- Settles O55: the responder performs a fill. -/
theorem allUnitOperationsFill : Obligations.AllUnitOperationsFill := by
  intro s c a d hopen hlegal hwe hlimit hready hlatch
  constructor
  · refine chipReady_of_store hopen hlegal hready hlimit hlatch (exec_eraseAll_eq a d hopen hwe) rfl rfl fun u => ?_
    rw [Memory.read_fillAll, ones_of_chipReady hready]
  · refine chipReady_of_store hopen hlegal hready hlimit hlatch (exec_writeAll_eq a d hopen hwe)
      (mod_wf_writeAll ..) rfl fun u => ?_
    rw [Memory.read_fillAll]

/-- Settles O56: the responder performs a read, which changes nothing, or sets its latch. -/
theorem readEnableDisableKeepArray : Obligations.ReadEnableDisableKeepArray := by
  intro s c a d hopen hlegal hready
  have hrest (o : Op) (b : BusOp) (hb : b.wf s.addrWidth s.width = true) :
      (transactBus b (latch o a d s)).restsWith (c.perform b) :=
    transactBus_restsWith (s := latch o a d s) hlegal hready hb
  refine ⟨?_, ?_, ?_⟩
  · have hexec := exec_read_eq a d hopen hlegal
    have hb := mod_wf_read s.addrWidth s.width a
    have hresult := transactBus_read_rx (s := latch .read a d s) hlegal hready (Nat.mod_lt a (Nat.two_pow_pos _))
    obtain ⟨c', hready', hlatch', hmem⟩ :=
      chipReady_of_perform hopen hlegal hready (.read _) hexec (by simp [hrest .read _ hb]) hb rfl
    exact ⟨_, c', hexec, rfl, hresult, hready', hlatch', hmem⟩
  · have hexec := exec_enable_eq a d hopen
    obtain ⟨c', hready', hlatch', hmem⟩ :=
      chipReady_of_perform hopen hlegal hready .enable hexec (by simp [hrest .enable .enable rfl]) rfl rfl
    exact ⟨_, c', hexec, rfl, hready', hlatch', hmem⟩
  · have hexec := exec_disable_eq a d hopen
    obtain ⟨c', hready', hlatch', hmem⟩ :=
      chipReady_of_perform hopen hlegal hready .disable hexec (by simp [hrest .disable .disable rfl]) rfl rfl
    exact ⟨_, c', hexec, rfl, hready', hlatch', hmem⟩

/-! ## The round trip -/

/-- Settles O57: after ENABLE the latch is set, so WRITE stores the value (O53), and READ returns the unit (O56). -/
theorem writeThenReadReturnsValue : Obligations.WriteThenReadReturnsValue := by
  intro s c a v x y z hopen hlegal hlimit hready
  obtain ⟨-, ⟨t, c₁, hexec₁, hwe, hready₁, hlatch₁, -⟩, -⟩ :=
    readEnableDisableKeepArray s c x y hopen hlegal hready
  have hregs₁ := exec_openRegs_of_opened hopen hexec₁
  have hopen₁ := opened_of_openRegs hregs₁ hopen
  have hlegal₁ := profileLegal_of_openRegs hregs₁ hlegal
  obtain ⟨u, c₂, hexec₂, hstatus₂, -, hready₂, -, hstored⟩ :=
    writeStoresOneUnit t c₁ a v hopen₁ hlegal₁ hwe (pollLimit_of_openRegs hregs₁ hlimit) hready₁ hlatch₁
  have hregs₂ := exec_openRegs_of_opened hopen₁ hexec₂
  obtain ⟨⟨w, -, hexec₃, hstatus₃, hresult, -⟩, -⟩ := readEnableDisableKeepArray u c₂ a z
    (opened_of_openRegs hregs₂ hopen₁) (profileLegal_of_openRegs hregs₂ hlegal₁) hready₂
  refine ⟨t, u, w, hexec₁, hexec₂, hexec₃, hstatus₂, hstatus₃, ?_⟩
  rw [hresult, addrWidth_of_openRegs hregs₂, cap_of_openRegs hregs₂ hready₁ hready₂, hstored, if_pos rfl,
    width_of_openRegs hregs₁]

end Sys2Proof.Machine
end

