-- ==== Sys2Proof/Proofs/Encodings.lean ====
section
/-! PROOF. The encodings of `spec/30_encoding.md` as numbers and counts: the command words of the sixteen codes (O1), the length of a bus
transaction (O5), and the frame value as a sum that fits the register (O6). -/

namespace Sys2Proof

/-! ## Command words -/

/-- The word of a well-formed command is decoded to that command. -/
theorem decode_of_encode {w : CmdWord} {i : Instr} (hword : encode i = w) (hwf : i.wf = true) : decode w = .ok i :=
  hword ▸ decode_encode hwf

/-- Settles O1: each of the sixteen words is the encoding of its command. -/
theorem commandCodesDecodeAsTabled : Obligations.CommandCodesDecodeAsTabled := by
  unfold Obligations.CommandCodesDecodeAsTabled
  and_intros
  all_goals exact decode_of_encode rfl rfl

/-! ## The length of a transaction -/

@[simp] theorem BusOp.length_payload (W : Nat) (b : BusOp) : (b.payload W).length = Machine.busTxBits W b := by
  cases b with
  | writeAll d | write f d => exact length_bitsMsb W d
  | enable | disable | eraseAll | read | erase => rfl

/-- Settles O5: the bits are a start marker, opcode and field, `A + 3` in all, then the payload. -/
theorem busFrameLengths : Obligations.BusFrameLengths := by
  intro A W b hA
  rw [encodeBus_eq hA]
  refine ⟨?_, head?_busBits⟩
  rw [length_busBits, BusOp.length_payload, Nat.add_comm 3 A]

end Sys2Proof

namespace Sys2Proof.Machine

/-! ## The frame value -/

/-- A 2-bit opcode over an `A`-bit field is a number of `A + 2` bits. -/
theorem opcode_over_field_lt {A opcode field : Nat} (hop : opcode < 4) (hf : field < 2 ^ A) :
    2 ^ A * opcode + field < 2 ^ (A + 2) := by
  rw [Nat.add_comm A, Nat.pow_add]
  calc 2 ^ A * opcode + field
      _ < 2 ^ A * (opcode + 1) := by rw [Nat.mul_add_one]; omega
      _ ≤ 2 ^ A * 4 := Nat.mul_le_mul_left _ hop
      _ = 2 ^ 2 * 2 ^ A := Nat.mul_comm ..

section Legal

variable {s : State} (h : s.profileLegal)
include h

theorem and_addressMask (a : Nat) : a &&& s.addressMask.toNat = a % 2 ^ s.addrWidth := by
  rw [addressMask_toNat h, Nat.and_two_pow_sub_one_eq_mod]

theorem controlFrame_sum {sub : Nat} (hsub : sub < 4) :
    (controlFrame sub s).toNat = sub * 2 ^ (s.addrWidth - 2) := by
  rw [controlFrame_toNat h hsub, Nat.mul_zero, Nat.zero_add, Nat.mul_comm]

theorem controlFrame_lt {sub : Nat} (hsub : sub < 4) : (controlFrame sub s).toNat < 2 ^ (s.addrWidth + 2) := by
  rw [controlFrame_toNat h hsub]
  exact opcode_over_field_lt (by decide) (subCode_lt (two_le_addrWidth h) hsub)

theorem addressFrame_effective_toNat {opcode : Nat} (hop : opcode < 4) (a : Nat) :
    (addressFrame opcode (effectiveAddress a s) s).toNat = 2 ^ s.addrWidth * opcode + a % 2 ^ s.addrWidth := by
  rw [effectiveAddress_eq h, addressFrame_toNat h hop (Nat.mod_lt _ (Nat.two_pow_pos _))]

theorem addressFrame_sum {opcode : Nat} (hop : opcode < 4) (a : Nat) :
    (addressFrame opcode (effectiveAddress a s) s).toNat =
      opcode * 2 ^ s.addrWidth + (a &&& s.addressMask.toNat) := by
  rw [addressFrame_effective_toNat h hop, and_addressMask h, Nat.mul_comm]

theorem addressFrame_lt {opcode : Nat} (hop : opcode < 4) (a : Nat) :
    (addressFrame opcode (effectiveAddress a s) s).toNat < 2 ^ (s.addrWidth + 2) := by
  rw [addressFrame_effective_toNat h hop]
  exact opcode_over_field_lt hop (Nat.mod_lt _ (Nat.two_pow_pos _))

end Legal

/-- Settles O6: a frame is an opcode over a field of `A` bits, and `A` is between 6 and 11. -/
theorem frameValuesAreSums : Obligations.FrameValuesAreSums := by
  intro s h
  obtain ⟨hlow, hhigh⟩ := addrWidth_bounds h
  refine ⟨by omega, fun sub hsub => ⟨controlFrame_sum h hsub, controlFrame_lt h hsub⟩,
    fun opcode a hop => ⟨addressFrame_sum h hop a, and_addressMask h a, addressFrame_lt h hop a⟩, ?_⟩
  exact Nat.pow_le_pow_right (by decide) (by omega)

end Sys2Proof.Machine
end

