-- ==== Sys2Proof/Proofs/ReservedCodes.lean ====
section
/-! PROOF. The reserved codes 9 to 15: which commands they are, and that each is refused with `BAD_OP` (O16). -/

namespace Sys2Proof.Machine

open Sys2Proof

/-- The seven commands of the reserved codes (rule R97). -/
abbrev reservedCommands : List Instr :=
  [.reserved9, .reserved10, .reserved11, .reserved12, .reserved13, .reserved14, .reserved15]

theorem mem_reservedCommands_iff (i : Instr) : 9 ≤ i.code ↔ i ∈ reservedCommands := by
  cases i <;> simp [Instr.code]

/-- A reserved command looks at no register (rule R247). -/
theorem exec_reserved {i : Instr} (h : i ∈ reservedCommands) (s : State) : exec i s = .next (raise .badOp s) := by
  cases i with
  | reserved9 | reserved10 | reserved11 | reserved12 | reserved13 | reserved14 | reserved15 => rfl
  | _ => simp at h

/-- In `Idle` a refusal changes the completion registers alone (rules R13 and R240). -/
theorem raise_of_idle {s : State} (h : s.phase = .idle) (st : Status) :
    raise st s = { s with status := st, result := 0, done := true } := by
  rw [raise, complete, ← h]

/-- Settles O16: the codes from 9 up are the reserved ones, and each raises `BAD_OP` whatever the state. -/
theorem reservedCodesAreBadOp : Obligations.ReservedCodesAreBadOp := by
  refine ⟨fun s i hidle hi => ?_, fun i => ⟨?_, mem_reservedCommands_iff i⟩, rfl⟩
  · rw [exec_reserved hi, raise_of_idle hidle]
  · exact Nat.le_of_lt_succ (Laws.OpcodeField.code_lt i)

end Sys2Proof.Machine
end

