-- ==== Sys2Proof/Proofs/UnreadRegisters.lean ====
section
/-! PROOF. Four registers that the procedures of a transaction and of the ready-poll neither read nor write: `model`, `capacityUnits`, `addr` and
`data`. Relabelling them before such a procedure is relabelling them after it; from this, O33 and O34. -/

namespace Sys2Proof.Machine

open Sys2Proof

/-- A change of the four registers, each by its own value. -/
structure Relabelling where
  model : Model → Model := id
  capacityUnits : BitVec 12 → BitVec 12 := id
  addr : BitVec 11 → BitVec 11 := id
  data : BitVec 16 → BitVec 16 := id

def State.relabel (r : Relabelling) (s : State) : State :=
  { s with
    model := r.model s.model
    capacityUnits := r.capacityUnits s.capacityUnits
    addr := r.addr s.addr
    data := r.data s.data }

section Relabel

variable (r : Relabelling)

/-! ## What is read from a relabelled state -/

@[simp] theorem relabel_writeEnabled (s : State) : (s.relabel r).writeEnabled = s.writeEnabled := rfl
@[simp] theorem relabel_rx (s : State) : (s.relabel r).rx = s.rx := rfl
@[simp] theorem doLevel_relabel (s : State) : doLevel (s.relabel r) = doLevel s := rfl
@[simp] theorem limitReached_relabel (s : State) : limitReached (s.relabel r) = limitReached s := rfl
@[simp] theorem pollFuel_relabel (s : State) : pollFuel (s.relabel r) = pollFuel s := rfl

@[simp] theorem effectiveAddress_relabel (a : Nat) (s : State) :
    effectiveAddress a (s.relabel r) = effectiveAddress a s := rfl

@[simp] theorem truncUnit_relabel (v : Nat) (s : State) : truncUnit v (s.relabel r) = truncUnit v s := rfl

@[simp] theorem controlFrame_relabel (sub : Nat) (s : State) : controlFrame sub (s.relabel r) = controlFrame sub s :=
  rfl

@[simp] theorem addressFrame_relabel (opcode : Nat) (f : BitVec 11) (s : State) :
    addressFrame opcode f (s.relabel r) = addressFrame opcode f s := rfl

/-! ## The updates -/

@[simp] theorem writePin_relabel (p : OutPin) (l : Level) (s : State) :
    writePin p l (s.relabel r) = (writePin p l s).relabel r := rfl

@[simp] theorem delay_relabel (k : DelayKind) (s : State) : delay k (s.relabel r) = (delay k s).relabel r := rfl

@[simp] theorem sampleDO_relabel (s : State) : sampleDO (s.relabel r) = (sampleDO s).relabel r := rfl

@[simp] theorem pollOnce_relabel (s : State) : pollOnce (s.relabel r) = (pollOnce s).relabel r := rfl

@[simp] theorem pollStart_relabel (s : State) : pollStart (s.relabel r) = (pollStart s).relabel r := rfl

@[simp] theorem complete_relabel (st : Status) (v : BitVec 16) (s : State) :
    complete st v (s.relabel r) = (complete st v s).relabel r := rfl

@[simp] theorem setWriteEnabled_relabel (b : Bool) (s : State) :
    setWriteEnabled b (s.relabel r) = (setWriteEnabled b s).relabel r := rfl

/-! ## The procedures -/

@[simp] theorem sendBits_relabel (v : BitVec 16) (n : Nat) (s : State) :
    sendBits v n (s.relabel r) = (sendBits v n s).relabel r := by
  rcases Nat.eq_zero_or_pos n with rfl | hn
  · rfl
  · rw [sendBits_eq v n hn.ne', sendBits_eq v n hn.ne', emitAll_eq, emitAll_eq]
    rfl

theorem receiveBit_relabel (n : Nat) (s : State) : receiveBit n (s.relabel r) = (receiveBit n s).relabel r := by
  simp only [receiveBit, writePin_relabel, delay_relabel, sampleDO_relabel, doLevel_relabel]
  rfl

theorem receiveLoop_relabel (n : Nat) (s : State) : receiveLoop n (s.relabel r) = (receiveLoop n s).relabel r := by
  induction n generalizing s with
  | zero => rfl
  | succ n ih => rw [receiveLoop, receiveLoop, receiveBit_relabel, ih]

@[simp] theorem receiveBits_relabel (n : Nat) (s : State) :
    receiveBits n (s.relabel r) = (receiveBits n s).relabel r :=
  receiveLoop_relabel r n { s with rx := 0, cnt := BitVec.ofNat 5 n }

@[simp] theorem beginTransaction_relabel (s : State) :
    beginTransaction (s.relabel r) = (beginTransaction s).relabel r :=
  sendBits_relabel r 1 1 { delay .cs (writePin .cs .high s) with seg := .start }

@[simp] theorem sendFrame_relabel (f : BitVec 16) (s : State) :
    sendFrame f (s.relabel r) = (sendFrame f s).relabel r :=
  sendBits_relabel r f (s.addrWidth + 2) { s with seg := .frame }

@[simp] theorem movePayload_relabel (k : Payload) (d : BitVec 16) (s : State) :
    movePayload k d (s.relabel r) = (movePayload k d s).relabel r := by
  cases k with
  | none => rfl
  | tx => exact sendBits_relabel r d s.width { s with seg := .payload }
  | rx => exact receiveBits_relabel r s.width s

@[simp] theorem transact_relabel (f : BitVec 16) (k : Payload) (d : BitVec 16) (s : State) :
    transact f k d (s.relabel r) = (transact f k d s).relabel r := by
  simp [transact, endTransaction]

theorem pollLoop_relabel (fuel : Nat) (s : State) :
    pollLoop fuel (s.relabel r) = ((pollLoop fuel s).1, (pollLoop fuel s).2.relabel r) := by
  induction fuel generalizing s with
  | zero => rfl
  | succ fuel ih =>
    simp only [pollLoop, doLevel_relabel, pollOnce_relabel, limitReached_relabel, delay_relabel, ih]
    split
    · rfl
    · split <;> rfl

@[simp] theorem pollReady_relabel (s : State) : pollReady (s.relabel r) = (pollReady s).relabel r := by
  simp only [pollReady, pollStart_relabel, pollFuel_relabel, pollLoop_relabel]
  rcases pollLoop (pollFuel (pollStart s)) (pollStart s) with ⟨_ | _ | _, u⟩ <;> rfl

end Relabel

/-! ## The gates -/

/-- A gate decides alike in two states with the same flags, so its runs are related if their bodies are, and if their refusals are. -/
theorem requireOpened_related {R : State → State → Prop} {f g : State → State} {s t : State}
    (hopened : t.opened = s.opened) (hraise : ∀ st, R (raise st s) (raise st t)) (hbody : R (f s) (g t)) :
    R (requireOpened f s) (requireOpened g t) := by
  unfold requireOpened
  rw [hopened]
  split
  · exact hbody
  · exact hraise .notOpen

theorem requireWritable_related {R : State → State → Prop} {f g : State → State} {s t : State}
    (hopened : t.opened = s.opened) (hwe : t.writeEnabled = s.writeEnabled)
    (hraise : ∀ st, R (raise st s) (raise st t)) (hbody : R (f s) (g t)) :
    R (requireWritable f s) (requireWritable g t) := by
  refine requireOpened_related hopened hraise ?_
  unfold requireWriteEnabled
  rw [hwe]
  split
  · exact hbody
  · exact hraise .writeProtected

section Gates

variable {r : Relabelling} {f g : State → State} {s : State}

theorem requireOpened_relabel (h : f (s.relabel r) = (f s).relabel r) :
    requireOpened f (s.relabel r) = (requireOpened f s).relabel r :=
  requireOpened_related (R := fun t u => u = t.relabel r) rfl (fun _ => rfl) h

theorem requireWritable_relabel (h : f (s.relabel r) = (f s).relabel r) :
    requireWritable f (s.relabel r) = (requireWritable f s).relabel r :=
  requireWritable_related (R := fun t u => u = t.relabel r) rfl rfl (fun _ => rfl) h

/-- Bodies that differ by a relabelling: refused alike, or let through and different by it. -/
theorem requireOpened_same_or_relabel (h : g s = (f s).relabel r) :
    requireOpened g s = requireOpened f s ∨ requireOpened g s = (requireOpened f s).relabel r :=
  requireOpened_related (R := fun t u => u = t ∨ u = t.relabel r) rfl (fun _ => .inl rfl) (.inr h)

theorem requireWritable_same_or_relabel (h : g s = (f s).relabel r) :
    requireWritable g s = requireWritable f s ∨ requireWritable g s = (requireWritable f s).relabel r :=
  requireWritable_related (R := fun t u => u = t ∨ u = t.relabel r) rfl rfl (fun _ => .inl rfl) (.inr h)

end Gates

/-! ## The model and the capacity -/

/-- The registers `model` and `capacityUnits` take these values. -/
def Relabelling.profile (m : Model) (c : BitVec 12) : Relabelling where
  model _ := m
  capacityUnits _ := c

@[simp] theorem latch_relabel_profile (m : Model) (c : BitVec 12) (o : Op) (a v : Nat) (s : State) :
    latch o a v (s.relabel (.profile m c)) = (latch o a v s).relabel (.profile m c) := rfl

theorem exec_relabel_profile {i : Instr} {s t : State} (hi : i.code ≠ 0) (m : Model) (c : BitVec 12)
    (h : exec i s = .next t) : exec i (s.relabel (.profile m c)) = .next (t.relabel (.profile m c)) := by
  cases i <;> cases h
  case openDev => exact absurd rfl hi
  case enable | disable | iswe | read => exact congrArg Host.Outcome.next (requireOpened_relabel (by simp))
  case eraseAll | erase | writeAll | write => exact congrArg Host.Outcome.next (requireWritable_relabel (by simp))
  all_goals rfl

/-- Settles O33: every command but OPEN latches, sends, receives and polls without a look at the two registers. -/
theorem modelAndCapacityAreInvisible : Obligations.ModelAndCapacityAreInvisible :=
  fun _ _ _ m c hi h => exec_relabel_profile hi m c h

/-! ## The latched operands -/

/-- `addr` and `data` as they are latched in `s` from these ports (rule R205). -/
def Relabelling.operands (a d : Nat) (s : State) : Relabelling where
  addr _ := effectiveAddress a s
  data _ := truncUnit d s

/-- `addr` alone, as it is latched. -/
def Relabelling.address (a : Nat) (s : State) : Relabelling where
  addr _ := effectiveAddress a s

/-- `data` alone, as it is latched. -/
def Relabelling.payload (d : Nat) (s : State) : Relabelling where
  data _ := truncUnit d s

theorem latch_eq_relabel_operands (o : Op) (a d a' d' : Nat) (s : State) :
    latch o a' d' s = (latch o a d s).relabel (.operands a' d' s) := rfl

theorem latch_eq_relabel_address (o : Op) (a d a' : Nat) (s : State) :
    latch o a' d s = (latch o a d s).relabel (.address a' s) := rfl

theorem latch_eq_relabel_payload (o : Op) (a d d' : Nat) (s : State) :
    latch o a d' s = (latch o a d s).relabel (.payload d' s) := rfl

section Latch

variable {t u : State} (a d : Nat) (s : State)

theorem eq_but_operands (h : u = t ∨ u = t.relabel (.operands a d s)) :
    u = { t with addr := u.addr, data := u.data } := by
  obtain rfl | rfl := h <;> rfl

theorem eq_but_address (h : u = t ∨ u = t.relabel (.address a s)) : u = { t with addr := u.addr } := by
  obtain rfl | rfl := h <;> rfl

theorem eq_but_payload (h : u = t ∨ u = t.relabel (.payload d s)) : u = { t with data := u.data } := by
  obtain rfl | rfl := h <;> rfl

end Latch

/-- Settles O34: other ports relabel what is latched, and the transaction and the poll carry that through. -/
theorem unusedPortsAreIgnored : Obligations.UnusedPortsAreIgnored := by
  intro s t u a d a' d'
  have hoperands (o : Op) := latch_eq_relabel_operands o a d a' d' s
  have haddress (o : Op) := latch_eq_relabel_address o a d a' s
  have hpayload (o : Op) := latch_eq_relabel_payload o a d d' s
  refine ⟨?enable, ?disable, ?eraseAll, ?erase, ?writeAll, ?read⟩ <;> rintro ⟨⟩ ⟨⟩
  case enable | disable =>
    exact eq_but_operands a' d' s (requireOpened_same_or_relabel (by simp [hoperands]))
  case eraseAll => exact eq_but_operands a' d' s (requireWritable_same_or_relabel (by simp [hoperands]))
  case erase => exact eq_but_payload d' s (requireWritable_same_or_relabel (by simp [hpayload]))
  case writeAll => exact eq_but_address a' s (requireWritable_same_or_relabel (by simp [haddress]))
  case read => exact eq_but_payload d' s (requireOpened_same_or_relabel (by simp [hpayload]))

end Sys2Proof.Machine
end

