-- ==== Sys2Proof/Proofs/Profile.lean ====
section
/-! PROOF. The Device Profile Resolver (O8, O9) and the state a successful OPEN leaves (O10). -/

namespace Sys2Proof.Machine

open Sys2Proof

/-! ## The resolver -/

/-- The models with as many addresses as units (rule R114). -/
theorem two_pow_addressBits_eq_capacityUnits {m : Model} (h : m ∈ [Model.c46, .c66, .c86]) (o : Organization) :
    2 ^ (resolve m o).addressBits = (resolve m o).capacityUnits := by
  simp only [List.mem_cons, List.not_mem_nil, or_false] at h
  obtain rfl | rfl | rfl := h <;> cases o <;> rfl

/-- The models with twice as many addresses as units (rule R114). -/
theorem two_pow_addressBits_eq_two_mul_capacityUnits {m : Model} (h : m ∈ [Model.c56, .c76]) (o : Organization) :
    2 ^ (resolve m o).addressBits = 2 * (resolve m o).capacityUnits := by
  simp only [List.mem_cons, List.not_mem_nil, or_false] at h
  obtain rfl | rfl := h <;> cases o <;> rfl

/-- Settles O8: rule R112's algorithm, run once for each pair, and the two ratios. -/
theorem resolverTable : Obligations.ResolverTable :=
  ⟨rfl, rfl, rfl, rfl, rfl, rfl, rfl, rfl, rfl, rfl,
    fun o _ h => two_pow_addressBits_eq_capacityUnits h o, fun o _ h => two_pow_addressBits_eq_two_mul_capacityUnits h o⟩

/-- Every unit has an address of its own: the capacity is `2^addressBits` or half of it. -/
theorem capacityUnits_le_two_pow_addressBits (m : Model) (o : Organization) :
    (resolve m o).capacityUnits ≤ 2 ^ (resolve m o).addressBits := by
  cases m with
  | c46 | c66 | c86 => exact (two_pow_addressBits_eq_capacityUnits (by decide) o).ge
  | c56 | c76 =>
    rw [two_pow_addressBits_eq_two_mul_capacityUnits (by decide) o]
    exact Nat.le_mul_of_pos_left _ two_pos

/-- `2^n - 1` has exactly `n` bits set. -/
theorem length_filter_testBit_two_pow_sub_one {n N : Nat} (h : n ≤ N) :
    ((List.range N).filter fun i => (2 ^ n - 1).testBit i).length = n := by
  simp only [Nat.testBit_two_pow_sub_one]
  rw [← List.Ico.zero_bot, List.Ico.filter_lt, List.Ico.length, Nat.min_eq_right h, Nat.sub_zero]

/-- Settles O9: the mask is `2^addressBits - 1`, which has `addressBits` bits set, and there are as many addresses as units or more. -/
theorem resolverInvariants : Obligations.ResolverInvariants := by
  intro m o
  have hbits : (resolve m o).addressBits ≤ 16 := (resolve_addressBits_bounds m o).2.trans (by decide)
  rw [resolve_addressMask, Nat.one_shiftLeft]
  exact ⟨length_filter_testBit_two_pow_sub_one hbits, rfl,
    Nat.sub_le_sub_right (capacityUnits_le_two_pow_addressBits m o) 1⟩

/-! ## OPEN -/

theorem openWith_addressMask (m : Model) (o : Organization) (s : State) :
    (openWith m o s).addressMask.toNat = (resolve m o).addressMask := by
  cases m <;> cases o <;> rfl

/-- OPEN's result is the capacity register, widened; no bit is lost on the way (rule R110). -/
theorem openWith_result (m : Model) (o : Organization) (s : State) :
    (openWith m o s).result = BitVec.ofNat 16 (resolve m o).capacityUnits := by
  rw [← openWith_capacityUnits m o s, BitVec.ofNat_toNat]
  rfl

/-- A successful OPEN as one state (rule R110): the `Cfg` events reach neither a pin nor the environment. -/
theorem openWith_eq (m : Model) (o : Organization) (s : State) : openWith m o s = { s with
    model := m
    organization := o
    capacityUnits := BitVec.ofNat 12 (resolve m o).capacityUnits
    addressBits := BitVec.ofNat 4 (resolve m o).addressBits
    addressMask := BitVec.ofNat 11 (resolve m o).addressMask
    padOe := true
    writeEnabled := false
    opened := true
    trace := s.trace ++ openEvents
    status := .ok
    result := BitVec.ofNat 16 (resolve m o).capacityUnits
    done := true
    phase := .idle } := by
  rw [← openWith_result m o s, openWith, emitAll_eq]
  rfl

/-- Settles O10: OPEN in a closed engine is `openWith`, and its registers hold the resolved values. -/
theorem openLoadsProfile : Obligations.OpenLoadsProfile := by
  intro s m o hclosed
  refine ⟨?_, openWith_capacityUnits m o s, openWith_addressBits m o s, openWith_addressMask m o s⟩
  rw [exec_openDev_of_closed hclosed, openWith_eq]
  rfl

end Sys2Proof.Machine
end

