-- ==== Sys2Proof/Proofs/BusyRun.lean ====
section
/-! PROOF. The sequencer against the procedures (rule R226): after acceptance, micro-steps in busy phases reach the state that the whole command
ends in. -/

namespace Sys2Proof.Machine

open Sys2Proof

/-! ## Runs of the busy sequencer -/

/-- Zero or more micro-steps without a command, each out of a busy phase. -/
inductive BusyRun : State → State → Prop
  | refl (s : State) : BusyRun s s
  | step {s t : State} : s.phase ≠ .idle → BusyRun (transition s) t → BusyRun s t

theorem BusyRun.trans {s t u : State} (h : BusyRun s t) (k : BusyRun t u) : BusyRun s u := by
  induction h with
  | refl s => exact k
  | step hbusy _ ih => exact .step hbusy (ih k)

theorem BusyRun.single {s : State} (hbusy : s.phase ≠ .idle) : BusyRun s (transition s) := .step hbusy (.refl _)

/-- What every busy micro-step keeps, a busy run keeps. -/
theorem BusyRun.keeps {P : State → Prop} (hstep : ∀ s, s.phase ≠ .idle → P s → P (transition s)) {s t : State}
    (h : BusyRun s t) (hs : P s) : P t := by
  induction h with
  | refl s => exact hs
  | step hbusy _ ih => exact ih (hstep _ hbusy hs)

/-! ## Transmitting -/

/-- One micro-step of a run, out of a phase that the engine has gone to. -/
theorem BusyRun.next {p : Phase} {s t u : State} (hp : p ≠ .idle) (hstep : transition (goPhase p s) = t)
    (h : BusyRun t u) : BusyRun (goPhase p s) u :=
  .step hp (hstep ▸ h)

/-! ## Transmitting -/

theorem transition_txData (s : State) :
    transition (goPhase .txData s) = goPhase .txDly1 (writePin .di (bitLevel s.sh (s.cnt - 1).toNat) s) := rfl

theorem transition_txDly1 (s : State) : transition (goPhase .txDly1 s) = goPhase .txSkHigh (delay .tx s) := rfl

theorem transition_txSkHigh (s : State) :
    transition (goPhase .txSkHigh s) = goPhase .txDly2 (writePin .sk .high s) := rfl

theorem transition_txDly2 (s : State) : transition (goPhase .txDly2 s) = goPhase .txSkLow (delay .tx s) := rfl

theorem transition_txSkLow (s : State) :
    transition (goPhase .txSkLow s) = goPhase .txDly3 (writePin .sk .low s) := rfl

theorem transition_txDly3 (s : State) :
    transition (goPhase .txDly3 s) = nextSend (goPhase .txDly3 (delay .tx s)) := rfl

theorem afterSend_of_start {s : State} (h : s.seg = .start) :
    afterSend s = loadSend .frame (frameOf s) (s.addrWidth + 2) s := by
  rw [afterSend, h]

theorem afterSend_of_payload {s : State} (h : s.seg = .payload) : afterSend s = goPhase .csLow s := by
  simp only [afterSend, h]

theorem afterSend_of_frame {s : State} (h : s.seg = .frame) :
    afterSend s = if s.op.transmits then loadSend .payload s.data s.width s
      else if s.op = .read then goPhase .rxSkHigh { s with rx := 0, cnt := BitVec.ofNat 5 s.width }
      else goPhase .csLow s := by
  rw [afterSend, h]

/-- What follows a `sendBits` call does not depend on the phase it ends in. -/
theorem afterSend_goPhase (p : Phase) (s : State) : afterSend (goPhase p s) = afterSend s := by
  cases h : s.seg with
  | start =>
    rw [afterSend_of_start h, afterSend_of_start (s := goPhase p s) h]
    rfl
  | frame =>
    rw [afterSend_of_frame h, afterSend_of_frame (s := goPhase p s) h]
    rfl
  | payload =>
    rw [afterSend_of_payload h, afterSend_of_payload (s := goPhase p s) h]
    rfl

theorem cnt_sub_one (n : Nat) : BitVec.ofNat 5 (n + 1) - 1 = BitVec.ofNat 5 n := by
  bv_omega

theorem cnt_eq_zero_iff {n : Nat} (h : n < 31) : BitVec.ofNat 5 n = 0 ↔ n = 0 := by
  constructor <;> intro h <;> bv_omega

theorem emitAll_cnt (es : List Event) (s : State) : (emitAll es s).cnt = s.cnt := by
  rw [emitAll_eq]

theorem emitAll_sh (es : List Event) (s : State) : (emitAll es s).sh = s.sh := by
  rw [emitAll_eq]

section Count

variable {s : State} {n : Nat} (hn : n < 31) (hcnt : s.cnt = BitVec.ofNat 5 (n + 1))
include hn hcnt

/-- `cnt` points at bit `n` while `n + 1` bits are to go (rule R209). -/
theorem cnt_index : (s.cnt - 1).toNat = n := by
  rw [hcnt, cnt_sub_one, BitVec.toNat_ofNat]
  omega

/-- After a bit: what follows the call if it was the last, else the next bit (rule R214). -/
theorem nextSend_eq (p : Phase) :
    nextSend (goPhase p s) =
      if n = 0 then afterSend { s with cnt := BitVec.ofNat 5 n }
      else goPhase .txData { s with cnt := BitVec.ofNat 5 n } := by
  simp only [nextSend, goPhase_cnt, hcnt, cnt_sub_one n, cnt_eq_zero_iff hn]
  split
  · exact afterSend_goPhase p { s with cnt := BitVec.ofNat 5 n }
  · rfl

/-- The six micro-steps of a transmitted bit (rules R209 to R213). -/
theorem busyRun_sendBit :
    BusyRun (goPhase .txData s) (nextSend (goPhase .txDly3 (emitAll (sendBitEvents (bitLevel s.sh n)) s))) := by
  have hdata : transition (goPhase .txData s) = goPhase .txDly1 (writePin .di (bitLevel s.sh n) s) := by
    rw [transition_txData, cnt_index hn hcnt]
  exact .next nofun hdata <| .next nofun (transition_txDly1 _) <| .next nofun (transition_txSkHigh _) <|
    .next nofun (transition_txDly2 _) <| .next nofun (transition_txSkLow _) <|
    .next nofun (transition_txDly3 _) <| .refl _

end Count

/-- The micro-steps of the loop of `sendBits` (rule R130), from the first bit to what follows the last. -/
theorem busyRun_sendLoop {n : Nat} (hn : n < 31) {s : State} {v : BitVec 16} (hsh : s.sh = v)
    (hcnt : s.cnt = BitVec.ofNat 5 (n + 1)) :
    BusyRun (goPhase .txData s) (afterSend (sendLoop v (n + 1) s)) := by
  induction n generalizing s with
  | zero =>
    have hbit := busyRun_sendBit hn hcnt
    rwa [nextSend_eq hn ((emitAll_cnt _ s).trans hcnt), if_pos rfl, hsh] at hbit
  | succ n ih =>
    have hbit := busyRun_sendBit hn hcnt
    rw [nextSend_eq hn ((emitAll_cnt _ s).trans hcnt), if_neg n.succ_ne_zero, hsh] at hbit
    exact hbit.trans (ih (Nat.lt_of_succ_lt hn) ((emitAll_sh _ s).trans hsh) rfl)

/-- The micro-steps of a `sendBits` call (rules R208 and R214). -/
theorem busyRun_sendBits (g : Seg) (v : BitVec 16) {n : Nat} (hpos : n ≠ 0) (hn : n < 32) (s : State) :
    BusyRun (loadSend g v n s) (afterSend (sendBits v n { s with seg := g })) := by
  obtain ⟨n, rfl⟩ := Nat.exists_eq_succ_of_ne_zero hpos
  exact busyRun_sendLoop (s := { s with seg := g, sh := v, cnt := BitVec.ofNat 5 (n + 1) })
    (Nat.lt_of_succ_lt_succ hn) rfl rfl

/-! ## Receiving -/

theorem transition_rxSkHigh (s : State) :
    transition (goPhase .rxSkHigh s) = goPhase .rxDly1 (writePin .sk .high s) := rfl

theorem transition_rxDly1 (s : State) : transition (goPhase .rxDly1 s) = goPhase .rxSample (delay .rx s) := rfl

theorem transition_rxSample (s : State) : transition (goPhase .rxSample s) = goPhase .rxSkLow { sampleDO s with
    rx := s.rx ||| BitVec.ofNat 16 ((doLevel s).toNat <<< (s.cnt - 1).toNat) } := rfl

theorem transition_rxSkLow (s : State) :
    transition (goPhase .rxSkLow s) = goPhase .rxDly2 (writePin .sk .low s) := rfl

theorem transition_rxDly2 (s : State) :
    transition (goPhase .rxDly2 s) = nextReceive (goPhase .rxDly2 (delay .rx s)) := rfl

/-- After a received bit: chip-select falls if it was the last, else the next bit (rule R219). -/
theorem nextReceive_eq {s : State} {n : Nat} (hn : n < 31) (hcnt : s.cnt = BitVec.ofNat 5 (n + 1)) (p : Phase) :
    nextReceive (goPhase p s) =
      goPhase (if n = 0 then .csLow else .rxSkHigh) { s with cnt := BitVec.ofNat 5 n } := by
  simp only [nextReceive, goPhase_cnt, hcnt, cnt_sub_one n, cnt_eq_zero_iff hn]
  split <;> rfl

/-- The five micro-steps of a received bit (rules R215 to R219). -/
theorem busyRun_receiveBit {s : State} {n : Nat} (hn : n < 31) (hcnt : s.cnt = BitVec.ofNat 5 (n + 1)) :
    BusyRun (goPhase .rxSkHigh s) (goPhase (if n = 0 then .csLow else .rxSkHigh) (receiveBit n s)) := by
  refine .next nofun (transition_rxSkHigh _) <| .next nofun (transition_rxDly1 _) <|
    .next nofun (transition_rxSample _) <| .next nofun (transition_rxSkLow _) <|
    .next nofun (transition_rxDly2 _) ?_
  have hindex : ((delay .rx (writePin .sk .high s)).cnt - 1).toNat = n := cnt_index hn hcnt
  rw [nextReceive_eq hn (by exact hcnt), hindex]
  exact .refl _

/-- The micro-steps of the loop of `receiveBits` (rule R132), until chip-select is to fall. -/
theorem busyRun_receiveLoop {n : Nat} (hn : n < 31) {s : State} (hcnt : s.cnt = BitVec.ofNat 5 (n + 1)) :
    BusyRun (goPhase .rxSkHigh s) (goPhase .csLow (receiveLoop (n + 1) s)) := by
  induction n generalizing s with
  | zero => exact busyRun_receiveBit hn hcnt
  | succ n ih => exact (busyRun_receiveBit hn hcnt).trans (ih (Nat.lt_of_succ_lt hn) rfl)

/-! ## The transaction -/

theorem width_bounds (s : State) : 1 ≤ s.width ∧ s.width ≤ 16 := by
  rw [State.width]
  cases s.organization <;> decide

theorem addrWidth_add_two_lt (s : State) : s.addrWidth + 2 < 32 := by
  have : s.addrWidth < 2 ^ 4 := s.addressBits.isLt
  omega

/-- `sendBits` works on the wires, `sh` and `cnt` alone: the latched command stands, and the segment. -/
theorem sendBits_latched (v : BitVec 16) (n : Nat) (s : State) :
    (sendBits v n s).op = s.op ∧ (sendBits v n s).data = s.data ∧ (sendBits v n s).seg = s.seg ∧
      frameOf (sendBits v n s) = frameOf s := by
  rcases Nat.eq_zero_or_pos n with rfl | hn
  · exact ⟨rfl, rfl, rfl, rfl⟩
  · rw [sendBits_eq v n hn.ne', emitAll_eq]
    exact ⟨rfl, rfl, rfl, rfl⟩

theorem beginTransaction_latched (s : State) :
    (beginTransaction s).op = s.op ∧ (beginTransaction s).data = s.data ∧ (beginTransaction s).seg = .start ∧
      frameOf (beginTransaction s) = frameOf s :=
  sendBits_latched ..

theorem sendFrame_latched (f : BitVec 16) (s : State) :
    (sendFrame f s).op = s.op ∧ (sendFrame f s).data = s.data ∧ (sendFrame f s).seg = .frame := by
  obtain ⟨hop, hdata, hseg, -⟩ := sendBits_latched f (s.addrWidth + 2) { s with seg := .frame }
  exact ⟨hop, hdata, hseg⟩

/-- The direction of a payload, by the latched operation (rule R214). -/
def Op.payload (o : Op) : Payload := if o.transmits then .tx else if o = .read then .rx else .none

/-- The micro-steps of a payload, until chip-select is to fall (rule R214). -/
theorem busyRun_movePayload {s : State} (hseg : s.seg = .frame) :
    BusyRun (afterSend s) (goPhase .csLow (movePayload s.op.payload s.data s)) := by
  obtain ⟨hpos, hle⟩ := width_bounds s
  rw [afterSend_of_frame hseg, Op.payload]
  split
  · obtain ⟨-, -, hseg', -⟩ := sendBits_latched s.data s.width { s with seg := .payload }
    have hrun := busyRun_sendBits .payload s.data (n := s.width) (by omega) (by omega) s
    rwa [afterSend_of_payload hseg'] at hrun
  · split
    · obtain ⟨n, hn⟩ := Nat.exists_eq_succ_of_ne_zero (Nat.ne_of_gt hpos)
      have hrun := busyRun_receiveLoop (n := n) (by omega) (s := { s with rx := 0, cnt := BitVec.ofNat 5 s.width })
        (by rw [hn])
      rwa [← Nat.succ_eq_add_one, ← hn] at hrun
    · exact .refl _

theorem transition_csHigh (s : State) :
    transition (goPhase .csHigh s) = goPhase .csDelay (writePin .cs .high s) := rfl

theorem transition_csDelay (s : State) :
    transition (goPhase .csDelay s) = loadSend .start 1 1 (delay .cs s) := rfl

theorem transition_csLow (s : State) :
    transition (goPhase .csLow s) = afterCsLow (goPhase .csLow (writePin .cs .low s)) := rfl

/-- The micro-steps of a transaction (rule R138) up to the end of its frame. -/
theorem busyRun_sendFrame (s : State) :
    BusyRun (goPhase .csHigh s) (afterSend (sendFrame (frameOf s) (beginTransaction s))) := by
  obtain ⟨-, -, hseg, hframe⟩ := beginTransaction_latched s
  have hbegin : BusyRun (loadSend .start 1 1 (delay .cs (writePin .cs .high s))) (afterSend (beginTransaction s)) :=
    busyRun_sendBits .start 1 (by decide) (by decide) _
  rw [afterSend_of_start hseg, hframe] at hbegin
  exact .next nofun (transition_csHigh s) <| .next nofun (transition_csDelay _) <|
    hbegin.trans (busyRun_sendBits .frame (frameOf s) (Nat.succ_ne_zero _) (addrWidth_add_two_lt _) _)

/-- The transaction that the sequencer runs for the latched command. -/
def transactLatched (s : State) : State := transact (frameOf s) s.op.payload s.data s

/-- The micro-steps of a whole transaction (rule R138), from chip-select up to chip-select down. -/
theorem busyRun_transact (s : State) :
    BusyRun (goPhase .csHigh s) (afterCsLow (goPhase .csLow (transactLatched s))) := by
  obtain ⟨hop, hdata, -⟩ := beginTransaction_latched s
  obtain ⟨hop', hdata', hseg⟩ := sendFrame_latched (frameOf s) (beginTransaction s)
  have hpayload := busyRun_movePayload hseg
  rw [hop', hop, hdata', hdata] at hpayload
  exact (busyRun_sendFrame s).trans (hpayload.trans (.next nofun (transition_csLow _) (.refl _)))

/-! ## The ready-poll -/

theorem transition_pollCsHigh (s : State) :
    transition (goPhase .pollCsHigh s) = goPhase .pollSample (pollStart s) := rfl

theorem transition_pollSample (s : State) : transition (goPhase .pollSample s) =
    if doLevel s = .high then goPhase .pollCsLow (pollOnce s)
    else if limitReached (pollOnce s) then goPhase .pollAbort (pollOnce s)
    else goPhase .pollDly (pollOnce s) := rfl

theorem transition_pollDly (s : State) :
    transition (goPhase .pollDly s) = goPhase .pollSample (delay .poll s) := rfl

/-- A write-class operation completes with result 0 and no change of the flag (rule R225). -/
theorem finish_of_writeClass {s : State} (h : s.op.writeClass = true) (st : Status) :
    finish st s = complete st 0 s := by
  unfold finish finishFlag
  cases hop : s.op with
  | eraseAll | erase | writeAll | write => rfl
  | openDev | enable | disable | iswe | read => simp [hop, Op.writeClass] at h

theorem transition_pollCsLow {s : State} (h : s.op.writeClass = true) :
    transition (goPhase .pollCsLow s) = complete .ok 0 (writePin .cs .low s) :=
  finish_of_writeClass (s := writePin .cs .low (goPhase .pollCsLow s)) h .ok

theorem transition_pollAbort {s : State} (h : s.op.writeClass = true) :
    transition (goPhase .pollAbort s) = complete .pollTimeout 0 (writePin .cs .low s) :=
  finish_of_writeClass (s := writePin .cs .low (goPhase .pollAbort s)) h .pollTimeout

/-- What `pollReady` makes of the end of its loop. -/
def pollFinish : PollEnd × State → State
  | (.ready, u) => complete .ok 0 (writePin .cs .low u)
  | (.timedOut, u) => complete .pollTimeout 0 (writePin .cs .low u)
  | (.waiting, u) => goPhase .pollSample u

theorem pollReady_eq (s : State) :
    pollReady s = pollFinish (pollLoop (pollFuel (pollStart s)) (pollStart s)) := by
  simp only [pollReady]
  rcases pollLoop (pollFuel (pollStart s)) (pollStart s) with ⟨_ | _ | _, u⟩ <;> rfl

/-- The micro-steps of the poll's loop (rules R136 and R222 to R224). -/
theorem busyRun_pollLoop (fuel : Nat) {s : State} (h : s.op.writeClass = true) :
    BusyRun (goPhase .pollSample s) (pollFinish (pollLoop fuel s)) := by
  induction fuel generalizing s with
  | zero => exact .refl _
  | succ fuel ih =>
    refine .next nofun (transition_pollSample s) ?_
    rw [pollLoop]
    split
    · exact .next nofun (transition_pollCsLow (s := pollOnce s) h) (.refl _)
    · split
      · exact .next nofun (transition_pollAbort (s := pollOnce s) h) (.refl _)
      · exact .next nofun (transition_pollDly _) (ih h)

theorem busyRun_pollReady {s : State} (h : s.op.writeClass = true) :
    BusyRun (goPhase .pollCsHigh s) (pollReady s) := by
  rw [pollReady_eq]
  exact .next nofun (transition_pollCsHigh s) (busyRun_pollLoop _ h)

/-! ## Whole commands -/

theorem movePayload_op (k : Payload) (d : BitVec 16) (s : State) : (movePayload k d s).op = s.op := by
  cases k with
  | none => rfl
  | tx => exact (sendBits_latched ..).1
  | rx =>
    obtain ⟨ls, rx, cnt, sk, env, -, h⟩ := receiveLoop_spec s.width { s with rx := 0, cnt := BitVec.ofNat 5 s.width }
    rw [movePayload, receiveBits, h]

theorem transact_op (f : BitVec 16) (k : Payload) (d : BitVec 16) (s : State) : (transact f k d s).op = s.op :=
  (movePayload_op ..).trans ((sendFrame_latched ..).1.trans (beginTransaction_latched s).1)

theorem transactLatched_op (s : State) : (transactLatched s).op = s.op := transact_op ..

/-- An accepted write-class operation runs its transaction and its ready-poll (rule R220). -/
theorem busyRun_startOp_of_writeClass {o : Op} (h : o.writeClass = true) (a d : Nat) (s : State) :
    BusyRun (startOp o a d s) (pollReady (transactLatched (latch o a d s))) := by
  have hop : (transactLatched (latch o a d s)).op.writeClass = true := by rwa [transactLatched_op]
  have hcsLow : afterCsLow (goPhase .csLow (transactLatched (latch o a d s))) =
      goPhase .pollCsHigh (transactLatched (latch o a d s)) := if_pos hop
  exact (busyRun_transact (latch o a d s)).trans (hcsLow ▸ busyRun_pollReady hop)

theorem finishFlag_goPhase (p : Phase) (s : State) : finishFlag (goPhase p s) = goPhase p (finishFlag s) := by
  simp only [finishFlag, goPhase_op]
  cases s.op <;> rfl

theorem finish_goPhase (st : Status) (p : Phase) (s : State) : finish st (goPhase p s) = finish st s := by
  rw [finish, finish, finishFlag_goPhase]
  rfl

/-- Any other accepted operation runs its transaction and completes (rule R220). -/
theorem busyRun_startOp {o : Op} (h : o.writeClass = false) (a d : Nat) (s : State) :
    BusyRun (startOp o a d s) (finish .ok (transactLatched (latch o a d s))) := by
  have hop : ¬(transactLatched (latch o a d s)).op.writeClass = true := by simp [transactLatched_op, h]
  have hcsLow : afterCsLow (goPhase .csLow (transactLatched (latch o a d s))) =
      finish .ok (transactLatched (latch o a d s)) := (if_neg hop).trans (finish_goPhase ..)
  exact hcsLow ▸ busyRun_transact (latch o a d s)

theorem finish_of_enable {s : State} (h : s.op = .enable) (st : Status) :
    finish st s = complete st 0 (setWriteEnabled true s) := by
  simp [finish, finishFlag, h]

theorem finish_of_disable {s : State} (h : s.op = .disable) (st : Status) :
    finish st s = complete st 0 (setWriteEnabled false s) := by
  simp [finish, finishFlag, h]

theorem finish_of_read {s : State} (h : s.op = .read) (st : Status) : finish st s = complete st s.rx s := by
  simp [finish, finishFlag, h]

/-- A gated body that the sequencer reaches from its start is reached through the gate. -/
theorem busyRun_requireOpened {f g : State → State} {s : State} (h : BusyRun (f s) (g s)) :
    BusyRun (requireOpened f s) (requireOpened g s) :=
  requireOpened_related rfl (fun _ => .refl _) h

theorem busyRun_requireWritable {f g : State → State} {s : State} (h : BusyRun (f s) (g s)) :
    BusyRun (requireWritable f s) (requireWritable g s) :=
  requireWritable_related rfl rfl (fun _ => .refl _) h

/-- Rule R226: what a command ends in, the sequencer reaches from its acceptance. -/
theorem busyRun_exec {i : Instr} {s t : State} (h : exec i s = .next t) : BusyRun (accept i s) t := by
  cases i <;> cases h
  case enable a d =>
    have hrun := busyRun_startOp (o := .enable) rfl a d s
    rw [finish_of_enable (transactLatched_op _)] at hrun
    exact busyRun_requireOpened hrun
  case disable a d =>
    have hrun := busyRun_startOp (o := .disable) rfl a d s
    rw [finish_of_disable (transactLatched_op _)] at hrun
    exact busyRun_requireOpened hrun
  case read a d =>
    have hrun := busyRun_startOp (o := .read) rfl a d s
    rw [finish_of_read (transactLatched_op _)] at hrun
    exact busyRun_requireOpened hrun
  case eraseAll | erase | writeAll | write =>
    exact busyRun_requireWritable (busyRun_startOp_of_writeClass rfl ..)
  all_goals exact .refl _

end Sys2Proof.Machine
end

