-- ==== Sys2Proof/Proofs/MicroStepCases.lean ====
section
/-! PROOF. What a micro-step out of a busy phase can do, said once: its event, then a move to a phase of that row of rule R227's table, or
the completion. From it, O30. -/

namespace Sys2Proof.Machine

open Sys2Proof

/-! ## The two ends of a busy micro-step -/

/-- The sequencer's work registers, which a micro-step may write beside its event (rules R205 to R222). -/
structure WorkRegs where
  seg : Seg
  sh : BitVec 16
  cnt : BitVec 5
  rx : BitVec 16
  pollCount : Nat

def State.work (s : State) : WorkRegs where
  seg := s.seg
  sh := s.sh
  cnt := s.cnt
  rx := s.rx
  pollCount := s.pollCount

def State.withWork (w : WorkRegs) (s : State) : State :=
  { s with seg := w.seg, sh := w.sh, cnt := w.cnt, rx := w.rx, pollCount := w.pollCount }

/-- The state directly after a micro-step's event (rules R207 to R224). -/
def afterEvent (s : State) : State :=
  match s.phase with
  | .rxSample | .pollSample => sampleDO s
  | _ => emitAll (phaseEvents s) s

/-- `t` is `u` with other work registers, gone to one of these phases. -/
def movesTo (ps : List Phase) (u t : State) : Prop := ∃ q ∈ ps, ∃ w, t = goPhase q (u.withWork w)

theorem movesTo_goPhase {ps : List Phase} {q : Phase} (h : q ∈ ps) (u : State) : movesTo ps u (goPhase q u) :=
  ⟨q, h, u.work, rfl⟩

theorem loadSend_movesTo {ps : List Phase} (h : .txData ∈ ps) (g : Seg) (v : BitVec 16) (n : Nat) (s : State) :
    movesTo ps s (loadSend g v n s) :=
  ⟨.txData, h, { s.work with seg := g, sh := v, cnt := BitVec.ofNat 5 n }, rfl⟩

theorem afterSend_movesTo (s : State) : movesTo [.txData, .rxSkHigh, .csLow] s (afterSend s) := by
  cases h : s.seg with
  | start =>
    rw [afterSend_of_start h]
    exact loadSend_movesTo (by simp) ..
  | frame =>
    rw [afterSend_of_frame h]
    split
    · exact loadSend_movesTo (by simp) ..
    · split
      · exact ⟨.rxSkHigh, by simp, { s.work with rx := 0, cnt := BitVec.ofNat 5 s.width }, rfl⟩
      · exact movesTo_goPhase (by simp) s
  | payload =>
    rw [afterSend_of_payload h]
    exact movesTo_goPhase (by simp) s

theorem nextSend_movesTo (s : State) : movesTo [.txData, .rxSkHigh, .csLow] s (nextSend s) := by
  simp only [nextSend]
  split
  · exact afterSend_movesTo { s with cnt := s.cnt - 1 }
  · exact ⟨.txData, by simp, { s.work with cnt := s.cnt - 1 }, rfl⟩

theorem nextReceive_movesTo (s : State) : movesTo [.rxSkHigh, .csLow] s (nextReceive s) := by
  simp only [nextReceive]
  split
  · exact ⟨.csLow, by simp, { s.work with cnt := s.cnt - 1 }, rfl⟩
  · exact ⟨.rxSkHigh, by simp, { s.work with cnt := s.cnt - 1 }, rfl⟩

theorem samplePoll_movesTo (s : State) :
    movesTo [.pollCsLow, .pollDly, .pollAbort] (sampleDO s) (samplePoll s) := by
  have hmove {q : Phase} (hq : q ∈ [Phase.pollCsLow, .pollDly, .pollAbort]) :
      movesTo [.pollCsLow, .pollDly, .pollAbort] (sampleDO s) (goPhase q (pollOnce s)) :=
    ⟨q, hq, { s.work with pollCount := s.pollCount + 1 }, rfl⟩
  simp only [samplePoll]
  split
  · exact hmove (by simp)
  · split
    · exact hmove (by simp)
    · exact hmove (by simp)

/-- A micro-step out of a busy phase: its event and a move to another busy phase, or the completion with chip-select's fall (rules R207 to
R225). -/
theorem transition_cases {s : State} (hbusy : s.phase ≠ .idle) :
    movesTo ((graphRow s.phase).2.erase .idle) (afterEvent s) (transition s) ∨
    (s.phase ∈ [.csLow, .pollCsLow, .pollAbort] ∧
      ∃ st, (st = .ok ∨ s.phase = .pollAbort) ∧ transition s = finish st (writePin .cs .low s)) := by
  cases hphase : s.phase <;> simp only [transition, afterEvent, phaseEvents, hphase]
  case idle => exact absurd hphase hbusy
  case csDelay => exact .inl (loadSend_movesTo (by decide) ..)
  case txDly3 => exact .inl (nextSend_movesTo _)
  case rxDly2 => exact .inl (nextReceive_movesTo _)
  case rxSample => exact .inl ⟨.rxSkLow, by decide, { s.work with rx := _ }, rfl⟩
  case pollCsHigh => exact .inl ⟨.pollSample, by decide, { s.work with pollCount := 0 }, rfl⟩
  case pollSample => exact .inl (samplePoll_movesTo s)
  case csLow =>
    unfold afterCsLow
    split
    · exact .inl (movesTo_goPhase (by decide) _)
    · exact .inr ⟨by decide, .ok, .inl rfl, rfl⟩
  case pollCsLow => exact .inr ⟨by decide, .ok, .inl rfl, rfl⟩
  case pollAbort => exact .inr ⟨by decide, .pollTimeout, .inr trivial, rfl⟩
  all_goals exact .inl (movesTo_goPhase (by decide) _)

/-! ## What the event leaves alone -/

/-- The registers that a micro-step holds unless it completes. -/
structure HeldRegs where
  settings : Settings
  op : Op
  addr : BitVec 11
  data : BitVec 16
  status : Status
  result : BitVec 16

def State.held (s : State) : HeldRegs where
  settings := s.settings
  op := s.op
  addr := s.addr
  data := s.data
  status := s.status
  result := s.result

theorem afterEvent_held (s : State) : (afterEvent s).held = s.held := by
  unfold afterEvent
  split
  · rfl
  · rfl
  · rw [emitAll_eq]
    rfl

section MovesTo

variable {ps : List Phase} {u t : State} (h : movesTo ps u t)
include h

theorem held_of_movesTo : t.held = u.held := by
  obtain ⟨q, -, w, rfl⟩ := h
  rfl

theorem env_of_movesTo : t.env = u.env := by
  obtain ⟨q, -, w, rfl⟩ := h
  rfl

theorem done_of_movesTo : t.done = false := by
  obtain ⟨q, -, w, rfl⟩ := h
  rfl

theorem phase_of_movesTo : t.phase ∈ ps := by
  obtain ⟨q, hq, w, rfl⟩ := h
  exact hq

end MovesTo

theorem transition_of_idle {s : State} (h : s.phase = .idle) : transition s = { s with done := false } := by
  rw [transition, h]

theorem transition_trace (s : State) : (transition s).trace = s.trace ++ phaseEvents s :=
  congrArg StepFrame.trace (transition_stepFrame s)

theorem newEvents_transition (s : State) : newEvents s (transition s) = phaseEvents s := by
  rw [newEvents, transition_trace, List.drop_left]

/-- The three phases that complete do so with the fall of chip-select. -/
theorem phaseEvents_of_completing {s : State} (h : s.phase ∈ [.csLow, .pollCsLow, .pollAbort]) :
    phaseEvents s = [.pinWrite .cs .low] := by
  simp only [List.mem_cons, List.not_mem_nil, or_false] at h
  unfold phaseEvents
  obtain h | h | h := h <;> rw [h]

/-! ## The flag -/

/-- Only the completion of ENABLE and of DISABLE writes the flag (rule R225). -/
theorem op_of_finish_writeEnabled_ne {st : Status} {s : State} (h : (finish st s).writeEnabled ≠ s.writeEnabled) :
    s.op = .enable ∨ s.op = .disable := by
  rw [finish, complete_writeEnabled] at h
  unfold finishFlag at h
  split at h
  · exact .inl ‹_›
  · exact .inr ‹_›
  all_goals exact absurd rfl h

/-- Settles O30: a micro-step that moves on keeps the flag, so one that changes it is a completion. -/
theorem flagChangesWithLastChipSelectFall : Obligations.FlagChangesWithLastChipSelectFall := by
  intro s hflag
  have hbusy : s.phase ≠ .idle := fun hidle => hflag (by rw [transition_of_idle hidle])
  obtain hmove | ⟨hphase, st, -, hfinish⟩ := transition_cases hbusy
  · have hheld := (held_of_movesTo hmove).trans (afterEvent_held s)
    exact absurd (congrArg (fun r : HeldRegs => r.settings.writeEnabled) hheld) hflag
  · refine ⟨(newEvents_transition s).trans (phaseEvents_of_completing hphase), ?_, ?_, ?_⟩
    · rw [hfinish, finish, complete_phase]
    · rw [hfinish, finish, complete_done]
    · rw [hfinish] at hflag
      exact op_of_finish_writeEnabled_ne (s := writePin .cs .low s) hflag

end Sys2Proof.Machine
end

