-- ==== Sys2Proof/Proofs/Invariant.lean ====
section
/-! PROOF. The invariant `State.Inv` is kept by reset, by acceptance and by every micro-step (O51), and so by a whole command, which the
sequencer reaches from its acceptance by micro-steps (O50). -/

namespace Sys2Proof.Machine

open Sys2Proof

/-! ## The pin discipline, row by row of rule R227's table -/

/-- The pin levels before the event of a phase. -/
def pinsIn (p : Phase) (di : Level) : PinLevels := { cs := (phaseLevels p).1, sk := (phaseLevels p).2, di := di }

/-- Rule R141 allows each row's events at the levels of its phase. -/
theorem eventAllowed_of_row {p : Phase} {e : Event} (h : e ∈ (graphRow p).1) (di : Level) :
    eventAllowed (pinsIn p di) e = true := by
  have hrow : ∀ e ∈ (graphRow p).1, eventAllowed (pinsIn p di) e = true := by
    cases p <;> cases di <;> decide
  exact hrow e h

/-- Each row's events lead from the levels of its phase to those of the phases that may follow. -/
theorem phaseLevels_of_row {p q : Phase} {e : Event} (he : e ∈ (graphRow p).1) (hq : q ∈ (graphRow p).2) (di : Level) :
    ((levelsAfter (pinsIn p di) e).cs, (levelsAfter (pinsIn p di) e).sk) = phaseLevels q := by
  have hrow : ∀ e ∈ (graphRow p).1, ∀ q ∈ (graphRow p).2,
      ((levelsAfter (pinsIn p di) e).cs, (levelsAfter (pinsIn p di) e).sk) = phaseLevels q := by
    cases p <;> cases di <;> decide
  exact hrow e he q hq

theorem level_mem (l : Level) : l = .low ∨ l = .high := by
  cases l <;> simp

/-- A busy micro-step emits one event, of its phase's row (rule R227). -/
theorem phaseEvents_of_busy {s : State} (hbusy : s.phase ≠ .idle) :
    ∃ e ∈ (graphRow s.phase).1, phaseEvents s = [e] := by
  cases hphase : s.phase <;> simp only [phaseEvents, hphase]
  case idle => exact absurd hphase hbusy
  case txData | rxSample | pollSample => exact ⟨_, by simp [graphRow, level_mem], rfl⟩
  all_goals exact ⟨_, List.mem_singleton.mpr rfl, rfl⟩

/-- A busy micro-step goes to a phase of its row (rule R227). -/
theorem transition_phase_mem {s : State} (hbusy : s.phase ≠ .idle) : (transition s).phase ∈ (graphRow s.phase).2 := by
  obtain hmove | ⟨hphase, st, -, hfinish⟩ := transition_cases hbusy
  · exact List.mem_of_mem_erase (phase_of_movesTo hmove)
  · rw [hfinish, finish, complete_phase]
    simp only [List.mem_cons, List.not_mem_nil, or_false] at hphase
    obtain h | h | h := hphase <;> rw [h] <;> decide

theorem watchPins_append (v : PinLevels) (es fs : List Event) :
    watchPins v (es ++ fs) = (watchPins v es).bind fun w => watchPins w fs := by
  induction es generalizing v with
  | nil => rfl
  | cons e es ih =>
    rw [List.cons_append, watchPins, watchPins, ih]
    split <;> rfl

theorem State.Inv.pinLevels_eq {s : State} (h : s.Inv) : s.pinLevels = pinsIn s.phase s.di := by
  rw [pinsIn, ← h.phase_levels]
  rfl

theorem transition_pinLevels (s : State) : (transition s).pinLevels = (phaseEvents s).foldl levelsAfter s.pinLevels :=
  congrArg StepFrame.pinLevels (transition_stepFrame s)

section Pins

variable {s : State} (h : s.Inv) (hbusy : s.phase ≠ .idle)
include h hbusy

theorem transition_phase_levels :
    ((transition s).cs, (transition s).sk) = phaseLevels (transition s).phase := by
  obtain ⟨e, he, hevents⟩ := phaseEvents_of_busy hbusy
  have hpins : (transition s).pinLevels = levelsAfter (pinsIn s.phase s.di) e := by
    rw [transition_pinLevels, hevents, h.pinLevels_eq, List.foldl_cons, List.foldl_nil]
  rw [← phaseLevels_of_row he (transition_phase_mem hbusy) s.di, ← hpins]
  rfl

theorem transition_trace_pins : watchPins .allLow (transition s).trace = some (transition s).pinLevels := by
  obtain ⟨e, he, hevents⟩ := phaseEvents_of_busy hbusy
  have hallowed : eventAllowed s.pinLevels e = true := h.pinLevels_eq ▸ eventAllowed_of_row he s.di
  rw [transition_trace, watchPins_append, h.trace_pins, Option.bind_some, transition_pinLevels, hevents]
  exact if_pos hallowed

end Pins

/-! ## The sequencer's registers -/

/-- What `State.busyClean` asks of the counter, the operation and the limit in each phase (rules R209, R214, R220 and R224). -/
abbrev State.phaseFits (s : State) : Prop :=
  (s.phase.counts = true → 1 ≤ s.cnt.toNat ∧ s.cnt.toNat ≤ 16) ∧
  (s.phase.polls = true → s.op.writeClass = true) ∧
  (s.phase.receives = true → s.op = .read) ∧
  (s.phase = .pollAbort → s.pollLimit ≠ none)

/-- Phase `q` asks nothing that phase `p` does not ask. -/
abbrev Phase.asksNoMore (p q : Phase) : Prop :=
  (q.counts = true → p.counts = true) ∧ (q.polls = true → p.polls = true) ∧
    (q.receives = true → p.receives = true) ∧ q ≠ .pollAbort

theorem phaseFits_goPhase {s u : State} {q : Phase} (h : s.phaseFits) (hq : s.phase.asksNoMore q)
    (hcnt : u.cnt = s.cnt) (hop : u.op = s.op) : (goPhase q u).phaseFits := by
  obtain ⟨hcounts, hpolls, hreceives, -⟩ := h
  obtain ⟨hqcounts, hqpolls, hqreceives, hqabort⟩ := hq
  simp only [State.phaseFits, goPhase_phase, goPhase_cnt, goPhase_op, hcnt, hop]
  exact ⟨hcounts ∘ hqcounts, hpolls ∘ hqpolls, hreceives ∘ hqreceives, fun habort => absurd habort hqabort⟩

theorem phaseFits_of_idle {s : State} (h : s.phase = .idle) : s.phaseFits := by
  simp [State.phaseFits, h, Phase.counts, Phase.polls, Phase.receives]

theorem phaseFits_csLow (s : State) : (goPhase .csLow s).phaseFits := by
  simp [State.phaseFits, Phase.counts, Phase.polls, Phase.receives]

theorem cnt_bounds {n : Nat} (hpos : 1 ≤ n) (hle : n ≤ 16) :
    1 ≤ (BitVec.ofNat 5 n).toNat ∧ (BitVec.ofNat 5 n).toNat ≤ 16 := by
  rw [BitVec.toNat_ofNat]
  omega

theorem phaseFits_loadSend {n : Nat} (hpos : 1 ≤ n) (hle : n ≤ 16) (g : Seg) (v : BitVec 16) (s : State) :
    (loadSend g v n s).phaseFits :=
  ⟨fun _ => cnt_bounds hpos hle, nofun, nofun, nofun⟩

/-- The counter loads of rule R214 are lengths of at least one bit and at most sixteen. -/
theorem phaseFits_afterSend {s : State} (hA : s.addrWidth ≤ 11) : (afterSend s).phaseFits := by
  obtain ⟨hpos, hle⟩ := width_bounds s
  cases h : s.seg with
  | start =>
    rw [afterSend_of_start h]
    exact phaseFits_loadSend (by omega) (by omega) ..
  | frame =>
    rw [afterSend_of_frame h]
    split
    · exact phaseFits_loadSend hpos hle ..
    · split
      · exact ⟨fun _ => cnt_bounds hpos hle, nofun, fun _ => ‹s.op = .read›, nofun⟩
      · exact phaseFits_csLow s
  | payload =>
    rw [afterSend_of_payload h]
    exact phaseFits_csLow s

/-- A counter that is not at its last bit counts down to at least one. -/
theorem cnt_sub_one_bounds {c : BitVec 5} (h : 1 ≤ c.toNat ∧ c.toNat ≤ 16) (hne : c - 1 ≠ 0) :
    1 ≤ (c - 1).toNat ∧ (c - 1).toNat ≤ 16 := by
  rw [toNat_cnt_sub_one h.1]
  have : (c - 1).toNat ≠ 0 := by simpa [BitVec.toNat_eq] using hne
  rw [toNat_cnt_sub_one h.1] at this
  omega

theorem phaseFits_nextSend {s : State} (hcnt : 1 ≤ s.cnt.toNat ∧ s.cnt.toNat ≤ 16) (hA : s.addrWidth ≤ 11) :
    (nextSend s).phaseFits := by
  simp only [nextSend]
  split
  · exact phaseFits_afterSend hA
  · exact ⟨fun _ => cnt_sub_one_bounds hcnt ‹_›, nofun, nofun, nofun⟩

theorem phaseFits_nextReceive {s : State} (hcnt : 1 ≤ s.cnt.toNat ∧ s.cnt.toNat ≤ 16) (hop : s.op = .read) :
    (nextReceive s).phaseFits := by
  simp only [nextReceive]
  split
  · exact phaseFits_csLow _
  · exact ⟨fun _ => cnt_sub_one_bounds hcnt ‹_›, nofun, fun _ => hop, nofun⟩

theorem pollLimit_of_limitReached {s : State} (h : limitReached s = true) : s.pollLimit ≠ none := by
  intro hnone
  simp [limitReached, hnone] at h

theorem phaseFits_samplePoll {s : State} (hop : s.op.writeClass = true) : (samplePoll s).phaseFits := by
  simp only [samplePoll]
  split
  · exact ⟨nofun, fun _ => hop, nofun, nofun⟩
  · split
    · exact ⟨nofun, fun _ => hop, nofun, fun _ => pollLimit_of_limitReached ‹_›⟩
    · exact ⟨nofun, fun _ => hop, nofun, nofun⟩

theorem transition_phaseFits {s : State} (h : s.phaseFits) (hA : s.addrWidth ≤ 11) : (transition s).phaseFits := by
  have hsame {q : Phase} {u : State} (hq : s.phase.asksNoMore q) (hcnt : u.cnt = s.cnt) (hop : u.op = s.op) :
      (goPhase q u).phaseFits := phaseFits_goPhase h hq hcnt hop
  obtain ⟨hcounts, hpolls, hreceives, -⟩ := h
  cases hphase : s.phase <;> simp only [transition, hphase] <;> rw [hphase] at hcounts hpolls hreceives hsame
  case csDelay => exact phaseFits_loadSend (by decide) (by decide) ..
  case txDly3 => exact phaseFits_nextSend (hcounts rfl) hA
  case rxDly2 => exact phaseFits_nextReceive (hcounts rfl) (hreceives rfl)
  case csLow =>
    unfold afterCsLow
    split
    · exact ⟨nofun, fun _ => ‹_›, nofun, nofun⟩
    · exact phaseFits_of_idle rfl
  case pollSample => exact phaseFits_samplePoll (hpolls rfl)
  case idle | pollCsLow | pollAbort => exact phaseFits_of_idle rfl
  all_goals exact hsame (by decide) rfl rfl

/-! ## The responder -/

theorem Env.wf_iff (e : Env) : e.wf = true ↔ ∀ c, e.chip = some c → c.wf := by
  unfold Env.wf
  cases e.chip with
  | none => simp
  | some c =>
    rw [decide_eq_true_iff]
    exact ⟨fun h _ hc => Option.some.inj hc ▸ h, fun h => h c rfl⟩

theorem Chip.sees_wf {c : Chip} (h : c.wf) (ev : Event) : (c.sees ev).wf := by
  cases ev with
  | pinWrite p l => exact Chip.onPinWrite_wf h p l
  | pinRead l | delay k | cfgOut p | cfgInDO => exact h

theorem Env.observe_wf {e : Env} (h : e.wf = true) (ev : Event) : (e.observe ev).wf = true := by
  rw [Env.wf_iff] at h ⊢
  intro c hc
  rw [observe_chip, Option.map_eq_some_iff] at hc
  obtain ⟨c', hc', rfl⟩ := hc
  exact Chip.sees_wf (h c' hc') ev

theorem Env.answered_wf {e : Env} (h : e.wf = true) : e.answered.wf = true := by
  unfold Env.answered
  split
  · exact h
  · split
    · rw [Env.wf_iff] at h ⊢
      rintro c ⟨⟩
      exact Chip.sampled_wf (h _ ‹_›)
    · exact h

theorem foldl_observe_wf {e : Env} (h : e.wf = true) (es : List Event) : (es.foldl Env.observe e).wf = true := by
  induction es generalizing e with
  | nil => exact h
  | cons ev es ih => exact ih (Env.observe_wf h ev)

theorem afterEvent_env_wf {s : State} (h : s.env.wf = true) : (afterEvent s).env.wf = true := by
  unfold afterEvent
  split
  · exact Env.answered_wf h
  · exact Env.answered_wf h
  · rw [emitAll_eq]
    exact foldl_observe_wf h _

/-! ## One micro-step -/

theorem State.Inv.opened_of_busy {s : State} (h : s.Inv) (hbusy : s.phase ≠ .idle) : s.opened = true := by
  cases hopen : s.opened with
  | true => rfl
  | false => exact absurd (h.closed_clean hopen).1 hbusy

theorem finishFlag_env (s : State) : (finishFlag s).env = s.env := by
  unfold finishFlag
  split <;> rfl

section Busy

variable {s : State} (h : s.Inv) (hbusy : s.phase ≠ .idle)
include h hbusy

/-- A non-OK completion is the poll's time-out, of a write-class operation, with result 0 (rules R224, R225 and R240). -/
theorem transition_result_zero : (transition s).status ≠ .ok → (transition s).result = 0 := by
  obtain hmove | ⟨-, st, hst, hfinish⟩ := transition_cases hbusy
  · obtain ⟨-, -, -, -, hstatus, hresult⟩ := HeldRegs.mk.inj ((held_of_movesTo hmove).trans (afterEvent_held s))
    rw [hstatus, hresult]
    exact h.result_zero
  · rw [hfinish]
    intro hne
    have habort : s.phase = .pollAbort := hst.resolve_left hne
    obtain ⟨⟨-, -, -, hpolls, -⟩, -⟩ := h.busy_clean hbusy
    have hop : s.op.writeClass = true := hpolls (by rw [habort]; rfl)
    rw [finish_of_writeClass (s := writePin .cs .low s) hop, complete_result]

theorem transition_env_wf : (transition s).env.wf = true := by
  obtain hmove | ⟨-, st, -, hfinish⟩ := transition_cases hbusy
  · rw [env_of_movesTo hmove]
    exact afterEvent_env_wf h.chip_wf
  · rw [hfinish, finish, complete_env, finishFlag_env]
    exact Env.observe_wf h.chip_wf _

theorem transition_busy_clean (hbusy' : (transition s).phase ≠ .idle) :
    (transition s).busyClean ∧ (transition s).done = false := by
  obtain ⟨⟨hbus, hgate, hcounts, hpolls, hreceives, habort, haddr, hdata⟩, -⟩ := h.busy_clean hbusy
  obtain ⟨hlegal, -⟩ := h.open_profile (h.opened_of_busy hbusy)
  obtain ⟨hcounts', hpolls', hreceives', habort'⟩ :=
    transition_phaseFits ⟨hcounts, hpolls, hreceives, habort⟩ (addrWidth_bounds hlegal).2
  have hregs := transition_openRegs s
  obtain hmove | ⟨-, st, -, hfinish⟩ := transition_cases hbusy
  · obtain ⟨hset, hop, ha, hd, -, -⟩ := HeldRegs.mk.inj ((held_of_movesTo hmove).trans (afterEvent_held s))
    have hwe : (transition s).writeEnabled = s.writeEnabled := congrArg Settings.writeEnabled hset
    refine ⟨⟨?_, ?_, hcounts', hpolls', hreceives', habort', ?_, ?_⟩, done_of_movesTo hmove⟩
    · rwa [hop]
    · rwa [hop, hwe]
    · rwa [ha, addrWidth_of_openRegs hregs]
    · rwa [hd, width_of_openRegs hregs]
  · rw [hfinish] at hbusy'
    exact absurd rfl hbusy'

end Busy

/-- A micro-step without a command keeps the invariant. -/
theorem transition_inv {s : State} (h : s.Inv) : (transition s).Inv := by
  by_cases hidle : s.phase = .idle
  · rw [transition_of_idle hidle]
    exact ⟨h.open_profile, h.closed_clean, h.phase_levels, h.trace_pins, (absurd hidle ·), h.result_zero, h.chip_wf⟩
  · have hopen := h.opened_of_busy hidle
    have hregs := transition_openRegs s
    obtain ⟨hlegal, hpad⟩ := h.open_profile hopen
    have hopen' := opened_of_openRegs hregs hopen
    exact {
      open_profile _ := ⟨profileLegal_of_openRegs hregs hlegal, (congrArg OpenRegs.padOe hregs).trans hpad⟩
      closed_clean hclosed := absurd (hclosed.symm.trans hopen') nofun
      phase_levels := transition_phase_levels h hidle
      trace_pins := transition_trace_pins h hidle
      busy_clean := transition_busy_clean h hidle
      result_zero := transition_result_zero h hidle
      chip_wf := transition_env_wf h hidle }

/-! ## Acceptance -/

theorem openWith_trace_pins {s : State} (h : s.Inv) (m : Model) (o : Organization) :
    watchPins .allLow (openWith m o s).trace = some (openWith m o s).pinLevels := by
  have htrace : (openWith m o s).trace = s.trace ++ openEvents := by rw [openWith_eq]
  rw [htrace, openWith_pinLevels, watchPins_append, h.trace_pins]
  rfl

section Idle

variable {s : State} (h : s.Inv) (hidle : s.phase = .idle)
include h hidle

theorem idle_levels : (s.cs, s.sk) = phaseLevels .idle := hidle ▸ h.phase_levels

theorem complete_inv {st : Status} {r : BitVec 16} (hr : st ≠ .ok → r = 0) : (complete st r s).Inv where
  open_profile := h.open_profile
  closed_clean hclosed := by
    obtain ⟨-, hrest⟩ := h.closed_clean hclosed
    exact ⟨rfl, hrest⟩
  phase_levels := idle_levels (s := s) h hidle
  trace_pins := h.trace_pins
  busy_clean hbusy := absurd rfl hbusy
  result_zero := hr
  chip_wf := h.chip_wf

theorem raise_inv (st : Status) : (raise st s).Inv := complete_inv h hidle fun _ => rfl

theorem requireOpened_inv {body : State → State} (hbody : s.opened = true → (body s).Inv) :
    (requireOpened body s).Inv := by
  obtain ⟨hopen, hgate⟩ | ⟨-, hgate⟩ := requireOpened_cases body s
  · exact hgate ▸ hbody hopen
  · exact hgate ▸ raise_inv h hidle .notOpen

theorem requireWritable_inv {body : State → State} (hbody : s.opened = true → s.writeEnabled = true → (body s).Inv) :
    (requireWritable body s).Inv := by
  obtain ⟨hopen, hwe, hgate⟩ | ⟨-, -, hgate⟩ | ⟨-, hgate⟩ := requireWritable_cases body s
  · exact hgate ▸ hbody hopen hwe
  · exact hgate ▸ raise_inv h hidle .writeProtected
  · exact hgate ▸ raise_inv h hidle .notOpen

/-- Starting an operation: the operands are masked and truncated as they are latched (rule R205). -/
theorem startOp_inv {o : Op} (a d : Nat) (hopen : s.opened = true) (hbus : o.usesBus = true)
    (hgate : o.writeClass = true → s.writeEnabled = true) : (startOp o a d s).Inv where
  open_profile := h.open_profile
  closed_clean hclosed := absurd (hclosed.symm.trans hopen) nofun
  phase_levels := idle_levels (s := s) h hidle
  trace_pins := h.trace_pins
  busy_clean _ := by
    obtain ⟨hlegal, -⟩ := h.open_profile hopen
    refine ⟨⟨hbus, hgate, nofun, nofun, nofun, nofun, ?_, ?_⟩, rfl⟩
    · have hlt := Nat.mod_lt a (Nat.two_pow_pos s.addrWidth)
      show (effectiveAddress a s).toNat < 2 ^ s.addrWidth
      rwa [effectiveAddress_eq hlegal, BitVec.toNat_ofNat, Nat.mod_eq_of_lt (field_lt_addr hlegal hlt)]
    · exact ofNat_toNat_lt (Nat.mod_lt d (Nat.two_pow_pos s.width)) (width_bounds s).2
  result_zero := h.result_zero
  chip_wf := h.chip_wf

/-- A successful OPEN: the four `Cfg` events move no pin and are always allowed (rules R34 and R110). -/
theorem openWith_inv (m : Model) (o : Organization) : (openWith m o s).Inv := by
  have hpins := openWith_trace_pins h m o
  have hlegal : (openWith m o s).profileLegal :=
    ⟨openWith_capacityUnits m o s, openWith_addressBits m o s, openWith_addressMask m o s⟩
  rw [openWith_eq] at hpins hlegal ⊢
  exact ⟨fun _ => ⟨hlegal, rfl⟩, nofun, idle_levels (s := s) h hidle, hpins, (absurd rfl ·), (absurd rfl ·), h.chip_wf⟩

theorem openCommand_inv (m : Nat) (o : Organization) : (openCommand m o s).Inv := by
  obtain ⟨-, hraise⟩ | ⟨-, -, hraise⟩ | ⟨-, model, -, hopen⟩ := openCommand_cases m o s
  · exact hraise ▸ raise_inv h hidle .alreadyOpen
  · exact hraise ▸ raise_inv h hidle .cfgError
  · exact hopen ▸ openWith_inv h hidle model o

/-- An acceptance keeps the invariant: a refusal, a completion at once, or the start of an operation (rule R205). -/
theorem accept_inv (i : Instr) : (accept i s).Inv := by
  cases i with
  | openDev m o => exact openCommand_inv h hidle m o
  | enable a d | disable a d | read a d =>
    exact requireOpened_inv h hidle fun hopen => startOp_inv h hidle a d hopen rfl nofun
  | iswe => exact requireOpened_inv h hidle fun _ => complete_inv h hidle fun hst => absurd rfl hst
  | eraseAll a d | erase a d | writeAll a d | write a d =>
    exact requireWritable_inv h hidle fun hopen hwe => startOp_inv h hidle a d hopen rfl fun _ => hwe
  | reserved9 | reserved10 | reserved11 | reserved12 | reserved13 | reserved14 | reserved15 =>
    exact raise_inv h hidle .badOp

/-- A whole command keeps the invariant, because the sequencer reaches its end by micro-steps (rule R226). -/
theorem exec_inv {i : Instr} {t : State} (hexec : exec i s = .next t) : t.Inv :=
  (busyRun_exec hexec).keeps (fun _ _ hinv => transition_inv hinv) (accept_inv h hidle i)

end Idle

/-! ## A step at either grain -/

theorem callerTaken_inv {s : State} (h : s.Inv) : (callerTaken s).Inv :=
  ⟨h.open_profile, h.closed_clean, h.phase_levels, h.trace_pins, h.busy_clean, h.result_zero, h.chip_wf⟩

/-- Reset leaves the reset registers, and a responder as it was or none (rules R270 to R272). -/
theorem applyReset_inv {s : State} (h : s.Inv) : (applyReset s).Inv where
  open_profile := nofun
  closed_clean _ := reset_inv.closed_clean rfl
  phase_levels := rfl
  trace_pins := rfl
  busy_clean hbusy := absurd rfl hbusy
  result_zero _ := rfl
  chip_wf := by
    show (s.env.afterReset _).wf = true
    unfold Env.afterReset
    split
    · exact h.chip_wf
    · rfl

/-- A step keeps the invariant if the run of an accepted command does. -/
theorem cycle_inv {run : Instr → State → Host.Outcome State Fault Refusal}
    (hrun : ∀ {i u v}, u.Inv → u.phase = .idle → run i u = .next v → v.Inv) {s t : State} (h : s.Inv)
    (hstep : cycle run s = .next t) : t.Inv := by
  unfold cycle at hstep
  split at hstep
  case h_1 =>
    cases hstep
    exact applyReset_inv (callerTaken_inv h)
  case h_2 =>
    cases hstep
    exact transition_inv (callerTaken_inv h)
  case h_3 =>
    split at hstep
    · unfold acceptWord at hstep
      split at hstep
      · exact hrun (callerTaken_inv h) ‹s.phase = .idle› hstep
      · cases hstep
    · cases hstep
      exact transition_inv (callerTaken_inv h)

/-- Settles O50: at the grain of whole commands. -/
theorem stepKeepsInvariant : Obligations.StepKeepsInvariant :=
  fun _ _ h hstep => cycle_inv (fun hinv hidle hexec => exec_inv hinv hidle hexec) h hstep

/-- Settles O51: at the sequencer's grain an accepted command is its acceptance. -/
theorem microStepKeepsInvariant : Obligations.MicroStepKeepsInvariant := by
  intro s t h hstep
  refine cycle_inv (fun hinv hidle haccept => ?_) h hstep
  cases haccept
  exact accept_inv hinv hidle _

end Sys2Proof.Machine
end

