-- ==== Sys2Proof/Proofs/Primitives.lean ====
section
/-! PROOF. The primitives of `spec/41_primitives.md` as functions of their arguments and of the environment's answers: `sendBits` (O27),
`receiveBits` (O26) and the ready-poll (O25). -/

namespace Sys2Proof.Machine

open Sys2Proof

/-! ## `sendBits` -/

theorem bitsMsb_mod (n v : Nat) : bitsMsb n (v % 2 ^ n) = bitsMsb n v := by
  conv_rhs => rw [← Nat.div_add_mod v (2 ^ n)]
  exact (bitsMsb_low _ (Nat.mod_lt _ (Nat.two_pow_pos n)) le_rfl).symm

@[simp] theorem length_sendTrace (bits : List Level) : (sendTrace bits).length = 6 * bits.length := by
  induction bits with
  | nil => rfl
  | cons b bits ih =>
    rw [sendTrace_cons, List.length_append, ih, List.length_cons]
    simp only [sendBitEvents, List.length_cons, List.length_nil]
    omega

/-- A transmitted bit string leaves a clock that was `Low` on entry `Low` (rule R131 (6)). -/
theorem sk_after_sendTrace (bits : List Level) :
    (sendTrace bits).foldl (fun l e => pinAfter .sk e l) .low = .low := by
  induction bits with
  | nil => rfl
  | cons b bits ih =>
    rw [sendTrace_cons, List.foldl_append]
    exact ih

theorem sendBits_sk {s : State} (hsk : s.sk = .low) (v : BitVec 16) (n : Nat) : (sendBits v n s).sk = .low := by
  rcases Nat.eq_zero_or_pos n with rfl | hn
  · exact hsk
  · rw [sendBits_eq v n hn.ne', emitAll_eq, hsk]
    exact sk_after_sendTrace _

/-- Settles O27: the trace is that of the low bits, six events each, the last clock event a fall. -/
theorem sendBitsIgnoresHighBits : Obligations.SendBitsIgnoresHighBits := by
  intro s v n hn
  have hlow : v.toNat % 2 ^ n < 2 ^ n := Nat.mod_lt _ (Nat.two_pow_pos n)
  refine ⟨?_, ?_, fun hsk => sendBits_sk hsk v n⟩
  · rw [sendBits_trace, sendBits_trace, bitsMsb_ofNat hlow hn, bitsMsb_mod]
  · rw [sendBits_trace, List.length_append, length_sendTrace, length_bitsMsb]

/-! ## `receiveBits` -/

@[simp] theorem length_receiveTrace (ls : List Level) : (receiveTrace ls).length = 5 * ls.length := by
  induction ls with
  | nil => rfl
  | cons l ls ih =>
    rw [receiveTrace, List.flatMap_cons, List.length_append, List.length_cons]
    rw [receiveTrace] at ih
    simp only [ih, receiveBitEvents, List.length_cons, List.length_nil]
    omega

theorem receiveBits_di (n : Nat) (s : State) : (receiveBits n s).di = s.di := by
  obtain ⟨ls, rx, cnt, sk, env, -, h⟩ := receiveLoop_spec n { s with rx := 0, cnt := BitVec.ofNat 5 n }
  rw [receiveBits, h]

/-- The sample at place `j` has the weight `2^(n - j - 1)` (rule R133). -/
theorem bitsValue_eq_sum (ls : List Level) : bitsValue ls =
    ((List.range ls.length).map fun j => (ls.getD j .low).toNat * 2 ^ (ls.length - (j + 1))).sum := by
  induction ls with
  | nil => rfl
  | cons l ls ih =>
    have hfirst : bitsValue (l :: ls) = l.toNat * 2 ^ ls.length + bitsValue ls := by
      simpa [bitsValue] using foldl_bits_eq ls l.toNat
    rw [hfirst, ih, List.length_cons, List.range_succ_eq_map, List.map_cons, List.sum_cons, List.map_map]
    simp [Function.comp_def]

/-- Settles O26: the value is that of the samples as a bit string. -/
theorem receiveBitsValue : Obligations.ReceiveBitsValue := by
  intro s n _
  obtain ⟨ls, rfl, htrace, hrx⟩ := receiveBits_samples n s
  exact ⟨ls, rfl, htrace, length_receiveTrace ls, hrx, bitsValue_lt ls, receiveBits_di _ s, bitsValue_eq_sum ls⟩

/-! ## The ready-poll under a free environment -/

/-- The sample is the level that a free environment holds first, and it is used up. -/
theorem pollOnce_of_free {s : State} {l : Level} {rest : List Level} (hchip : s.env.chip = none)
    (hlevels : s.env.levels = l :: rest) :
    doLevel s = l ∧ pollOnce s = { s with
      trace := s.trace ++ [.pinRead l]
      pollCount := s.pollCount + 1
      env := { s.env with levels := rest } } := by
  have hlevel : doLevel s = l := by simp [doLevel, Env.level, hchip, Env.freeLevel, hlevels]
  refine ⟨hlevel, ?_⟩
  simp [pollOnce, sampleDO_eq, hlevel, Env.answered, hchip, Env.afterFree, hlevels]

theorem limitReached_iff (s : State) : limitReached s = true ↔ ∃ n, s.pollLimit = some n ∧ n ≤ s.pollCount := by
  unfold limitReached
  split <;> simp [*]

/-- The state of a poll after `k` samples that were `Low`, each followed by its delay, with these answers left. -/
def afterLows (k : Nat) (more : List Level) (s : State) : State :=
  { s with
    trace := s.trace ++ (List.replicate k pollWaitEvents).flatten
    pollCount := s.pollCount + k
    env := { s.env with levels := more } }

theorem afterLows_afterLows_one (k : Nat) (more more' : List Level) (s : State) :
    afterLows k more (afterLows 1 more' s) = afterLows (k + 1) more s := by
  simp [afterLows, List.replicate_succ, Nat.add_assoc, Nat.add_comm 1]

/-- One `Low` sample and its delay. -/
theorem delay_pollOnce_of_free {s : State} {more : List Level} (hchip : s.env.chip = none)
    (hlevels : s.env.levels = .low :: more) : delay .poll (pollOnce s) = afterLows 1 more s := by
  rw [(pollOnce_of_free hchip hlevels).2]
  simp [delay, emit, pinAfter, afterLows, pollWaitEvents]

/-- The poll's loop goes through `Low` samples that do not reach the limit (rule R137 (4)). -/
theorem pollLoop_of_lows {k : Nat} (fuel : Nat) {s : State} {more : List Level} (hchip : s.env.chip = none)
    (hlevels : s.env.levels = List.replicate k .low ++ more)
    (hlimit : ∀ n, s.pollLimit = some n → s.pollCount + k < n) :
    pollLoop (k + fuel) s = pollLoop fuel (afterLows k more s) := by
  induction k generalizing s with
  | zero =>
    have hsame : afterLows 0 more s = s := by simp [afterLows, ← show s.env.levels = more from hlevels]
    rw [Nat.zero_add, hsame]
  | succ k ih =>
    rw [List.replicate_succ, List.cons_append] at hlevels
    have hlow : ¬doLevel s = .high := by simp [(pollOnce_of_free hchip hlevels).1]
    have hgoes : ¬limitReached (pollOnce s) = true := by
      rw [limitReached_iff]
      rintro ⟨n, hn, hle⟩
      have hbefore := hlimit n hn
      have hcount : (pollOnce s).pollCount = s.pollCount + 1 := rfl
      omega
    have hlimit' (n : Nat) (hn : s.pollLimit = some n) : s.pollCount + 1 + k < n := by
      have := hlimit n hn
      omega
    rw [Nat.succ_add, pollLoop, if_neg hlow, if_neg hgoes, delay_pollOnce_of_free hchip hlevels,
      ih (s := afterLows 1 (List.replicate k Level.low ++ more) s) hchip rfl hlimit', afterLows_afterLows_one]

theorem pollStart_of_free {s : State} (hchip : s.env.chip = none) : pollStart s = { s with
    trace := s.trace ++ [.pinWrite .cs .high]
    cs := .high
    pollCount := 0 } := by
  simp [pollStart, writePin, emit, pinAfter, observe_of_chip_none hchip]

theorem writePin_cs_low_of_free {s : State} (hchip : s.env.chip = none) :
    writePin .cs .low s = { s with trace := s.trace ++ [.pinWrite .cs .low], cs := .low } := by
  simp [writePin, emit, pinAfter, observe_of_chip_none hchip]

/-- After the `Low` samples of a ready-poll the trace is `pollWaitTrace`. -/
theorem afterLows_pollStart {s : State} (hchip : s.env.chip = none) (k : Nat) (more : List Level) :
    afterLows k more (pollStart s) = { s with
      trace := s.trace ++ pollWaitTrace k
      cs := .high
      pollCount := k
      env := { s.env with levels := more } } := by
  rw [pollStart_of_free hchip]
  simp [afterLows, pollWaitTrace]

/-- The last sample of a ready-poll and the fall of chip-select (rule R137 (1) and (5)). -/
theorem pollEnd_of_free {s : State} (hchip : s.env.chip = none) (k : Nat) (l : Level) (rest : List Level) :
    writePin .cs .low (pollOnce (afterLows k (l :: rest) (pollStart s))) = { s with
      trace := s.trace ++ pollTrace k l
      cs := .low
      pollCount := k + 1
      env := { s.env with levels := rest } } := by
  have hlows := afterLows_pollStart hchip k (l :: rest)
  have hchip' : (afterLows k (l :: rest) (pollStart s)).env.chip = none := by
    rw [hlows]
    exact hchip
  rw [(pollOnce_of_free hchip' rfl).2, writePin_cs_low_of_free (by exact hchip'), hlows]
  simp [pollTrace]

theorem pollFuel_of_limit {s : State} {n : Nat} (h : s.pollLimit = some n) : pollFuel (pollStart s) = n + 1 := by
  have hstart : (pollStart s).pollLimit = some n := h
  rw [pollFuel, hstart]

section PollReady

variable {s : State} {k : Nat} (hchip : s.env.chip = none)
include hchip

theorem pollFuel_of_noLimit (hnone : s.pollLimit = none) : pollFuel (pollStart s) = s.env.levels.length := by
  rw [pollStart_of_free hchip]
  simp [pollFuel, hnone, Env.horizon, hchip]

/-- A ready-poll that looks at `k` samples and more, the first `k` of them `Low` and below the limit. -/
theorem pollReady_of_lows {fuel : Nat} {more : List Level} (hfuel : pollFuel (pollStart s) = k + fuel)
    (hlevels : s.env.levels = List.replicate k .low ++ more) (hlimit : ∀ n, s.pollLimit = some n → k < n) :
    pollReady s = pollFinish (pollLoop fuel (afterLows k more (pollStart s))) := by
  have hstart := pollStart_of_free hchip
  rw [pollReady_eq, hfuel, pollLoop_of_lows fuel (by rwa [hstart]) (by rwa [hstart])]
  rw [hstart]
  simpa using hlimit

theorem doLevel_afterLows (l : Level) (rest : List Level) : doLevel (afterLows k (l :: rest) (pollStart s)) = l := by
  rw [afterLows_pollStart hchip]
  exact (pollOnce_of_free (by exact hchip) rfl).1

/-- A poll whose answers hold a `High` before the limit looks at least that far. -/
theorem pollFuel_of_high {rest : List Level} (hlevels : s.env.levels = List.replicate k .low ++ .high :: rest)
    (hlimit : ∀ n, s.pollLimit = some n → k < n) : ∃ fuel, pollFuel (pollStart s) = k + (fuel + 1) := by
  cases hlim : s.pollLimit with
  | none => exact ⟨rest.length, by simp [pollFuel_of_noLimit hchip hlim, hlevels]⟩
  | some n =>
    have hfuel : pollFuel (pollStart s) = n + 1 := pollFuel_of_limit hlim
    have hlt := hlimit n hlim
    exact ⟨n - k, by omega⟩

/-- Ready at the first `High`, before or at the limit (rule R137 (1)). -/
theorem pollReady_of_high {rest : List Level} (hlevels : s.env.levels = List.replicate k .low ++ .high :: rest)
    (hlimit : ∀ n, s.pollLimit = some n → k < n) : pollReady s = complete .ok 0 { s with
      trace := s.trace ++ pollTrace k .high
      cs := .low
      pollCount := k + 1
      env := { s.env with levels := rest } } := by
  obtain ⟨fuel, hfuel⟩ := pollFuel_of_high hchip hlevels hlimit
  rw [pollReady_of_lows hchip hfuel hlevels hlimit, pollLoop, if_pos (doLevel_afterLows hchip .high rest), pollFinish,
    pollEnd_of_free hchip]

/-- A time-out when the sample at the limit is `Low`, with no delay after it (rule R137 (5)). -/
theorem pollReady_of_limit {rest : List Level} (hlevels : s.env.levels = List.replicate (k + 1) .low ++ rest)
    (hlimit : s.pollLimit = some (k + 1)) : pollReady s = complete .pollTimeout 0 { s with
      trace := s.trace ++ pollTrace k .low
      cs := .low
      pollCount := k + 1
      env := { s.env with levels := rest } } := by
  have hfuel : pollFuel (pollStart s) = k + (1 + 1) := pollFuel_of_limit hlimit
  have hlow : ¬doLevel (afterLows k (.low :: rest) (pollStart s)) = .high := by
    simp [doLevel_afterLows hchip .low rest]
  have hstop : limitReached (pollOnce (afterLows k (.low :: rest) (pollStart s))) = true := by
    rw [limitReached_iff, afterLows_pollStart hchip]
    exact ⟨k + 1, hlimit, le_rfl⟩
  rw [List.replicate_succ', List.append_assoc, List.singleton_append] at hlevels
  have hbelow (n : Nat) (hn : s.pollLimit = some n) : k < n := by
    rw [hlimit] at hn
    exact Option.some.inj hn ▸ Nat.lt_succ_self k
  rw [pollReady_of_lows hchip hfuel hlevels hbelow, pollLoop, if_neg hlow, if_pos hstop, pollFinish,
    pollEnd_of_free hchip]

/-- With no limit and no `High` in sight the poll goes on (rules R137 (4) and R281). -/
theorem pollReady_of_waiting (hlevels : s.env.levels = List.replicate k .low) (hnone : s.pollLimit = none) :
    pollReady s = goPhase .pollSample { s with
      trace := s.trace ++ pollWaitTrace k
      cs := .high
      pollCount := k
      env := { s.env with levels := [] } } := by
  have hfuel : pollFuel (pollStart s) = k + 0 := by simp [pollFuel_of_noLimit hchip hnone, hlevels]
  rw [pollReady_of_lows hchip hfuel (hlevels.trans (List.append_nil _).symm) (by simp [hnone]), pollLoop, pollFinish,
    afterLows_pollStart hchip]

end PollReady

theorem length_pollTrace (k : Nat) (l : Level) : (pollTrace k l).length = 2 + 2 * (k + 1) - 1 := by
  simp [pollTrace, pollWaitTrace, pollWaitEvents]
  omega

/-- Settles O25: the loop goes through the `Low` samples, then its last sample, the limit or the end of the settled answers decides. -/
theorem pollReadyOutcomes : Obligations.PollReadyOutcomes := by
  intro s k rest hchip
  exact ⟨fun hlevels hlimit => ⟨pollReady_of_high hchip hlevels hlimit, length_pollTrace k .high⟩,
    fun hlevels hlimit => pollReady_of_limit hchip hlevels hlimit,
    fun hlevels hnone => pollReady_of_waiting hchip hlevels hnone⟩

end Sys2Proof.Machine
end

