-- ==== Sys2Proof/Proofs/BusEvents.lean ====
section
/-! PROOF. The events of a bus command: the trace of its transaction, then those of its ready-poll, and the pins after them (rules R134 to
R138). -/

namespace Sys2Proof.Machine

open Sys2Proof

/-! ## The procedures as emitters -/

theorem StepFrame.emits_emits (es fs : List Event) (f : StepFrame) : (f.emits es).emits fs = f.emits (es ++ fs) := by
  simp [StepFrame.emits]

theorem emitAll_stepFrame (es : List Event) (s : State) : (emitAll es s).stepFrame = s.stepFrame.emits es := by
  induction es generalizing s with
  | nil => exact (StepFrame.emits_nil _).symm
  | cons e es ih => rw [emitAll_cons, ih, emit_stepFrame, StepFrame.emits_emits, List.singleton_append]

theorem sendBits_stepFrame (v : BitVec 16) (n : Nat) (s : State) :
    (sendBits v n s).stepFrame = s.stepFrame.emits (sendTrace (bitsMsb n v.toNat)) := by
  rcases Nat.eq_zero_or_pos n with rfl | hn
  · exact (StepFrame.emits_nil _).symm
  · rw [sendBits_eq v n hn.ne']
    exact emitAll_stepFrame _ s

theorem receiveBit_stepFrame (n : Nat) (s : State) :
    ∃ l, (receiveBit n s).stepFrame = s.stepFrame.emits (receiveBitEvents l) := by
  obtain ⟨l, env, h⟩ := receiveBit_spec n s
  exact ⟨l, by rw [h]; rfl⟩

theorem receiveLoop_stepFrame (n : Nat) (s : State) :
    ∃ ls, ls.length = n ∧ (receiveLoop n s).stepFrame = s.stepFrame.emits (receiveTrace ls) := by
  induction n generalizing s with
  | zero => exact ⟨[], rfl, (StepFrame.emits_nil _).symm⟩
  | succ n ih =>
    obtain ⟨l, hbit⟩ := receiveBit_stepFrame n s
    obtain ⟨ls, rfl, hloop⟩ := ih (receiveBit n s)
    refine ⟨l :: ls, rfl, ?_⟩
    rw [receiveLoop, hloop, hbit, StepFrame.emits_emits]
    rfl

theorem receiveBits_stepFrame (n : Nat) (s : State) :
    ∃ ls, ls.length = n ∧ (receiveBits n s).stepFrame = s.stepFrame.emits (receiveTrace ls) :=
  receiveLoop_stepFrame n { s with rx := 0, cnt := BitVec.ofNat 5 n }

theorem sendTrace_append (bits more : List Level) : sendTrace (bits ++ more) = sendTrace bits ++ sendTrace more :=
  List.flatMap_append

theorem beginTransaction_stepFrame (s : State) : (beginTransaction s).stepFrame =
    s.stepFrame.emits ([.pinWrite .cs .high, .delay .cs] ++ sendTrace [.high]) := by
  have hsend := sendBits_stepFrame 1 1 { delay .cs (writePin .cs .high s) with seg := .start }
  have hselect : (delay .cs (writePin .cs .high s)).stepFrame =
      s.stepFrame.emits [.pinWrite .cs .high, .delay .cs] := emitAll_stepFrame [.pinWrite .cs .high, .delay .cs] s
  rw [← StepFrame.emits_emits, ← hselect]
  exact hsend

/-- The payload's events: the transmitted unit, or the samples of the received one (rule R138). -/
theorem movePayload_stepFrame {A : Nat} (b : BusOp) {s : State} (hb : b.wf A s.width = true) :
    ∃ ls, ls.length = busRxBits s.width b ∧ (movePayload (busKind b) (busData b) s).stepFrame =
      s.stepFrame.emits (sendTrace (b.payload s.width) ++ receiveTrace ls) := by
  have htransmit {d : Nat} (hd : d < 2 ^ s.width) : (movePayload .tx (BitVec.ofNat 16 d) s).stepFrame =
      s.stepFrame.emits (sendTrace (bitsMsb s.width d) ++ receiveTrace []) := by
    rw [← bitsMsb_ofNat hd (width_bounds s).2]
    refine (sendBits_stepFrame (BitVec.ofNat 16 d) s.width { s with seg := .payload }).trans ?_
    rw [receiveTrace, List.flatMap_nil, List.append_nil]
    rfl
  cases b with
  | enable | disable | eraseAll | erase => exact ⟨[], rfl, (StepFrame.emits_nil _).symm⟩
  | writeAll d => exact ⟨[], rfl, htransmit (of_decide_eq_true hb)⟩
  | write f d => exact ⟨[], rfl, htransmit (of_decide_eq_true hb).2⟩
  | read f => exact receiveBits_stepFrame s.width s

/-- The frame and its start marker are the bits of the operation before its payload (rules R80 to R88). -/
theorem busBits_of_frame {s : State} (hlegal : s.profileLegal) {b : BusOp} (hb : b.wf s.addrWidth s.width = true) :
    encodeBus s.addrWidth s.width b =
      [.high] ++ bitsMsb (s.addrWidth + 2) (busFrame s b).toNat ++ b.payload s.width := by
  have hA := two_le_addrWidth hlegal
  rw [encodeBus_eq hA, busFrame_toNat hlegal hb, Nat.add_comm s.addrWidth,
    bitsMsb_append 2 b.opcode (BusOp.field_lt hA hb)]
  rfl

/-- What a transaction does to the wires: it emits its trace (rule R138). -/
theorem transactBus_stepFrame {s : State} (hlegal : s.profileLegal) {b : BusOp}
    (hb : b.wf s.addrWidth s.width = true) :
    ∃ ls, ls.length = busRxBits s.width b ∧ (transactBus b s).stepFrame =
      s.stepFrame.emits (transactTrace (encodeBus s.addrWidth s.width b) ls) := by
  have hbegin := beginTransaction_stepFrame s
  have hA : (beginTransaction s).addrWidth = s.addrWidth :=
    addrWidth_of_openRegs (congrArg StepFrame.openRegs hbegin)
  have hframe : (sendFrame (busFrame s b) (beginTransaction s)).stepFrame =
      (beginTransaction s).stepFrame.emits (sendTrace (bitsMsb (s.addrWidth + 2) (busFrame s b).toNat)) :=
    hA ▸ sendBits_stepFrame (busFrame s b) _ { beginTransaction s with seg := .frame }
  have hW : (sendFrame (busFrame s b) (beginTransaction s)).width = s.width :=
    width_of_openRegs (congrArg Settings.openRegs ((sendFrame_settings ..).trans (beginTransaction_settings s)))
  obtain ⟨ls, hlen, hpayload⟩ := movePayload_stepFrame b (hW ▸ hb)
  rw [hW] at hlen hpayload
  refine ⟨ls, hlen, ?_⟩
  rw [transactBus, transact, endTransaction, writePin, emit_stepFrame, hpayload, hframe, hbegin]
  simp only [StepFrame.emits_emits, transactTrace, busBits_of_frame hlegal hb, sendTrace_append, List.append_assoc]

/-! ## The ready-poll as an emitter -/

/-- An event that writes neither SK nor DI, so that no bit is clocked in by it. -/
def Event.clocksNothing : Event → Bool
  | .pinWrite .cs _ | .pinRead _ | .delay _ | .cfgOut _ | .cfgInDO => true
  | .pinWrite .sk _ | .pinWrite .di _ => false

/-- `t` is reached from `s` by events that clock nothing. -/
def reachesUnclocked (s t : State) : Prop :=
  ∃ es : List Event, es.all Event.clocksNothing = true ∧ t.stepFrame = s.stepFrame.emits es

theorem reachesUnclocked.emits {s t u : State} (h : reachesUnclocked s t) {es : List Event}
    (hes : es.all Event.clocksNothing = true) (hu : u.stepFrame = t.stepFrame.emits es) : reachesUnclocked s u := by
  obtain ⟨fs, hfs, ht⟩ := h
  exact ⟨fs ++ es, by simp [hfs, hes], by rw [hu, ht, StepFrame.emits_emits]⟩

theorem pollOnce_stepFrame (s : State) : (pollOnce s).stepFrame = s.stepFrame.emits [.pinRead (doLevel s)] :=
  emit_stepFrame (.pinRead (doLevel s)) s

theorem reachesUnclocked_pollLoop (fuel : Nat) {s u : State} (h : reachesUnclocked s u) :
    reachesUnclocked s (pollLoop fuel u).2 := by
  induction fuel generalizing u with
  | zero => exact h
  | succ fuel ih =>
    have honce : reachesUnclocked s (pollOnce u) := h.emits rfl (pollOnce_stepFrame u)
    rw [pollLoop]
    split
    · exact honce
    · split
      · exact honce
      · exact ih (honce.emits rfl (emit_stepFrame (.delay .poll) _))

theorem reachesUnclocked_pollFinish {s : State} {r : PollEnd × State} (h : reachesUnclocked s r.2) :
    reachesUnclocked s (pollFinish r) := by
  obtain ⟨e, u⟩ := r
  cases e with
  | ready | timedOut => exact h.emits rfl (emit_stepFrame (.pinWrite .cs .low) u)
  | waiting => exact h

theorem reachesUnclocked_pollReady (s : State) : reachesUnclocked s (pollReady s) := by
  rw [pollReady_eq]
  exact reachesUnclocked_pollFinish (reachesUnclocked_pollLoop _ ⟨_, rfl, emit_stepFrame (.pinWrite .cs .high) s⟩)

theorem reachesUnclocked_complete (st : Status) (r : BitVec 16) (s : State) : reachesUnclocked s (complete st r s) :=
  ⟨[], rfl, (StepFrame.emits_nil _).symm⟩

theorem reachesUnclocked_complete_setWriteEnabled (st : Status) (r : BitVec 16) (v : Bool) (s : State) :
    reachesUnclocked s (complete st r (setWriteEnabled v s)) :=
  reachesUnclocked_complete st r (setWriteEnabled v s)

/-! ## Whole commands -/

section Command

variable {s t : State} {i : Instr} {b : BusOp} (hopen : s.opened = true) (hlegal : s.profileLegal)
  (hgate : busGated b = true → s.writeEnabled = true) (hb : busOpOf s i = some b) (h : exec i s = .next t)
include hopen hlegal hgate hb h

/-- A bus command that passes its gates latches, runs the transaction of its operation, and then clocks nothing (rules R138 and R140). -/
theorem exec_bus_transacts : ∃ o a d, b.wf s.addrWidth s.width = true ∧
    reachesUnclocked (transactBus b (latch o a d s)) t := by
  have hrun {o : Op} {a d : Nat} {v : State} (hexec : exec i s = .next v) (hwf : b.wf s.addrWidth s.width = true)
      (hv : reachesUnclocked (transactBus b (latch o a d s)) v) :
      ∃ o a d, b.wf s.addrWidth s.width = true ∧ reachesUnclocked (transactBus b (latch o a d s)) t := by
    obtain rfl : v = t := Host.Outcome.next.inj (hexec.symm.trans h)
    exact ⟨o, a, d, hwf, hv⟩
  cases i <;> cases hb
  case enable => exact hrun (exec_enable_eq _ _ hopen) rfl (reachesUnclocked_complete_setWriteEnabled ..)
  case disable => exact hrun (exec_disable_eq _ _ hopen) rfl (reachesUnclocked_complete_setWriteEnabled ..)
  case read => exact hrun (exec_read_eq _ _ hopen hlegal) (mod_wf_read ..) (reachesUnclocked_complete ..)
  case eraseAll => exact hrun (exec_eraseAll_eq _ _ hopen (hgate rfl)) rfl (reachesUnclocked_pollReady _)
  case writeAll => exact hrun (exec_writeAll_eq _ _ hopen (hgate rfl)) (mod_wf_writeAll ..) (reachesUnclocked_pollReady _)
  case erase => exact hrun (exec_erase_eq _ _ hopen (hgate rfl) hlegal) (mod_wf_erase ..) (reachesUnclocked_pollReady _)
  case write => exact hrun (exec_write_eq _ _ hopen (hgate rfl) hlegal) (mod_wf_write ..) (reachesUnclocked_pollReady _)

/-- What such a command does to the wires: it emits the trace of its transaction, and then nothing that clocks a bit. -/
theorem exec_bus_stepFrame : ∃ u ls, ls.length = busRxBits s.width b ∧ reachesUnclocked u t ∧
    u.stepFrame = s.stepFrame.emits (transactTrace (encodeBus s.addrWidth s.width b) ls) := by
  obtain ⟨o, a, d, hwf, ht⟩ := exec_bus_transacts hopen hlegal hgate hb h
  obtain ⟨ls, hlen, hframe⟩ := transactBus_stepFrame (s := latch o a d s) hlegal hwf
  exact ⟨_, ls, hlen, ht, hframe⟩

end Command

end Sys2Proof.Machine
end

