-- ==== Sys2Proof/Proofs/DiAtRise.lean ====
section
/-! PROOF. The levels of DI at the rising edges of SK in the events of a bus command: the bits of its encoding, and the held last level under the
pulses of a READ (O37). -/

namespace Sys2Proof.Machine

open Sys2Proof

/-! ## Reading a trace piece by piece -/

/-- The level of DI that an event clocks in, if it is a rising edge of SK. -/
def riseOf (v : PinLevels) (e : Event) : List Level := if e = .pinWrite .sk .high ∧ v.sk = .low then [v.di] else []

theorem diAtRise_cons (v : PinLevels) (e : Event) (es : List Event) :
    diAtRise v.sk v.di (e :: es) =
      riseOf v e ++ diAtRise (levelsAfter v e).sk (levelsAfter v e).di es := by
  cases e with
  | pinWrite p l =>
    cases p with
    | cs | sk | di =>
      rw [diAtRise, riseOf]
      · split <;> rfl
      all_goals nofun
  | pinRead l | delay k | cfgOut p | cfgInDO =>
    rw [diAtRise, riseOf]
    · split <;> rfl
    all_goals nofun

/-- From these pin levels, the events clock in these levels of DI and end at those pin levels. -/
def clocksIn (v : PinLevels) (es : List Event) (ls : List Level) (w : PinLevels) : Prop :=
  diAtRise v.sk v.di es = ls ∧ es.foldl levelsAfter v = w

theorem clocksIn_nil (v : PinLevels) : clocksIn v [] [] v := ⟨rfl, rfl⟩

theorem clocksIn.cons {v w : PinLevels} {e : Event} {es : List Event} {ls : List Level}
    (h : clocksIn (levelsAfter v e) es ls w) : clocksIn v (e :: es) (riseOf v e ++ ls) w := by
  obtain ⟨hrise, hlevels⟩ := h
  exact ⟨by rw [diAtRise_cons, hrise], hlevels⟩

theorem clocksIn.append {u v w : PinLevels} {es fs : List Event} {ls ms : List Level} (h : clocksIn u es ls v)
    (k : clocksIn v fs ms w) : clocksIn u (es ++ fs) (ls ++ ms) w := by
  induction es generalizing u ls with
  | nil =>
    obtain ⟨rfl, rfl⟩ := h
    exact k
  | cons e es ih =>
    obtain ⟨rfl, hlevels⟩ := h
    rw [diAtRise_cons, List.append_assoc]
    exact (ih ⟨rfl, hlevels⟩).cons

/-! ## The events of a transaction -/

/-- The pins with the clock `Low`. -/
def clockLow (cs di : Level) : PinLevels := { cs := cs, sk := .low, di := di }

/-- A transmitted bit is on DI at its clock's rise (rule R130). -/
theorem clocksIn_sendTrace (bits : List Level) (c d : Level) :
    clocksIn (clockLow c d) (sendTrace bits) bits (clockLow c (bits.getLastD d)) := by
  induction bits generalizing d with
  | nil => exact clocksIn_nil _
  | cons b bits ih =>
    have hbit : clocksIn (clockLow c d) (sendBitEvents b) [b] (clockLow c b) := ⟨rfl, rfl⟩
    rw [sendTrace_cons, List.getLastD_cons]
    exact hbit.append (ih b)

/-- A received bit leaves DI alone (rule R133). -/
theorem clocksIn_receiveTrace (ls : List Level) (c d : Level) :
    clocksIn (clockLow c d) (receiveTrace ls) (List.replicate ls.length d) (clockLow c d) := by
  induction ls with
  | nil => exact clocksIn_nil _
  | cons l ls ih =>
    have hbit : clocksIn (clockLow c d) (receiveBitEvents l) [d] (clockLow c d) := ⟨rfl, rfl⟩
    exact hbit.append ih

theorem clocksIn_transactTrace (bits ls : List Level) (d : Level) :
    clocksIn (clockLow .low d) (transactTrace bits ls) (bits ++ List.replicate ls.length (bits.getLastD d))
      (clockLow .low (bits.getLastD d)) := by
  have hselect : clocksIn (clockLow .low d) [.pinWrite .cs .high, .delay .cs] [] (clockLow .high d) := ⟨rfl, rfl⟩
  have hdeselect (x : Level) : clocksIn (clockLow .high x) [.pinWrite .cs .low] [] (clockLow .low x) := ⟨rfl, rfl⟩
  have h := ((hselect.append (clocksIn_sendTrace bits .high d)).append (clocksIn_receiveTrace ls .high _)).append
    (hdeselect _)
  simpa only [transactTrace, List.nil_append, List.append_nil] using h

theorem clocksIn_of_clocksNothing {es : List Event} (h : es.all Event.clocksNothing = true) (c d : Level) :
    ∃ c', clocksIn (clockLow c d) es [] (clockLow c' d) := by
  induction es generalizing c with
  | nil => exact ⟨c, clocksIn_nil _⟩
  | cons e es ih =>
    obtain ⟨he, hes⟩ := Bool.and_eq_true_iff.mp h
    obtain ⟨c₁, hone⟩ : ∃ c₁, clocksIn (clockLow c d) [e] [] (clockLow c₁ d) := by
      cases e with
      | pinWrite p l =>
        cases p with
        | cs => exact ⟨l, rfl, rfl⟩
        | sk | di => cases he
      | pinRead l | delay k | cfgOut p | cfgInDO => exact ⟨c, rfl, rfl⟩
    obtain ⟨c₂, hrest⟩ := ih hes c₁
    exact ⟨c₂, hone.append hrest⟩

theorem newEvents_of_emits {s t : State} {es : List Event} (h : t.stepFrame = s.stepFrame.emits es) :
    newEvents s t = es := by
  have htrace : t.trace = s.trace ++ es := congrArg StepFrame.trace h
  rw [newEvents, htrace, List.drop_left]

theorem pinLevels_of_emits {s t : State} {es : List Event} (h : t.stepFrame = s.stepFrame.emits es) :
    t.pinLevels = es.foldl levelsAfter s.pinLevels :=
  congrArg StepFrame.pinLevels h

/-- Settles O37: the transaction clocks in the encoding and holds its last level, and the ready-poll clocks nothing. -/
theorem diBitsAreTheBusEncoding : Obligations.DiBitsAreTheBusEncoding := by
  intro s t i b hcs hsk hopen hlegal hgate hb h
  obtain ⟨u, ls, hlen, ⟨es, hes, ht⟩, hu⟩ := exec_bus_stepFrame hopen hlegal hgate hb h
  rw [hu, StepFrame.emits_emits] at ht
  obtain ⟨c, hnothing⟩ := clocksIn_of_clocksNothing hes .low ((encodeBus s.addrWidth s.width b).getLastD s.di)
  obtain ⟨hrise, hlevels⟩ := (clocksIn_transactTrace (encodeBus s.addrWidth s.width b) ls s.di).append hnothing
  have hpins : s.pinLevels = clockLow .low s.di := by rw [State.pinLevels, hcs, hsk, clockLow]
  rw [← hpins, ← pinLevels_of_emits ht] at hlevels
  have hdi : t.di = (encodeBus s.addrWidth s.width b).getLastD s.di := congrArg PinLevels.di hlevels
  rw [newEvents_of_emits ht, hsk, hdi, ← hlen]
  exact hrise.trans (List.append_nil _)

end Sys2Proof.Machine
end

