-- ==== Sys2Proof/Proofs/SentTransaction.lean ====
section
/-! PROOF. A transaction without a received payload as one state (rules R130, R134, R135, R138), and the write-class form of it: such a
transaction followed by a ready-poll that sees `High` (rules R136 and R140). -/

namespace Sys2Proof

/-- The last bit of an operation: a zero of the control field, or bit 0 of its address field or of its payload (rules R83 to R86). -/
def BusOp.lastBit : BusOp → Level
  | .enable | .disable | .eraseAll => .low
  | .read f | .erase f => Level.ofBool (f.testBit 0)
  | .writeAll d | .write _ d => Level.ofBool (d.testBit 0)

theorem getLastD_append_bitsMsb (bits : List Level) {n : Nat} (hn : n ≠ 0) (v : Nat) (d : Level) :
    (bits ++ bitsMsb n v).getLastD d = Level.ofBool (v.testBit 0) := by
  induction n generalizing bits with
  | zero => contradiction
  | succ n ih =>
    rw [bitsMsb]
    rcases Nat.eq_zero_or_pos n with rfl | hpos
    · exact List.getLastD_concat ..
    · rw [List.append_cons, ih _ hpos.ne']

theorem getLastD_encodeBus {A W : Nat} (hA : 3 ≤ A) (hW : W ≠ 0) (b : BusOp) (d : Level) :
    (encodeBus A W b).getLastD d = b.lastBit := by
  have hzeros : A - 2 ≠ 0 := by omega
  have hfield : A ≠ 0 := by omega
  cases b with
  | enable | disable | eraseAll =>
    rw [encodeBus, List.getLastD_cons, getLastD_append_bitsMsb _ hzeros, Nat.zero_testBit]
    rfl
  | read f | erase f => rw [encodeBus, List.getLastD_cons, getLastD_append_bitsMsb _ hfield, BusOp.lastBit]
  | writeAll d | write f d => rw [encodeBus, List.getLastD_cons, getLastD_append_bitsMsb _ hW, BusOp.lastBit]

end Sys2Proof

namespace Sys2Proof.Machine

open Sys2Proof

/-! ## The shift register and its events -/

/-- The state after these events, the last of them those of a `sendBits` call for segment `g` with value `v` (rule R130). -/
def sent (g : Seg) (v : BitVec 16) (es : List Event) (s : State) : State :=
  { emitAll es s with seg := g, sh := v, cnt := 0 }

/-- What is written to the shift register and its segment does not touch what is emitted after it. -/
theorem emitAll_setShift (es : List Event) (g : Seg) (v : BitVec 16) (n : BitVec 5) (s : State) :
    emitAll es { s with seg := g, sh := v, cnt := n } = { emitAll es s with seg := g, sh := v, cnt := n } := by
  simp only [emitAll_eq]

theorem sendBits_eq_sent (g : Seg) (v : BitVec 16) {n : Nat} (hn : n ≠ 0) (s : State) :
    sendBits v n { s with seg := g } = sent g v (sendTrace (bitsMsb n v.toNat)) s := by
  simp only [sendBits_eq v n hn, sent, emitAll_eq]

theorem sent_emitAll (g : Seg) (v : BitVec 16) (es fs : List Event) (s : State) :
    sent g v fs (emitAll es s) = sent g v (es ++ fs) s := by
  rw [sent, sent, emitAll_append]

theorem emitAll_sent (g : Seg) (v : BitVec 16) (es fs : List Event) (s : State) :
    emitAll fs (sent g v es s) = sent g v (es ++ fs) s := by
  rw [sent, emitAll_setShift, ← emitAll_append, sent]

/-- The later call's segment and value stand, the events add up. -/
theorem sent_sent (g g' : Seg) (v v' : BitVec 16) (es fs : List Event) (s : State) :
    sent g' v' fs (sent g v es s) = sent g' v' (es ++ fs) s := by
  rw [sent, emitAll_sent]
  rfl

/-- The registers of OPEN stand, so the widths do. -/
theorem sent_openRegs (g : Seg) (v : BitVec 16) (es : List Event) (s : State) : (sent g v es s).openRegs = s.openRegs :=
  congrArg StepFrame.openRegs (emitAll_stepFrame es s)

/-! ## The transaction -/

/-- The last `sendBits` call of an operation (rule R138). -/
def busSeg : BusOp → Seg
  | .writeAll _ | .write _ _ => .payload
  | .enable | .disable | .eraseAll | .read _ | .erase _ => .frame

/-- The value of that call. -/
def busWord (s : State) (b : BusOp) : BitVec 16 :=
  match b with
  | .writeAll _ | .write _ _ => busData b
  | .enable | .disable | .eraseAll | .read _ | .erase _ => busFrame s b

theorem beginTransaction_eq_sent (s : State) :
    beginTransaction s = sent .start 1 ([.pinWrite .cs .high, .delay .cs] ++ sendTrace [.high]) s := by
  rw [← sent_emitAll]
  exact sendBits_eq_sent .start 1 (by decide) _

theorem movePayload_tx_eq_sent {d : Nat} {s : State} (hd : d < 2 ^ s.width) :
    movePayload .tx (BitVec.ofNat 16 d) s = sent .payload (BitVec.ofNat 16 d) (sendTrace (bitsMsb s.width d)) s := by
  obtain ⟨hpos, hle⟩ := width_bounds s
  rw [← bitsMsb_ofNat hd hle]
  exact sendBits_eq_sent .payload _ (Nat.ne_of_gt hpos) s

/-- The frame and the transmitted payload of an operation, sent after the start marker. -/
theorem movePayload_sendFrame_eq_sent {s t : State} {b : BusOp} (hregs : t.openRegs = s.openRegs)
    (hb : b.wf s.addrWidth s.width = true) (hrx : busRxBits s.width b = 0) :
    movePayload (busKind b) (busData b) (sendFrame (busFrame s b) t) = sent (busSeg b) (busWord s b)
      (sendTrace (bitsMsb (s.addrWidth + 2) (busFrame s b).toNat ++ b.payload s.width)) t := by
  have hframe : sendFrame (busFrame s b) t =
      sent .frame (busFrame s b) (sendTrace (bitsMsb (s.addrWidth + 2) (busFrame s b).toNat)) t :=
    addrWidth_of_openRegs hregs ▸ sendBits_eq_sent .frame _ (Nat.succ_ne_zero _) t
  have hwidth : (sendFrame (busFrame s b) t).width = s.width :=
    width_of_openRegs ((hframe ▸ sent_openRegs ..).trans hregs)
  have htransmit {d : Nat} (hd : d < 2 ^ s.width) :
      movePayload .tx (BitVec.ofNat 16 d) (sendFrame (busFrame s b) t) = sent .payload (BitVec.ofNat 16 d)
        (sendTrace (bitsMsb (s.addrWidth + 2) (busFrame s b).toNat ++ bitsMsb s.width d)) t := by
    rw [movePayload_tx_eq_sent (hwidth.symm ▸ hd), hwidth, hframe, sent_sent, sendTrace_append]
  cases b with
  | enable | disable | eraseAll | erase => exact hframe.trans (by rw [BusOp.payload, List.append_nil]; rfl)
  | writeAll d => exact htransmit (of_decide_eq_true hb)
  | write f d => exact htransmit (of_decide_eq_true hb).2
  | read f => exact absurd hrx (Nat.ne_of_gt (width_bounds s).1)

/-- A transaction with no received payload emits its trace and leaves its last call in the shift register (rule R138). -/
theorem transactBus_eq_sent {s : State} {b : BusOp} (hlegal : s.profileLegal) (hb : b.wf s.addrWidth s.width = true)
    (hrx : busRxBits s.width b = 0) : transactBus b s =
      sent (busSeg b) (busWord s b) (transactTrace (encodeBus s.addrWidth s.width b) []) s := by
  have hbegin := beginTransaction_eq_sent s
  have hmoved := movePayload_sendFrame_eq_sent (hbegin ▸ sent_openRegs ..) hb hrx
  rw [hbegin, sent_sent] at hmoved
  rw [transactBus, transact, hbegin, hmoved]
  refine (emitAll_sent _ _ _ [.pinWrite .cs .low] s).trans ?_
  simp only [transactTrace, busBits_of_frame hlegal hb, sendTrace_append, receiveTrace, List.flatMap_nil,
    List.append_nil, List.append_assoc]

/-! ## The pins -/

/-- Emitting a list, given the pin levels it leads to. -/
theorem emitAll_of_levels {es : List Event} {s : State} {v : PinLevels} (h : es.foldl levelsAfter s.pinLevels = v) :
    emitAll es s = { s with
      trace := s.trace ++ es, cs := v.cs, sk := v.sk, di := v.di, env := es.foldl Env.observe s.env } := by
  rw [← h, ← emitAll_pinLevels, emitAll_eq]
  rfl

/-- Whatever the pins are before it, a transaction that sends a bit ends with chip-select and clock `Low` and DI at its last bit. -/
theorem levels_after_transactTrace (v : PinLevels) (b : Level) (bits ls : List Level) :
    (transactTrace (b :: bits) ls).foldl levelsAfter v = clockLow .low (bits.getLastD b) := by
  have hfirst : ([Event.pinWrite .cs .high, .delay .cs] ++ sendBitEvents b).foldl levelsAfter v = clockLow .high b := rfl
  rw [transactTrace, sendTrace_cons, ← List.append_assoc, List.foldl_append, List.foldl_append, List.foldl_append, hfirst,
    (clocksIn_sendTrace bits .high b).2, (clocksIn_receiveTrace ls .high _).2]
  rfl

theorem levels_after_encodeBus {s : State} (hlegal : s.profileLegal) (b : BusOp) (ls : List Level) (v : PinLevels) :
    (transactTrace (encodeBus s.addrWidth s.width b) ls).foldl levelsAfter v = clockLow .low b.lastBit := by
  have hA : 3 ≤ s.addrWidth := le_trans (by decide) (addrWidth_bounds hlegal).1
  have hW : s.width ≠ 0 := Nat.ne_of_gt (width_bounds s).1
  rw [← getLastD_encodeBus hA hW b .low, encodeBus_eq (two_le_addrWidth hlegal), busBits, List.getLastD_cons]
  exact levels_after_transactTrace ..

/-- The closed form of a transaction with no received payload. -/
theorem transactBus_eq {s : State} {b : BusOp} (hlegal : s.profileLegal) (hb : b.wf s.addrWidth s.width = true)
    (hrx : busRxBits s.width b = 0) : transactBus b s = { s with
      seg := busSeg b
      sh := busWord s b
      cnt := 0
      cs := .low
      sk := .low
      di := b.lastBit
      trace := s.trace ++ transactTrace (encodeBus s.addrWidth s.width b) []
      env := (transactTrace (encodeBus s.addrWidth s.width b) []).foldl Env.observe s.env } := by
  rw [transactBus_eq_sent hlegal hb hrx, sent, emitAll_of_levels (levels_after_encodeBus hlegal b [] _)]
  rfl

theorem length_transactTrace (bits ls : List Level) :
    (transactTrace bits ls).length = 3 + 6 * bits.length + 5 * ls.length := by
  simp only [transactTrace, List.length_append, length_sendTrace, length_receiveTrace, List.length_cons, List.length_nil]
  omega

/-- A transaction, the flag and the completion, as ENABLE and DISABLE have them (rules R140 and R225). -/
theorem complete_setWriteEnabled_transactBus {s : State} {b : BusOp} (hlegal : s.profileLegal)
    (hb : b.wf s.addrWidth s.width = true) (hrx : busRxBits s.width b = 0) (st : Status) (r : BitVec 16) (f : Bool) :
    complete st r (setWriteEnabled f (transactBus b s)) = { s with
      seg := busSeg b
      sh := busWord s b
      cnt := 0
      cs := .low
      sk := .low
      di := b.lastBit
      trace := s.trace ++ transactTrace (encodeBus s.addrWidth s.width b) []
      env := (transactTrace (encodeBus s.addrWidth s.width b) []).foldl Env.observe s.env
      writeEnabled := f
      status := st
      result := r
      done := true
      phase := .idle } := by
  rw [transactBus_eq hlegal hb hrx, setWriteEnabled, complete]

/-- A write-class transaction and its ready-poll in a free environment that answers `High` before the limit (rules R136 and R140). -/
theorem pollReady_transactBus_of_high {s : State} {b : BusOp} {k : Nat} {rest : List Level} (hlegal : s.profileLegal)
    (hb : b.wf s.addrWidth s.width = true) (hrx : busRxBits s.width b = 0) (hchip : s.env.chip = none)
    (hlevels : s.env.levels = List.replicate k .low ++ .high :: rest) (hlimit : ∀ n, s.pollLimit = some n → k < n) :
    pollReady (transactBus b s) = { s with
      seg := busSeg b
      sh := busWord s b
      cnt := 0
      cs := .low
      sk := .low
      di := b.lastBit
      pollCount := k + 1
      trace := s.trace ++ transactTrace (encodeBus s.addrWidth s.width b) [] ++ pollTrace k .high
      env := { s.env with levels := rest }
      status := .ok
      result := 0
      done := true
      phase := .idle } := by
  rw [transactBus_eq hlegal hb hrx, foldl_observe_of_chip_none hchip]
  exact pollReady_of_high (by exact hchip) (by exact hlevels) (by exact hlimit)

end Sys2Proof.Machine
end

