-- ==== Sys2Proof/Proofs/ControlOps.lean ====
section
/-! PROOF. The control operations of `spec/42_control_ops.md` as one next state each: ENABLE (O12), DISABLE (O13), ISWE (O14), ERASEALL (O17) and
WRITEALL (O19). -/

namespace Sys2Proof.Machine

open Sys2Proof

/-- The gate of a closed idle engine: `NOT_OPEN`, and the completion registers alone change (rules R160 and R245). -/
theorem requireOpened_of_closed {s : State} (hclosed : s.opened = false) (hidle : s.phase = .idle) (body : State → State) :
    requireOpened body s = { s with status := .notOpen, result := 0, done := true } := by
  rw [requireOpened, if_neg (Bool.eq_false_iff.mp hclosed), raise_of_idle hidle]

/-- Settles O12: the closed form of the transaction, then the flag and the completion. -/
theorem enableSendsFrameAndSetsFlag : Obligations.EnableSendsFrameAndSetsFlag := by
  intro s a d
  refine ⟨fun hclosed hidle => congrArg Host.Outcome.next (requireOpened_of_closed hclosed hidle _),
    fun hopen hlegal => ⟨?_, ?_⟩, rfl, rfl⟩
  · rw [exec_enable_eq a d hopen, complete_setWriteEnabled_transactBus (s := latch .enable a d s) hlegal rfl rfl]
    rfl
  · rw [length_transactTrace, (busFrameLengths _ s.width .enable (two_le_addrWidth hlegal)).1, busTxBits, List.length_nil]
    omega

/-- Settles O13: as ENABLE; the sub-code 0 gives the frame 0. -/
theorem disableSendsFrameAndClearsFlag : Obligations.DisableSendsFrameAndClearsFlag := by
  intro s a d
  refine ⟨fun hclosed hidle => congrArg Host.Outcome.next (requireOpened_of_closed hclosed hidle _),
    fun hopen hlegal => ?_, rfl, rfl⟩
  have hframe : busWord (latch .disable a d s) .disable = 0 := congrArg (BitVec.ofNat 16) (Nat.zero_shiftLeft _)
  rw [exec_disable_eq a d hopen, complete_setWriteEnabled_transactBus (s := latch .disable a d s) hlegal rfl rfl, hframe]
  rfl

/-- An open engine answers ISWE with its flag and moves to `Idle` (rule R163). -/
theorem exec_iswe_of_opened {s : State} (hopen : s.opened = true) :
    exec .iswe s = .next (complete .ok (flagWord s.writeEnabled) s) :=
  congrArg Host.Outcome.next (requireOpened_of_opened hopen _)

/-- In `Idle` a completion changes the completion registers alone (rule R204). -/
theorem complete_of_idle {s : State} (h : s.phase = .idle) (st : Status) (r : BitVec 16) :
    complete st r s = { s with status := st, result := r, done := true } := by
  rw [complete, ← h]

/-- Settles O14: ISWE is a completion with the flag, and a successful OPEN has cleared the flag. -/
theorem isweReportsFlag : Obligations.IsweReportsFlag := by
  refine ⟨fun s hidle => ⟨fun hclosed => ?_, fun hopen => ?_⟩, fun s => rfl, fun s t m o hclosed hexec => ?_, rfl⟩
  · exact congrArg Host.Outcome.next (requireOpened_of_closed hclosed hidle _)
  · rw [exec_iswe_of_opened hopen, complete_of_idle hidle, flagWord]
  · rw [exec_openDev_of_closed hclosed] at hexec
    obtain rfl := Host.Outcome.next.inj hexec
    rw [exec_iswe_of_opened rfl, complete_of_idle rfl]
    rfl

/-- Settles O17: the transaction and the ready-poll as one state. -/
theorem eraseAllCompletes : Obligations.EraseAllCompletes := by
  intro s a d k rest hopen hlegal hwe hchip hlevels hlimit
  rw [exec_eraseAll_eq a d hopen hwe,
    pollReady_transactBus_of_high (s := latch .eraseAll a d s) hlegal rfl rfl hchip hlevels hlimit]
  rfl

/-- Bit 0 of a value is not lost by the truncation to a unit. -/
theorem testBit_zero_mod_width (d : Nat) (s : State) : (d % 2 ^ s.width).testBit 0 = d.testBit 0 := by
  rw [Nat.testBit_mod_two_pow, decide_eq_true (show 0 < s.width from (width_bounds s).1), Bool.true_and]

/-- Settles O19: as ERASEALL, with the truncated value as payload. -/
theorem writeAllCompletes : Obligations.WriteAllCompletes := by
  intro s a d k rest hopen hlegal hwe hchip hlevels hlimit
  rw [exec_writeAll_eq a d hopen hwe,
    pollReady_transactBus_of_high (s := latch .writeAll a d s) (b := .writeAll (d % 2 ^ s.width)) hlegal
      (mod_wf_writeAll ..) rfl hchip hlevels hlimit,
    BusOp.lastBit, testBit_zero_mod_width]
  rfl

end Sys2Proof.Machine
end

