-- ==== Sys2Proof/Proofs/MemoryOps.lean ====
section
/-! PROOF. The memory operations of `spec/43_memory_ops.md` as one next state each: READ (O15), ERASE (O18) and
WRITE (O20). -/

namespace Sys2Proof.Machine

open Sys2Proof

/-! ## A received unit as a function of the environment (rules R132 and R133) -/

/-- The level that one received bit samples: DO after the rising clock edge. -/
def Env.receivedLevel (e : Env) : Level := (e.observe (.pinWrite .sk .high)).level

/-- The environment after one received bit. -/
def Env.afterReceived (e : Env) : Env :=
  (e.observe (.pinWrite .sk .high)).answered.observe (.pinWrite .sk .low)

/-- The levels that `n` received bits sample, the first sampled first. -/
def Env.receivedLevels : Nat → Env → List Level
  | 0, _ => []
  | n + 1, e => e.receivedLevel :: e.afterReceived.receivedLevels n

@[simp] theorem length_receivedLevels (n : Nat) (e : Env) : (e.receivedLevels n).length = n := by
  induction n generalizing e with
  | zero => rfl
  | succ n ih => rw [Env.receivedLevels, List.length_cons, ih]

theorem receiveBit_eq (n : Nat) (s : State) :
    receiveBit n s = { emitAll (receiveBitEvents s.env.receivedLevel) s with
      rx := s.rx ||| BitVec.ofNat 16 (s.env.receivedLevel.toNat <<< n)
      cnt := BitVec.ofNat 5 n
      env := s.env.afterReceived } := rfl

/-- The closed form of the loop of `receiveBits`, entered with the bits still to receive in `cnt`. -/
theorem receiveLoop_eq {n : Nat} {s : State} (hcnt : s.cnt = BitVec.ofNat 5 n) :
    receiveLoop n s = { emitAll (receiveTrace (s.env.receivedLevels n)) s with
      rx := s.rx ||| BitVec.ofNat 16 (bitsValue (s.env.receivedLevels n))
      cnt := 0
      env := Env.afterReceived^[n] s.env } := by
  induction n generalizing s with
  | zero =>
    have hrx : s.rx ||| BitVec.ofNat 16 (bitsValue []) = s.rx := BitVec.or_zero
    have hzero : s.cnt = 0 := hcnt
    rw [Env.receivedLevels, hrx, ← hzero]
    rfl
  | succ n ih =>
    rw [receiveLoop, ih rfl, receiveBit_eq, Env.receivedLevels, bitsValue_cons, length_receivedLevels, BitVec.ofNat_or,
      ← BitVec.or_assoc]
    simp only [emitAll_eq, receiveTrace, List.flatMap_cons, List.foldl_append, List.append_assoc,
      Function.iterate_succ_apply]

theorem receiveBits_eq (n : Nat) (s : State) :
    receiveBits n s = { emitAll (receiveTrace (s.env.receivedLevels n)) s with
      rx := BitVec.ofNat 16 (bitsValue (s.env.receivedLevels n))
      cnt := 0
      env := Env.afterReceived^[n] s.env } := by
  rw [receiveBits, receiveLoop_eq rfl]
  simp [emitAll_eq]

/-- A free environment answers a received bit with the level that it holds first. -/
theorem received_of_free {e : Env} {l : Level} {rest : List Level} (hchip : e.chip = none)
    (hlevels : e.levels = l :: rest) :
    e.receivedLevel = l ∧ e.afterReceived = { e with levels := rest } := by
  simp [Env.receivedLevel, Env.afterReceived, Env.level, Env.answered, Env.freeLevel, Env.afterFree, Env.observe, hchip,
    hlevels]

/-- A free environment that holds `n` levels answers `n` received bits with them (rule R62). -/
theorem receivedLevels_of_free {n : Nat} {e : Env} (hchip : e.chip = none) (hheld : n ≤ e.levels.length) :
    e.receivedLevels n = e.levels.take n ∧ Env.afterReceived^[n] e = { e with levels := e.levels.drop n } := by
  induction n generalizing e with
  | zero => exact ⟨rfl, rfl⟩
  | succ n ih =>
    cases hlevels : e.levels with
    | nil => simp [hlevels] at hheld
    | cons l rest =>
      obtain ⟨hl, he⟩ := received_of_free hchip hlevels
      have hrest : n ≤ rest.length := by simpa [hlevels] using hheld
      obtain ⟨hls, hafter⟩ := ih (e := { e with levels := rest }) hchip hrest
      rw [Env.receivedLevels, Function.iterate_succ_apply, hl, he, hls, hafter]
      exact ⟨rfl, rfl⟩

/-! ## The frame and the pins -/

/-- Every frame is its opcode over its field, with no bit lost (rule R88). -/
theorem busFrame_eq {s : State} (hlegal : s.profileLegal) {W : Nat} {b : BusOp} (hb : b.wf s.addrWidth W = true) :
    busFrame s b = BitVec.ofNat 16 (b.opcode * 2 ^ s.addrWidth + b.field s.addrWidth) := by
  rw [Nat.mul_comm, ← busFrame_toNat hlegal hb, BitVec.ofNat_toNat, BitVec.setWidth_eq]

/-- Bit 0 of an address is not lost by the mask. -/
theorem testBit_zero_mod_addrWidth {s : State} (hlegal : s.profileLegal) (a : Nat) :
    (a % 2 ^ s.addrWidth).testBit 0 = a.testBit 0 := by
  have hpos : 0 < s.addrWidth := Nat.lt_of_lt_of_le (by decide) (addrWidth_bounds hlegal).1
  rw [Nat.testBit_mod_two_pow, decide_eq_true hpos, Bool.true_and]

/-! ## READ -/

/-- What a READ sends before its samples (rules R134 and R138). -/
def readFrameEvents (s : State) (f : Nat) : List Event :=
  [.pinWrite .cs .high, .delay .cs] ++ sendTrace (encodeBus s.addrWidth s.width (.read f))

/-- The environment when a READ begins to receive. -/
def readEnv (s : State) (f : Nat) : Env := (readFrameEvents s f).foldl Env.observe s.env

/-- The levels that a READ samples. -/
def readLevels (s : State) (f : Nat) : List Level := (readEnv s f).receivedLevels s.width

/-- The environment after a READ's transaction. -/
def readEnvAfter (s : State) (f : Nat) : Env :=
  (Env.afterReceived^[s.width] (readEnv s f)).observe (.pinWrite .cs .low)

/-- A free environment that holds a unit's levels answers a READ with them (rule R62). -/
theorem read_of_free {s : State} (hchip : s.env.chip = none) (hheld : s.width ≤ s.env.levels.length) (f : Nat) :
    readLevels s f = s.env.levels.take s.width ∧
      readEnvAfter s f = { s.env with levels := s.env.levels.drop s.width } := by
  have hstart : readEnv s f = s.env := foldl_observe_of_chip_none hchip _
  obtain ⟨hls, hafter⟩ := receivedLevels_of_free hchip hheld
  rw [readLevels, readEnvAfter, hstart, hafter]
  exact ⟨hls, observe_of_chip_none (by exact hchip) _⟩

theorem sendFrame_read_eq_sent {s : State} {f : Nat} (hlegal : s.profileLegal) (hf : f < 2 ^ s.addrWidth) :
    sendFrame (busFrame s (.read f)) (beginTransaction s) =
      sent .frame (busFrame s (.read f)) (readFrameEvents s f) s := by
  have hbegin := beginTransaction_eq_sent s
  have hA : (beginTransaction s).addrWidth = s.addrWidth := addrWidth_of_openRegs (hbegin ▸ sent_openRegs ..)
  have hb : BusOp.wf s.addrWidth s.width (.read f) = true := decide_eq_true hf
  rw [sendFrame, hA, sendBits_eq_sent .frame _ (Nat.succ_ne_zero _), hbegin, sent_sent, readFrameEvents,
    busBits_of_frame hlegal hb, BusOp.payload, List.append_nil, sendTrace_append, List.append_assoc]

/-- The closed form of a READ's transaction: the samples are what the environment answers after the frame. -/
theorem transactBus_read_eq {s : State} {f : Nat} (hlegal : s.profileLegal) (hf : f < 2 ^ s.addrWidth) :
    transactBus (.read f) s = { s with
      seg := .frame
      sh := BitVec.ofNat 16 (2 * 2 ^ s.addrWidth + f)
      cnt := 0
      rx := BitVec.ofNat 16 (bitsValue (readLevels s f))
      cs := .low
      sk := .low
      di := Level.ofBool (f.testBit 0)
      trace := s.trace ++
        transactTrace (encodeBus s.addrWidth s.width (.read f)) (readLevels s f)
      env := readEnvAfter s f } := by
  have hb : BusOp.wf s.addrWidth s.width (.read f) = true := decide_eq_true hf
  have hsent := sendFrame_read_eq_sent hlegal hf
  have hwidth : (sent .frame (busFrame s (.read f)) (readFrameEvents s f) s).width = s.width :=
    width_of_openRegs (sent_openRegs ..)
  have hemitted : transactBus (.read f) s =
      { emitAll (transactTrace (encodeBus s.addrWidth s.width (.read f)) (readLevels s f)) s with
        seg := .frame
        sh := busFrame s (.read f)
        cnt := 0
        rx := BitVec.ofNat 16 (bitsValue (readLevels s f))
        env := readEnvAfter s f } := by
    rw [transactBus, transact, hsent, busKind, movePayload, hwidth, receiveBits_eq]
    simp only [sent, emitAll_eq, endTransaction, writePin, emit, transactTrace, readLevels, readEnvAfter, readEnv,
      readFrameEvents, List.foldl_append, List.append_assoc]
    rfl
  rw [hemitted, emitAll_of_levels (levels_after_encodeBus hlegal (.read f) _ _),
    busFrame_eq hlegal hb]
  rfl

/-- Settles O15: the transaction as one state, whose samples a free environment takes from the levels that it holds. -/
theorem readSamplesOneUnit : Obligations.ReadSamplesOneUnit := by
  intro s a d
  refine ⟨fun hclosed hidle => congrArg Host.Outcome.next (requireOpened_of_closed hclosed hidle _),
    fun hopen hlegal => ?_⟩
  have hf : a % 2 ^ s.addrWidth < 2 ^ s.addrWidth := Nat.mod_lt _ (Nat.two_pow_pos _)
  have hlen : (readLevels s (a % 2 ^ s.addrWidth)).length = s.width := length_receivedLevels ..
  refine ⟨_, readEnvAfter s (a % 2 ^ s.addrWidth), hlen, ?_, ?_, fun hchip hheld => read_of_free hchip hheld _, ?_⟩
  · rw [exec_read_eq a d hopen hlegal, transactBus_read_eq (s := latch .read a d s) hlegal hf,
      testBit_zero_mod_addrWidth hlegal]
    rfl
  · exact (bitsValue_lt _).trans_eq (congrArg (2 ^ ·) hlen)
  · rw [length_transactTrace, (busFrameLengths _ s.width (.read _) (two_le_addrWidth hlegal)).1, busTxBits, hlen]
    omega

/-! ## ERASE and WRITE -/

/-- Settles O18: the transaction and the ready-poll as one state. -/
theorem eraseCompletes : Obligations.EraseCompletes := by
  intro s a d k rest hopen hlegal hwe hchip hlevels hlimit
  have hb := mod_wf_erase s.addrWidth s.width a
  rw [exec_erase_eq a d hopen hwe hlegal,
    pollReady_transactBus_of_high (s := latch .erase a d s) hlegal hb rfl hchip hlevels hlimit, BusOp.lastBit,
    testBit_zero_mod_addrWidth hlegal, busWord, busFrame_eq (s := latch .erase a d s) hlegal hb]
  rfl

/-- Settles O20: as ERASE, with the truncated value as payload. -/
theorem writeCompletes : Obligations.WriteCompletes := by
  intro s a d k rest hopen hlegal hwe hchip hlevels hlimit
  have hb := mod_wf_write s.addrWidth s.width a d
  rw [exec_write_eq a d hopen hwe hlegal,
    pollReady_transactBus_of_high (s := latch .write a d s) hlegal hb rfl hchip hlevels hlimit, BusOp.lastBit,
    testBit_zero_mod_width]
  rfl

end Sys2Proof.Machine
end

