-- ==== Sys2Proof/Proofs/SequencerSteps.lean ====
section
/-! PROOF. The micro-steps of the sequencer one by one: the frame that it loads (O7), the rows of rule R227's table (O39), where `done` rises
(O40), and the bit that `TxData` drives (O52). -/

namespace Sys2Proof.Machine

open Sys2Proof

/-! ## The frame of the latched operation -/

section Legal

variable {s : State} (h : s.profileLegal)
include h

theorem controlFrame_shift {sub : Nat} (hsub : sub < 4) : (controlFrame sub s).toNat = sub <<< (s.addrWidth - 2) := by
  rw [controlFrame_sum h hsub, Nat.shiftLeft_eq]

/-- No bit of a frame is lost, whatever the address register holds (rule R88). -/
theorem addressFrame_or {opcode : Nat} (hop : opcode < 4) (field : BitVec 11) :
    (addressFrame opcode field s).toNat = (opcode <<< s.addrWidth) ||| field.toNat := by
  have hopcode : opcode <<< s.addrWidth < 2 ^ 16 := by
    simpa [Nat.shiftLeft_eq, Nat.mul_comm] using frame_lt h hop (Nat.two_pow_pos s.addrWidth)
  have hfield : field.toNat < 2 ^ 16 := field.isLt.trans (by decide)
  rw [addressFrame, BitVec.toNat_ofNat, Nat.mod_eq_of_lt (Nat.or_lt_two_pow hopcode hfield)]

theorem addressFrame_of_masked {opcode : Nat} (hop : opcode < 4) {field : BitVec 11}
    (hfield : field.toNat < 2 ^ s.addrWidth) :
    (addressFrame opcode field s).toNat = opcode * 2 ^ s.addrWidth + field.toNat := by
  rw [addressFrame_or h hop, ← Nat.shiftLeft_add_eq_or_of_lt hfield, Nat.shiftLeft_eq]

end Legal

/-- Settles O7: a control frame is its sub-code shifted, an address frame its opcode shifted over the latched address. -/
theorem sequencerFrameTable : Obligations.SequencerFrameTable := by
  intro s h
  refine ⟨?enable, ?disable, ?eraseAll, ?writeAll, ?write, ?read, ?erase, fun hmasked => ⟨?write', ?read', ?erase'⟩⟩ <;>
    intro hop <;> rw [frameOf, hop]
  case enable | eraseAll | writeAll => exact controlFrame_shift h (by decide)
  case disable => exact (controlFrame_shift h (by decide)).trans (Nat.zero_shiftLeft _)
  case write | read | erase => exact addressFrame_or h (by decide) _
  case write' => exact (addressFrame_of_masked h (by decide) hmasked).trans (by rw [Nat.one_mul])
  case read' => exact (addressFrame_of_masked h (by decide) hmasked).trans (by rw [Nat.pow_succ'])
  case erase' => exact addressFrame_of_masked h (by decide) hmasked

/-! ## How an acceptance ends -/

/-- An acceptance completes at once, or starts a bus operation and does not complete (rule R205). -/
def State.endsAcceptance (t : State) : Prop :=
  (t.done = true ∧ t.phase = .idle) ∨ (t.done = false ∧ t.phase = .csHigh)

theorem raise_endsAcceptance (st : Status) (s : State) : (raise st s).endsAcceptance := .inl ⟨rfl, rfl⟩

theorem requireOpened_endsAcceptance {body : State → State} {s : State} (h : (body s).endsAcceptance) :
    (requireOpened body s).endsAcceptance :=
  requireOpened_related (R := fun t _ => t.endsAcceptance) (g := body) rfl (raise_endsAcceptance · s) h

theorem requireWritable_endsAcceptance {body : State → State} {s : State} (h : (body s).endsAcceptance) :
    (requireWritable body s).endsAcceptance :=
  requireWritable_related (R := fun t _ => t.endsAcceptance) (g := body) rfl rfl (raise_endsAcceptance · s) h

/-- OPEN is refused or done within its acceptance (rule R110). -/
theorem openCommand_completes (m : Nat) (o : Organization) (s : State) :
    (openCommand m o s).done = true ∧ (openCommand m o s).phase = .idle := by
  obtain ⟨-, h⟩ | ⟨-, -, h⟩ | ⟨-, model, -, h⟩ := openCommand_cases m o s
  all_goals
    rw [h]
    exact ⟨rfl, rfl⟩

theorem accept_endsAcceptance (i : Instr) (s : State) : (accept i s).endsAcceptance := by
  cases i
  case openDev m o => exact .inl (openCommand_completes m o s)
  case enable | disable | read => exact requireOpened_endsAcceptance (.inr ⟨rfl, rfl⟩)
  case iswe => exact requireOpened_endsAcceptance (.inl ⟨rfl, rfl⟩)
  case eraseAll | erase | writeAll | write => exact requireWritable_endsAcceptance (.inr ⟨rfl, rfl⟩)
  all_goals exact raise_endsAcceptance ..

/-! ## The table of rule R227 -/

/-- An acceptance emits nothing, or OPEN's four events (rules R34 and R205). -/
theorem newEvents_accept (i : Instr) (s : State) :
    newEvents s (accept i s) = [] ∨ newEvents s (accept i s) = openEvents := by
  obtain h | ⟨-, m, o, hopen⟩ := accept_cases i s
  · exact .inl (newEvents_of_emits (h.trans (StepFrame.emits_nil _).symm))
  · have htrace : (openWith m o s).trace = s.trace ++ openEvents := congrArg StepFrame.trace (openWith_stepFrame m o s)
    exact .inr (by rw [hopen, newEvents, htrace, List.drop_left])

/-- Settles O39: a busy micro-step by its event and its move, an acceptance by how it ends. -/
theorem transitionGraph : Obligations.TransitionGraph := by
  refine ⟨fun s hbusy => ?_, fun s i _ => ⟨newEvents_accept i s, ?_⟩⟩
  · obtain ⟨e, he, hevents⟩ := phaseEvents_of_busy hbusy
    exact ⟨e, he, hevents ▸ transition_trace s, transition_phase_mem hbusy⟩
  · obtain ⟨-, hphase⟩ | ⟨-, hphase⟩ := accept_endsAcceptance i s <;> rw [hphase] <;> decide

/-! ## The pulse of `done` -/

theorem idle_not_mem_busyPhases (p : Phase) : .idle ∉ (graphRow p).2.erase .idle := by
  cases p <;> decide

/-- A busy micro-step completes exactly if it ends in `Idle` (rules R201 and R204). -/
theorem transition_done_iff {s : State} (hbusy : s.phase ≠ .idle) :
    (transition s).done = true ↔ (transition s).phase = .idle := by
  obtain hmove | ⟨-, st, -, hfinish⟩ := transition_cases hbusy
  · have hphase : (transition s).phase ≠ .idle := fun hidle =>
      idle_not_mem_busyPhases s.phase (by simpa only [hidle] using phase_of_movesTo hmove)
    simp [done_of_movesTo hmove, hphase]
  · simp [hfinish, finish]

theorem accept_done_iff (i : Instr) (s : State) : (accept i s).done = true ↔ (accept i s).phase = .idle := by
  obtain ⟨hdone, hphase⟩ | ⟨hdone, hphase⟩ := accept_endsAcceptance i s <;> simp [hdone, hphase]

/-- Settles O40: the two ways a busy micro-step ends, and the two of an acceptance. -/
theorem donePulsesOnCompletion : Obligations.DonePulsesOnCompletion :=
  ⟨fun _ => transition_done_iff, fun _ => transition_of_idle, fun s i _ => accept_done_iff i s⟩

/-! ## The transmitted bit -/

/-- Settles O52: the invariant keeps the counter at one or more in `TxData`, so `cnt - 1` does not wrap. -/
theorem txDataDrivesCountedBit : Obligations.TxDataDrivesCountedBit := by
  intro s h hphase
  obtain ⟨⟨-, -, hcounts, -⟩, -⟩ := h.busy_clean (by rw [hphase]; nofun)
  obtain ⟨hpos, -⟩ := hcounts (by rw [hphase]; rfl)
  have hindex : (s.cnt - 1).toNat = s.cnt.toNat - 1 := BitVec.toNat_sub_of_le hpos
  have hstep : transition s =
      goPhase .txDly1 (writePin .di (Level.ofBool (s.sh.getLsbD (s.cnt.toNat - 1))) s) := by
    rw [transition, hphase, hindex]
    rfl
  rw [hstep]
  exact ⟨hpos, rfl, rfl, rfl⟩

end Sys2Proof.Machine
end

