-- ==== Sys2Proof/Proofs/SequencerRuns.lean ====
section
/-! PROOF. The runs of the sequencer counted: one micro-step an event (rule R226, O42), and so many events as each command emits (rule R228,
O43). -/

namespace Sys2Proof.Machine

open Sys2Proof

/-! ## A busy run as a number of micro-steps -/

theorem length_transition_trace {s : State} (hbusy : s.phase ≠ .idle) :
    (transition s).trace.length = s.trace.length + 1 := by
  obtain ⟨e, -, hevents⟩ := phaseEvents_of_busy hbusy
  rw [transition_trace, hevents, List.length_append, List.length_singleton]

/-- A busy engine reports no completion. -/
def State.quietIfBusy (s : State) : Prop := s.phase ≠ .idle → s.done = false

theorem transition_quietIfBusy {s : State} (hbusy : s.phase ≠ .idle) : (transition s).quietIfBusy := fun h =>
  Bool.eq_false_iff.mpr fun hdone => h ((transition_done_iff hbusy).mp hdone)

theorem accept_quietIfBusy (i : Instr) (s : State) : (accept i s).quietIfBusy := fun h =>
  Bool.eq_false_iff.mpr fun hdone => h ((accept_done_iff i s).mp hdone)

/-- A busy run takes one micro-step an event, and reports no completion before its end. -/
theorem BusyRun.exists_runMicro {s t : State} (h : BusyRun s t) (hquiet : s.quietIfBusy) :
    ∃ n, t.trace.length = s.trace.length + n ∧ runMicro n s = t ∧
      ∀ m, m < n → (runMicro m s).phase ≠ .idle ∧ (runMicro m s).done = false := by
  induction h with
  | refl s => exact ⟨0, rfl, rfl, nofun⟩
  | @step s t hbusy _ ih =>
    obtain ⟨n, hlen, hrun, hway⟩ := ih (transition_quietIfBusy hbusy)
    refine ⟨n + 1, by rw [hlen, length_transition_trace hbusy]; omega, hrun, fun m hm => ?_⟩
    cases m with
    | zero => exact ⟨hbusy, hquiet hbusy⟩
    | succ m => exact hway m (Nat.lt_of_succ_lt_succ hm)

/-- Settles O42: the command's end is reached by a busy run from its acceptance. -/
theorem sequencerRefinesProcedures : Obligations.SequencerRefinesProcedures := by
  intro s t i h
  obtain ⟨n, hlen, hrun, hway⟩ := (busyRun_exec h).exists_runMicro (accept_quietIfBusy i s)
  have hn : t.trace.length - (accept i s).trace.length = n := by omega
  rw [hn]
  exact ⟨hrun, hway⟩

/-! ## The gates of a bus command -/

section Gates

variable {s : State} {i : Instr} {b : BusOp} (hb : busOpOf s i = some b)
include hb

theorem refusalOf_bus : refusalOf s i =
    if s.opened = false then some .notOpen
    else if busGated b ∧ s.writeEnabled = false then some .writeProtected else none := by
  cases i <;> cases hb <;> rfl

theorem accept_bus : ∃ o a d, accept i s =
    if busGated b then requireWritable (startOp o a d) s else requireOpened (startOp o a d) s := by
  cases i <;> cases hb <;> exact ⟨_, _, _, rfl⟩

theorem gates_of_not_refused (h : refusalOf s i = none) :
    s.opened = true ∧ (busGated b = true → s.writeEnabled = true) := by
  rw [refusalOf_bus hb] at h
  split at h
  · cases h
  · rename_i hopen
    refine ⟨by simpa using hopen, fun hgated => ?_⟩
    simpa [hgated] using h

theorem accept_bus_phase_of_refused (h : refusalOf s i ≠ none) : (accept i s).phase = .idle := by
  obtain ⟨o, a, d, haccept⟩ := accept_bus hb
  rw [refusalOf_bus hb] at h
  rw [haccept]
  split
  · obtain ⟨hopen, hwe, -⟩ | ⟨-, -, hraise⟩ | ⟨-, hraise⟩ := requireWritable_cases (startOp o a d) s
    · exact absurd (by simp [hopen, hwe]) h
    · rw [hraise, raise_phase]
    · rw [hraise, raise_phase]
  · rename_i hgated
    obtain ⟨hopen, -⟩ | ⟨-, hraise⟩ := requireOpened_cases (startOp o a d) s
    · exact absurd (by simp [hopen, hgated]) h
    · rw [hraise, raise_phase]

end Gates

/-! ## Commands that end with their acceptance -/

theorem accept_phase_of_no_bus {s : State} {i : Instr} (hb : busOpOf s i = none) : (accept i s).phase = .idle := by
  cases i
  case openDev m o => exact (openCommand_completes m o s).2
  case iswe => exact requireOpened_related (R := fun t _ => t.phase = .idle) (g := id) rfl (fun _ => rfl) rfl
  case enable | disable | eraseAll | erase | writeAll | write | read => cases hb
  all_goals rfl

theorem accept_phase_of_refused_or_no_bus {s : State} {i : Instr} (h : refusalOf s i ≠ none ∨ busOpOf s i = none) :
    (accept i s).phase = .idle := by
  cases hb : busOpOf s i with
  | none => exact accept_phase_of_no_bus hb
  | some b => exact accept_bus_phase_of_refused hb (h.resolve_right (by simp [hb]))

/-- No busy micro-step leaves `Idle`. -/
theorem BusyRun.eq_of_idle {s t : State} (h : BusyRun s t) (hidle : s.phase = .idle) : s = t := by
  cases h with
  | refl => rfl
  | step hbusy _ => exact absurd hidle hbusy

/-! ## The events of a ready-poll -/

/-- A poll's loop that ends after `k + 1` samples has emitted these and `k` delays (rule R137). -/
theorem pollLoop_counts (fuel : Nat) (s : State) : (pollLoop fuel s).1 ≠ .waiting →
    ∃ k, (pollLoop fuel s).2.pollCount = s.pollCount + (k + 1) ∧
      (pollLoop fuel s).2.trace.length = s.trace.length + (2 * k + 1) := by
  induction fuel generalizing s with
  | zero => exact absurd rfl
  | succ fuel ih =>
    have honce : (pollOnce s).trace.length = s.trace.length + 1 := List.length_append
    rw [pollLoop]
    split
    · exact fun _ => ⟨0, rfl, honce⟩
    · split
      · exact fun _ => ⟨0, rfl, honce⟩
      · intro h
        obtain ⟨k, hcount, hlen⟩ := ih _ h
        have hdelay : (delay .poll (pollOnce s)).trace.length = (pollOnce s).trace.length + 1 := List.length_append
        have hcounted : (delay .poll (pollOnce s)).pollCount = s.pollCount + 1 := rfl
        exact ⟨k + 1, by omega, by omega⟩

theorem pollFinish_counts {r : PollEnd × State} (h : (pollFinish r).phase = .idle) :
    r.1 ≠ .waiting ∧ (pollFinish r).pollCount = r.2.pollCount ∧
      (pollFinish r).trace.length = r.2.trace.length + 1 := by
  obtain ⟨e, u⟩ := r
  cases e with
  | ready | timedOut => exact ⟨nofun, rfl, List.length_append⟩
  | waiting => cases h

/-- A ready-poll that completes: chip-select's two edges, its samples, and the delays between them (rules R136 and R228). -/
theorem pollReady_counts {s : State} (h : (pollReady s).phase = .idle) :
    (pollReady s).trace.length = s.trace.length + (1 + 2 * (pollReady s).pollCount) ∧ 1 ≤ (pollReady s).pollCount := by
  rw [pollReady_eq] at h ⊢
  obtain ⟨hended, hcount', hlen'⟩ := pollFinish_counts h
  obtain ⟨k, hcount, hlen⟩ := pollLoop_counts _ _ hended
  have hstart : (pollStart s).trace.length = s.trace.length + 1 := List.length_append
  have hzero : (pollStart s).pollCount = 0 := rfl
  omega

/-! ## The events of a bus command -/

section Command

variable {s t : State} {i : Instr} {b : BusOp} (hopen : s.opened = true) (hlegal : s.profileLegal)
  (hgate : busGated b = true → s.writeEnabled = true) (hb : busOpOf s i = some b) (h : exec i s = .next t)
include hopen hlegal hgate hb h

/-- After its transaction a write-class command runs the ready-poll, and any other emits nothing more (rules R138 to R140). -/
theorem exec_bus_ends : ∃ o a d, b.wf s.addrWidth s.width = true ∧
    (busGated b = true → t = pollReady (transactBus b (latch o a d s))) ∧
    (busGated b = false → t.trace = (transactBus b (latch o a d s)).trace) := by
  have hrun {v : State} (hexec : exec i s = .next v) : t = v := Host.Outcome.next.inj (h.symm.trans hexec)
  cases i <;> cases hb
  case enable a d =>
    refine ⟨.enable, a, d, rfl, nofun, fun _ => ?_⟩
    rw [hrun (exec_enable_eq a d hopen), complete_trace, setWriteEnabled_trace]
  case disable a d =>
    refine ⟨.disable, a, d, rfl, nofun, fun _ => ?_⟩
    rw [hrun (exec_disable_eq a d hopen), complete_trace, setWriteEnabled_trace]
  case read a d =>
    refine ⟨.read, a, d, mod_wf_read .., nofun, fun _ => ?_⟩
    rw [hrun (exec_read_eq a d hopen hlegal), complete_trace]
  case eraseAll a d => exact ⟨_, a, d, rfl, fun _ => hrun (exec_eraseAll_eq a d hopen (hgate rfl)), nofun⟩
  case writeAll a d =>
    exact ⟨_, a, d, mod_wf_writeAll .., fun _ => hrun (exec_writeAll_eq a d hopen (hgate rfl)), nofun⟩
  case erase a d => exact ⟨_, a, d, mod_wf_erase .., fun _ => hrun (exec_erase_eq a d hopen (hgate rfl) hlegal), nofun⟩
  case write a d => exact ⟨_, a, d, mod_wf_write .., fun _ => hrun (exec_write_eq a d hopen (hgate rfl) hlegal), nofun⟩

/-- How many events a bus command that completes emits: those of its transaction, and of its poll if it has one. -/
theorem length_exec_bus_trace (hidle : t.phase = .idle) :
    t.trace.length = s.trace.length + (2 + 6 * (s.addrWidth + 3 + busTxBits s.width b) + 5 * busRxBits s.width b + 1 +
      (if busGated b then 1 + 2 * t.pollCount else 0)) ∧ (busGated b = true → 1 ≤ t.pollCount) := by
  obtain ⟨o, a, d, hwf, hpolls, hbare⟩ := exec_bus_ends hopen hlegal hgate hb h
  obtain ⟨ls, (hls : ls.length = busRxBits s.width b), hframe⟩ := transactBus_stepFrame (s := latch o a d s) hlegal hwf
  have htrace : (transactBus b (latch o a d s)).trace =
      s.trace ++ transactTrace (encodeBus s.addrWidth s.width b) ls := congrArg StepFrame.trace hframe
  obtain ⟨hbits, -⟩ := busFrameLengths s.addrWidth s.width b (two_le_addrWidth hlegal)
  have hlen := congrArg List.length htrace
  rw [List.length_append, length_transactTrace, hbits, hls] at hlen
  cases hgated : busGated b with
  | true =>
    obtain rfl := hpolls hgated
    obtain ⟨hpoll, hpos⟩ := pollReady_counts hidle
    exact ⟨by rw [hpoll, hlen, if_pos rfl]; omega, fun _ => hpos⟩
  | false =>
    exact ⟨by rw [hbare hgated, hlen, if_neg nofun]; omega, nofun⟩

end Command

theorem accept_trace_of_opened {s : State} (hopen : s.opened = true) (i : Instr) : (accept i s).trace = s.trace := by
  obtain h | ⟨hclosed, -⟩ := accept_cases i s
  · exact congrArg StepFrame.trace h
  · simp [hopen] at hclosed

/-- Settles O43: a busy run that starts in `Idle` has ended, and any other takes one micro-step for each event of the command. -/
theorem microStepCounts : Obligations.MicroStepCounts := by
  intro s t i h
  refine ⟨fun hends => (busyRun_exec h).eq_of_idle (accept_phase_of_refused_or_no_bus hends),
    fun b hb hrefused hlegal hidle => ?_⟩
  obtain ⟨hopen, hgate⟩ := gates_of_not_refused hb hrefused
  obtain ⟨hlen, hpolled⟩ := length_exec_bus_trace hopen hlegal hgate hb h hidle
  obtain ⟨n, hn, hrun, -⟩ := (busyRun_exec h).exists_runMicro (accept_quietIfBusy i s)
  rw [accept_trace_of_opened hopen] at hn
  rw [← Nat.add_left_cancel (hn.symm.trans hlen)]
  exact ⟨hrun, hpolled⟩

end Sys2Proof.Machine
end

