-- ==== Sys2Proof/Proofs/CallerActs.lean ====
section
/-! PROOF. What a step at either grain does with the caller's act (rules R202 and R203): O44 and O47. -/

namespace Sys2Proof.Machine

open Sys2Proof

section Acts

variable {run : Instr → State → Host.Outcome State Fault Refusal} {s : State} {w : CmdWord} {rest : List CallerAct}

theorem callerNow_of_cons {act : CallerAct} (h : s.caller = act :: rest) : callerNow s = act := by
  rw [callerNow, h]

theorem callerTaken_of_cons {act : CallerAct} (h : s.caller = act :: rest) :
    callerTaken s = { s with caller := rest } := by
  rw [callerTaken, h, List.tail_cons]

theorem cycle_of_quiet (h : s.caller = .quiet :: rest) : cycle run s = .next (transition { s with caller := rest }) := by
  rw [cycle, callerNow_of_cons h, callerTaken_of_cons h]

/-- A caller with nothing more to do is quiet, and stays so. -/
theorem cycle_of_finished (h : s.caller = []) : cycle run s = .next (transition s) := by
  have hnow : callerNow s = .quiet := by rw [callerNow, h]
  have htaken : callerTaken s = s := by rw [callerTaken, h, List.tail_nil, ← h]
  rw [cycle, hnow, htaken]

/-- A busy engine does not look at the command port (rule R203). -/
theorem cycle_of_present_busy (h : s.caller = .present w :: rest) (hbusy : s.phase ≠ .idle) :
    cycle run s = .next (transition { s with caller := rest }) := by
  rw [cycle, callerNow_of_cons h, callerTaken_of_cons h]
  exact if_neg hbusy

theorem cycle_of_present_idle (h : s.caller = .present w :: rest) (hidle : s.phase = .idle) :
    cycle run s = acceptWord run w { s with caller := rest } := by
  rw [cycle, callerNow_of_cons h, callerTaken_of_cons h]
  exact if_pos hidle

theorem acceptWord_of_command {i : Instr} (h : decode w = .ok i) : acceptWord run w s = run i s := by
  rw [acceptWord, h]

theorem acceptWord_of_padBits (h : decode w = .error .padBits) : acceptWord run w s = .fault .notAPortWord := by
  rw [acceptWord, h]

/-- At either grain a word presented to a busy engine changes nothing against a quiet caller. -/
theorem cycle_present_eq_quiet (h : s.caller = .present w :: rest) (hbusy : s.phase ≠ .idle) :
    cycle run s = cycle run { s with caller := .quiet :: rest } :=
  (cycle_of_present_busy h hbusy).trans (cycle_of_quiet (s := { s with caller := .quiet :: rest }) rfl).symm

/-- At either grain an idle engine runs the command that is presented. -/
theorem cycle_of_command {i : Instr} (h : s.caller = .present w :: rest) (hidle : s.phase = .idle)
    (hdecode : decode w = .ok i) : cycle run s = run i { s with caller := rest } :=
  (cycle_of_present_idle h hidle).trans (acceptWord_of_command hdecode)

end Acts

/-- Settles O44: `step` and `microStep` are the same cycle around two runs of a command. -/
theorem commandsAcceptedOnlyInIdle : Obligations.CommandsAcceptedOnlyInIdle :=
  fun _ _ _ h => ⟨fun hbusy => ⟨cycle_present_eq_quiet h hbusy, cycle_present_eq_quiet h hbusy⟩,
    fun hidle _ hdecode => ⟨cycle_of_command h hidle hdecode, cycle_of_command h hidle hdecode⟩⟩

/-- Settles O47: the command is accepted, the word that is no command stops the step, and a quiet micro-step in `Idle` ends the pulse. -/
theorem stepRunsDecodedCommand : Obligations.StepRunsDecodedCommand := by
  intro s hidle
  refine ⟨fun w rest i h hdecode => cycle_of_command h hidle hdecode, fun w rest h hdecode => ?_, fun rest h => ?_,
    fun h => ?_⟩
  · exact (cycle_of_present_idle h hidle).trans (acceptWord_of_padBits hdecode)
  · exact (cycle_of_quiet h).trans (congrArg Host.Outcome.next (transition_of_idle hidle))
  · exact (cycle_of_finished h).trans (congrArg Host.Outcome.next (transition_of_idle hidle))

end Sys2Proof.Machine
end

