-- ==== Sys2Proof/Proofs/Refusals.lean ====
section
/-! PROOF. How a command ends: refused at its acceptance in the order of rule R248, or run (O35); which commands answer `CFG_ERROR` (O11) and
`WRITE_PROTECTED` (O21); the status codes on their port (O60). -/

namespace Sys2Proof.Machine

open Sys2Proof

/-! ## The registers that a transaction holds -/

theorem emitAll_held (es : List Event) (s : State) : (emitAll es s).held = s.held := by
  rw [emitAll_eq]
  rfl

theorem sendBits_held (v : BitVec 16) (n : Nat) (s : State) : (sendBits v n s).held = s.held := by
  rcases Nat.eq_zero_or_pos n with rfl | hn
  · rfl
  · rw [sendBits_eq v n hn.ne']
    exact emitAll_held ..

theorem receiveBits_held (n : Nat) (s : State) : (receiveBits n s).held = s.held := by
  rw [receiveBits_eq]
  exact emitAll_held ..

theorem movePayload_held (k : Payload) (d : BitVec 16) (s : State) : (movePayload k d s).held = s.held := by
  cases k with
  | none => rfl
  | tx => exact sendBits_held ..
  | rx => exact receiveBits_held ..

/-- A transaction works on the pins, the trace, the environment and the work registers only (rule R138). -/
theorem transact_held (f : BitVec 16) (k : Payload) (d : BitVec 16) (s : State) : (transact f k d s).held = s.held :=
  calc (transact f k d s).held
      _ = (sendFrame f (beginTransaction s)).held := movePayload_held ..
      _ = (beginTransaction s).held := sendBits_held ..
      _ = s.held := sendBits_held ..

/-! ## How a command that is not refused ends -/

/-- `t` has completed with `OK` or `POLL_TIMEOUT`, or is still polling with the status and the result of `s` (rules R136, R204
and R244). -/
def State.endsAs (s t : State) : Prop :=
  (t.done = true ∧ t.phase = .idle ∧ (t.status = .ok ∨ t.status = .pollTimeout ∧ t.result = 0)) ∨
  (t.done = false ∧ t.phase = .pollSample ∧ t.status = s.status ∧ t.result = s.result)

theorem endsAs_complete_ok (s u : State) (r : BitVec 16) : s.endsAs (complete .ok r u) := .inl ⟨rfl, rfl, .inl rfl⟩

theorem endsAs_pollReady (u : State) : u.endsAs (pollReady u) := by
  obtain ⟨v, ⟨k, es, env, rfl⟩, hready | htimedOut | hwaiting⟩ := pollReady_cases u
  · exact hready ▸ endsAs_complete_ok ..
  · exact htimedOut ▸ .inl ⟨rfl, rfl, .inr ⟨rfl, rfl⟩⟩
  · exact hwaiting ▸ .inr ⟨rfl, rfl, rfl, rfl⟩

/-- A latched transaction and its ready-poll: what comes before the poll holds `status` and `result`. -/
theorem endsAs_pollReady_transact (f : BitVec 16) (k : Payload) (v : BitVec 16) (o : Op) (a d : Nat) (s : State) :
    s.endsAs (pollReady (transact f k v (latch o a d s))) := by
  have hheld := transact_held f k v (latch o a d s)
  have hstatus : (transact f k v (latch o a d s)).status = s.status := congrArg HeldRegs.status hheld
  have hresult : (transact f k v (latch o a d s)).result = s.result := congrArg HeldRegs.result hheld
  have hends := endsAs_pollReady (transact f k v (latch o a d s))
  rwa [State.endsAs, hstatus, hresult] at hends

/-! ## The refusals, by command -/

theorem refusalOf_openDev (m : Nat) (o : Organization) (s : State) : refusalOf s (.openDev m o) =
    if s.opened then some .alreadyOpen else if 5 ≤ m then some .cfgError else none := rfl

theorem refusalOf_iswe (s : State) : refusalOf s .iswe = if s.opened = false then some .notOpen else none := rfl

/-- A bus command that is not gated is refused by a closed engine only. -/
theorem refusalOf_ungated {s : State} {i : Instr} {b : BusOp} (hb : busOpOf s i = some b) (hgated : busGated b = false) :
    refusalOf s i = if s.opened = false then some .notOpen else none := by
  simp [refusalOf_bus hb, hgated]

theorem refusalOf_gated {s : State} {i : Instr} {b : BusOp} (hb : busOpOf s i = some b) (hgated : busGated b = true) :
    refusalOf s i =
      if s.opened = false then some .notOpen else if s.writeEnabled = false then some .writeProtected else none := by
  simp [refusalOf_bus hb, hgated]

theorem refusalOf_reserved {i : Instr} (h : i ∈ reservedCommands) (s : State) : refusalOf s i = some .badOp :=
  if_pos ((mem_reservedCommands_iff i).mpr h)

/-- The raw codes from 5 up are no model (rule R21). -/
theorem modelOfRaw_eq_none_iff (m : Nat) : modelOfRaw m = none ↔ 5 ≤ m := by
  rcases lt_or_ge m 5 with h | h
  · interval_cases m <;> decide
  · obtain ⟨k, rfl⟩ := Nat.exists_eq_add_of_le' h
    simp [modelOfRaw]

/-! ## Every command, refused or run -/

/-- `u` is the refusal of the command in `s`, or the end of a command that is not refused (rule R248). -/
def State.answers (s : State) (i : Instr) (u : State) : Prop :=
  (∃ st, refusalOf s i = some st ∧ u = raise st s) ∨ (refusalOf s i = none ∧ s.endsAs u)

section Answers

variable {s : State} {i : Instr} {body : State → State}

theorem answers_requireOpened (hrefusal : refusalOf s i = if s.opened = false then some .notOpen else none)
    (hends : s.endsAs (body s)) : s.answers i (requireOpened body s) := by
  obtain ⟨hopen, h⟩ | ⟨hclosed, h⟩ := requireOpened_cases body s
  · exact .inr ⟨by simp [hrefusal, hopen], h ▸ hends⟩
  · exact .inl ⟨.notOpen, by simp [hrefusal, hclosed], h⟩

theorem answers_requireWritable {b : BusOp} (hb : busOpOf s i = some b) (hgated : busGated b = true)
    (hends : s.endsAs (body s)) : s.answers i (requireWritable body s) := by
  have hrefusal := refusalOf_gated hb hgated
  obtain ⟨hopen, hwe, h⟩ | ⟨hopen, hwe, h⟩ | ⟨hclosed, h⟩ := requireWritable_cases body s
  · exact .inr ⟨by simp [hrefusal, hopen, hwe], h ▸ hends⟩
  · exact .inl ⟨.writeProtected, by simp [hrefusal, hopen, hwe], h⟩
  · exact .inl ⟨.notOpen, by simp [hrefusal, hclosed], h⟩

theorem answers_openCommand (m : Nat) (o : Organization) : s.answers (.openDev m o) (openCommand m o s) := by
  have hrefusal := refusalOf_openDev m o s
  obtain ⟨hopen, h⟩ | ⟨hclosed, hmodel, h⟩ | ⟨hclosed, model, hmodel, h⟩ := openCommand_cases m o s
  · exact .inl ⟨.alreadyOpen, by simp [hrefusal, hopen], h⟩
  · exact .inl ⟨.cfgError, by simp [hrefusal, hclosed, (modelOfRaw_eq_none_iff m).mp hmodel], h⟩
  · have hcode : ¬5 ≤ m := by simp [← modelOfRaw_eq_none_iff, hmodel]
    exact .inr ⟨by simp [hrefusal, hclosed, hcode], h ▸ endsAs_complete_ok ..⟩

theorem answers_reserved (h : i ∈ reservedCommands) : s.answers i (raise .badOp s) :=
  .inl ⟨.badOp, refusalOf_reserved h s, rfl⟩

end Answers

theorem exec_answers (i : Instr) (s : State) : ∃ u, exec i s = .next u ∧ s.answers i u := by
  cases i
  case openDev m o => exact ⟨_, rfl, answers_openCommand m o⟩
  case enable | disable | read =>
    exact ⟨_, rfl, answers_requireOpened (refusalOf_ungated rfl rfl) (endsAs_complete_ok ..)⟩
  case iswe => exact ⟨_, rfl, answers_requireOpened (refusalOf_iswe s) (endsAs_complete_ok ..)⟩
  case eraseAll | erase | writeAll | write =>
    exact ⟨_, rfl, answers_requireWritable rfl rfl (endsAs_pollReady_transact ..)⟩
  all_goals exact ⟨_, rfl, answers_reserved (by simp)⟩

theorem exec_of_refused {i : Instr} {s : State} {st : Status} (h : refusalOf s i = some st) :
    exec i s = .next (raise st s) := by
  obtain ⟨u, hexec, ⟨st', hst, rfl⟩ | ⟨hnone, -⟩⟩ := exec_answers i s
  · rw [hexec, Option.some.inj (hst.symm.trans h)]
  · cases hnone.symm.trans h

theorem exec_of_not_refused {i : Instr} {s : State} (h : refusalOf s i = none) :
    ∃ t, exec i s = .next t ∧ s.endsAs t := by
  obtain ⟨u, hexec, ⟨st, hst, -⟩ | ⟨-, hends⟩⟩ := exec_answers i s
  · cases hst.symm.trans h
  · exact ⟨u, hexec, hends⟩

/-- Settles O35: each command is its refusal or its run. -/
theorem refusalPriority : Obligations.RefusalPriority := fun _ _ => ⟨fun _ => exec_of_refused, exec_of_not_refused⟩

/-! ## Which command answers which refusal -/

/-- A refused command in `Idle` changes the completion registers alone. -/
theorem exec_of_refused_of_idle {i : Instr} {s : State} {st : Status} (hidle : s.phase = .idle)
    (h : refusalOf s i = some st) : exec i s = .next { s with status := st, result := 0, done := true } := by
  rw [exec_of_refused h, raise_of_idle hidle]

/-- A command that completes with another status than `OK` and `POLL_TIMEOUT` was refused with it. -/
theorem refusalOf_of_completed {i : Instr} {s t : State} (h : exec i s = .next t) (hdone : t.done = true)
    (hok : t.status ≠ .ok) (htimeout : t.status ≠ .pollTimeout) : refusalOf s i = some t.status := by
  obtain ⟨u, hexec, hanswers⟩ := exec_answers i s
  obtain rfl := Host.Outcome.next.inj (h.symm.trans hexec)
  obtain ⟨st, hst, rfl⟩ | ⟨-, ⟨-, -, hstatus | ⟨hstatus, -⟩⟩ | ⟨hbusy, -⟩⟩ := hanswers
  · exact hst
  · exact absurd hstatus hok
  · exact absurd hstatus htimeout
  · simp [hbusy] at hdone

/-- The gated bus operations are those of the write-class commands (rules R15 and R89). -/
theorem busGated_of_writeClass {i : Instr} {a d : Nat}
    (h : i ∈ [Instr.eraseAll a d, .erase a d, .writeAll a d, .write a d]) (s : State) :
    ∃ b, busOpOf s i = some b ∧ busGated b = true := by
  simp only [List.mem_cons, List.not_mem_nil, or_false] at h
  obtain rfl | rfl | rfl | rfl := h <;> exact ⟨_, rfl, rfl⟩

theorem writeClass_of_busGated {s : State} {i : Instr} {b : BusOp} (hb : busOpOf s i = some b) (h : busGated b = true) :
    ∃ a d, i ∈ [Instr.eraseAll a d, .erase a d, .writeAll a d, .write a d] := by
  cases i <;> cases hb
  case eraseAll a d | erase a d | writeAll a d | write a d => exact ⟨a, d, by simp⟩
  all_goals cases h

/-- The causes of rule R248's refusals at acceptance. -/
inductive Refuses (s : State) (i : Instr) : Status → Prop
  | reserved (hi : i ∈ reservedCommands) : Refuses s i .badOp
  | alreadyOpen (m : Nat) (o : Organization) (hi : i = .openDev m o) (hopen : s.opened = true) : Refuses s i .alreadyOpen
  | noModel (m : Nat) (o : Organization) (hi : i = .openDev m o) (hclosed : s.opened = false) (hcode : 4 < m) :
      Refuses s i .cfgError
  | closed (hi : i.code ≠ 0) (hclosed : s.opened = false) : Refuses s i .notOpen
  | notEnabled (a d : Nat) (hi : i ∈ [Instr.eraseAll a d, .erase a d, .writeAll a d, .write a d])
      (hopen : s.opened = true) (hwe : s.writeEnabled = false) : Refuses s i .writeProtected

theorem code_ne_zero_of_bus {s : State} {i : Instr} {b : BusOp} (hb : busOpOf s i = some b) : i.code ≠ 0 := by
  cases i <;> cases hb <;> exact Nat.succ_ne_zero _

theorem refuses_of_bus {s : State} {i : Instr} {b : BusOp} {st : Status} (hb : busOpOf s i = some b)
    (h : refusalOf s i = some st) : Refuses s i st := by
  rw [refusalOf_bus hb] at h
  split at h
  · rename_i hclosed
    cases h
    exact .closed (code_ne_zero_of_bus hb) hclosed
  · rename_i hopen
    split at h
    · rename_i hblocked
      cases h
      obtain ⟨a, d, hi⟩ := writeClass_of_busGated hb hblocked.1
      exact .notEnabled a d hi (by simpa using hopen) hblocked.2
    · cases h

/-- Each refusal has its cause. -/
theorem refuses_of_refusalOf {s : State} {i : Instr} {st : Status} (h : refusalOf s i = some st) : Refuses s i st := by
  cases i
  case openDev m o =>
    rw [refusalOf_openDev] at h
    split at h
    · cases h
      exact .alreadyOpen m o rfl ‹_›
    · rename_i hopen
      split at h
      · cases h
        exact .noModel m o rfl (by simpa using hopen) ‹_›
      · cases h
  case iswe =>
    rw [refusalOf_iswe] at h
    split at h
    · cases h
      exact .closed (by decide) ‹_›
    · cases h
  case enable | disable | eraseAll | erase | writeAll | write | read => exact refuses_of_bus rfl h
  all_goals
    cases h
    exact .reserved (by simp)

/-- Settles O11: the refusals of OPEN, and no other command is refused with `CFG_ERROR`. -/
theorem openRefusals : Obligations.OpenRefusals := by
  refine ⟨fun s raw o hidle => ⟨fun hopen => ?_, fun hclosed hraw => ?_⟩, fun s t i h hdone hstatus => ?_, rfl, rfl⟩
  · exact exec_of_refused_of_idle hidle (by simp [refusalOf_openDev, hopen])
  · have hcode : 5 ≤ raw := hraw
    exact exec_of_refused_of_idle hidle (by simp [refusalOf_openDev, hclosed, hcode])
  · have hrefused := refusalOf_of_completed h hdone (by simp [hstatus]) (by simp [hstatus])
    rw [hstatus] at hrefused
    cases refuses_of_refusalOf hrefused with
    | noModel m o hi hclosed hcode => exact ⟨hclosed, m, o, hi, hcode⟩

/-- Settles O21: the refusals of the gated commands, and no other command is refused with `WRITE_PROTECTED`. -/
theorem refusedWritesDoNothing : Obligations.RefusedWritesDoNothing := by
  refine ⟨fun s a d i hidle hi => ?_, fun s t i h hdone hstatus => ?_, rfl, rfl⟩
  · obtain ⟨b, hb, hgated⟩ := busGated_of_writeClass hi s
    have hrefusal := refusalOf_gated hb hgated
    exact ⟨fun hopen hwe => exec_of_refused_of_idle hidle (by simp [hrefusal, hopen, hwe]),
      fun hclosed => exec_of_refused_of_idle hidle (by simp [hrefusal, hclosed])⟩
  · have hrefused := refusalOf_of_completed h hdone (by simp [hstatus]) (by simp [hstatus])
    rw [hstatus] at hrefused
    cases refuses_of_refusalOf hrefused with
    | notEnabled a d hi hopen hwe => exact ⟨hopen, hwe, a, d, hi⟩

/-! ## The status port -/

theorem Status.code_le (st : Status) : st.code ≤ 6 := by
  cases st <;> decide

/-- The port is wide enough for every code (rule R32). -/
theorem statusPort_toNat (s : State) : s.statusPort.toNat = s.status.code :=
  Nat.mod_eq_of_lt (Nat.lt_of_le_of_lt s.status.code_le (by decide))

theorem statusPort_ne_seven (s : State) : s.statusPort ≠ 7 := fun h => by
  have hcode : s.status.code = 7 := (statusPort_toNat s).symm.trans (congrArg BitVec.toNat h)
  have hle := s.status.code_le
  omega

/-- Settles O60: the codes are at most 6, so three bits show them. -/
theorem statusCodesOnThePort : Obligations.StatusCodesOnThePort :=
  ⟨rfl, rfl, rfl, rfl, rfl, rfl, rfl, fun s => ⟨statusPort_toNat s, statusPort_ne_seven s⟩⟩

end Sys2Proof.Machine
end

