-- ==== Sys2Proof/Proofs/Permission.lean ====
section
/-! PROOF. The states of permission and how they are left (rule R253, O36). -/

namespace Sys2Proof.Machine

open Sys2Proof

theorem permission_of_closed {s : State} (h : s.opened = false) : s.permission = .closed := by
  simp [State.permission, h]

theorem permission_of_opened {s : State} (h : s.opened = true) :
    s.permission = if s.writeEnabled then .writeEnabled else .writeProtected := if_pos h

theorem permission_of_settings {s t : State} (h : t.settings = s.settings) : t.permission = s.permission := by
  have hopened : t.opened = s.opened := congrArg (fun r : Settings => r.openRegs.opened) h
  have hwe : t.writeEnabled = s.writeEnabled := congrArg Settings.writeEnabled h
  rw [State.permission, hopened, hwe, State.permission]

/-- If setting the flag to `b` changes the state of permission, the engine was open and the flag was not `b`. -/
theorem permission_of_setFlag {s t : State} {b : Bool} (h : t.settings = { s.settings with writeEnabled := b })
    (hne : t.permission ≠ s.permission) :
    s.permission = (if b then .writeProtected else .writeEnabled) ∧
      t.permission = (if b then .writeEnabled else .writeProtected) := by
  have hopened : t.opened = s.opened := congrArg (fun r : Settings => r.openRegs.opened) h
  have hwe : t.writeEnabled = b := congrArg Settings.writeEnabled h
  cases hopen : s.opened with
  | false => exact absurd ((permission_of_closed (hopened.trans hopen)).trans (permission_of_closed hopen).symm) hne
  | true =>
    have hkeeps (hsame : s.writeEnabled = b) : t.settings = s.settings := by
      rw [h, ← hsame]
      rfl
    have hflag : s.writeEnabled = !b := Bool.eq_not.mpr fun hsame => hne (permission_of_settings (hkeeps hsame))
    rw [permission_of_opened hopen, permission_of_opened (hopened.trans hopen), hwe, hflag]
    cases b <;> exact ⟨rfl, rfl⟩

/-- A command that sets the flag when it completes with `OK` (ENABLE and DISABLE), and changes the state of permission. -/
theorem permission_of_flagCommand {s t : State} {b : Bool}
    (h : t.settings = { s.settings with writeEnabled := if t.status = .ok then b else s.writeEnabled })
    (hne : t.permission ≠ s.permission) :
    s.permission = (if b then .writeProtected else .writeEnabled) ∧
      t.permission = (if b then .writeEnabled else .writeProtected) := by
  split at h
  · exact permission_of_setFlag h hne
  · exact absurd (permission_of_settings h) hne

/-- Settles O36: a refused OPEN keeps the settings, and so does every command but ENABLE and DISABLE. -/
theorem permissionTransitions : Obligations.PermissionTransitions := by
  refine ⟨fun _ => rfl, fun s t i h hne => ?_⟩
  have hset := exec_settings h
  cases i
  case openDev m o =>
    obtain ⟨-, hopen⟩ | ⟨-, -, hopen⟩ | ⟨hclosed, model, -, hopen⟩ := openCommand_cases m o s
    · exact absurd (by rw [hset, hopen]; rfl) hne
    · exact absurd (by rw [hset, hopen]; rfl) hne
    · rw [hset, hopen]
      exact .inl ⟨permission_of_closed hclosed, rfl, rfl, rfl⟩
  case enable a d =>
    obtain ⟨hs, ht⟩ := permission_of_flagCommand hset hne
    exact .inr (.inl ⟨hs, ht, rfl⟩)
  case disable a d =>
    obtain ⟨hs, ht⟩ := permission_of_flagCommand hset hne
    exact .inr (.inr ⟨hs, ht, rfl⟩)
  all_goals exact absurd (permission_of_settings hset) hne

end Sys2Proof.Machine
end

