-- ==== Sys2Proof/Proofs/LowPolls.lean ====
section
/-! PROOF. A ready-poll whose samples are all `Low`: with a limit it times out (O22), with none it goes round (O24). -/

namespace Sys2Proof.Machine

open Sys2Proof

/-! ## The time-out -/

/-- A write-class operation receives no payload (rule R89). -/
theorem busRxBits_of_gated {b : BusOp} (h : busGated b = true) (W : Nat) : busRxBits W b = 0 := by
  cases b with
  | eraseAll | writeAll | write | erase => rfl
  | enable | disable | read => cases h

/-- A write-class transaction and its ready-poll in a free environment that answers `Low` up to the limit (rules R137 (5) and R244). -/
theorem pollReady_transactBus_of_limit {s : State} {b : BusOp} {k : Nat} {rest : List Level} (hlegal : s.profileLegal)
    (hb : b.wf s.addrWidth s.width = true) (hrx : busRxBits s.width b = 0) (hchip : s.env.chip = none)
    (hlevels : s.env.levels = List.replicate (k + 1) .low ++ rest) (hlimit : s.pollLimit = some (k + 1)) :
    pollReady (transactBus b s) = { s with
      seg := busSeg b
      sh := busWord s b
      cnt := 0
      cs := .low
      sk := .low
      di := b.lastBit
      pollCount := k + 1
      trace := s.trace ++ transactTrace (encodeBus s.addrWidth s.width b) [] ++ pollTrace k .low
      env := { s.env with levels := rest }
      status := .pollTimeout
      result := 0
      done := true
      phase := .idle } := by
  rw [transactBus_eq hlegal hb hrx, foldl_observe_of_chip_none hchip]
  exact pollReady_of_limit (by exact hchip) (by exact hlevels) (by exact hlimit)

/-- Settles O22: the command is its transaction and its ready-poll, and the poll ends at the limit. -/
theorem pollTimesOutAtLimit : Obligations.PollTimesOutAtLimit := by
  intro s a d n i b rest hi hb hopen hlegal hwe hchip hlimit hpos hlevels
  obtain ⟨k, rfl⟩ := Nat.exists_eq_add_of_le' hpos
  obtain ⟨b', hb', hgated⟩ := busGated_of_writeClass hi s
  obtain rfl := Option.some.inj (hb'.symm.trans hb)
  obtain ⟨t, hexec, -⟩ := exec_of_not_refused (i := i) (s := s) (by simp [refusalOf_gated hb hgated, hopen, hwe])
  obtain ⟨o, a', d', hwf, hpolls, -⟩ := exec_bus_ends hopen hlegal (fun _ => hwe) hb hexec
  have ht := (hpolls hgated).trans (pollReady_transactBus_of_limit (s := latch o a' d' s) hlegal hwf
    (busRxBits_of_gated hgated _) hchip hlevels hlimit)
  subst ht
  exact ⟨_, hexec, rfl, rfl, rfl, rfl, rfl, rfl, rfl, rfl, rfl, rfl, rfl, hwe, hopen⟩

/-! ## The endless poll -/

theorem goPhase_of_phase {s : State} {p : Phase} (hphase : s.phase = p) (hdone : s.done = false) : goPhase p s = s := by
  rw [goPhase, ← hphase, ← hdone]

/-- One round of a poll with no limit: a `Low` sample and its delay (rules R222 and R223). -/
theorem runMicro_two_of_low {s : State} {more : List Level} (hphase : s.phase = .pollSample) (hnone : s.pollLimit = none)
    (hchip : s.env.chip = none) (hlevels : s.env.levels = .low :: more) (hdone : s.done = false) :
    runMicro 2 s = afterLows 1 more s := by
  have hlow : doLevel s ≠ .high := by simp [(pollOnce_of_free hchip hlevels).1]
  have hgoes : limitReached (pollOnce s) ≠ true := by
    rw [Ne, limitReached_iff]
    rintro ⟨n, hn, -⟩
    cases hnone.symm.trans hn
  have hsample : transition s = goPhase .pollDly (pollOnce s) := by
    rw [← goPhase_of_phase hphase hdone, transition_pollSample, goPhase_of_phase hphase hdone, if_neg hlow, if_neg hgoes]
  calc runMicro 2 s
      _ = transition (transition s) := rfl
      _ = goPhase .pollSample (delay .poll (pollOnce s)) := by rw [hsample, transition_pollDly]
      _ = goPhase .pollSample (afterLows 1 more s) := by rw [delay_pollOnce_of_free hchip hlevels]
      _ = afterLows 1 more s := goPhase_of_phase hphase hdone

/-- Settles O24: `n` rounds, each of two micro-steps. -/
theorem pollHangsWhileLow : Obligations.PollHangsWhileLow := by
  intro s n rest hphase hnone hchip hlevels hdone
  change runMicro (2 * n) s = afterLows n rest s
  induction n generalizing s with
  | zero =>
    have hrest : s.env.levels = rest := hlevels
    simp [runMicro, afterLows, ← hrest]
  | succ n ih =>
    have hfirst : s.env.levels = .low :: (List.replicate n .low ++ rest) := hlevels
    calc runMicro (2 * (n + 1)) s
        _ = runMicro (2 * n) (runMicro 2 s) := rfl
        _ = runMicro (2 * n) (afterLows 1 (List.replicate n .low ++ rest) s) := by
          rw [runMicro_two_of_low hphase hnone hchip hfirst hdone]
        _ = afterLows n rest (afterLows 1 (List.replicate n .low ++ rest) s) := ih _ hphase hnone hchip rfl hdone
        _ = afterLows (n + 1) rest s := afterLows_afterLows_one ..

end Sys2Proof.Machine
end

