-- ==== Sys2Proof/Proofs/ResetStep.lean ====
section
/-! PROOF. A step with reset asserted, at either grain and in every phase (rules R270 to R272): O46. -/

namespace Sys2Proof.Machine

open Sys2Proof

/-- Reset comes before everything else that a step looks at (rule R270). -/
theorem cycle_of_reset {run : Instr → State → Host.Outcome State Fault Refusal} {s : State} {rest : List CallerAct}
    (h : s.caller = .assertReset :: rest) : cycle run s = .next (applyReset { s with caller := rest }) := by
  rw [cycle, callerNow_of_cons h, callerTaken_of_cons h]

theorem applyReset_eq (s : State) : applyReset s = { State.reset with
    pollLimit := s.pollLimit
    caller := s.caller
    env := if s.phase = .idle then s.env else { s.env with chip := none } } := by
  simp only [applyReset, Env.afterReset, decide_eq_true_eq]

/-- Settles O46: at either grain the step is the reset of the engine, and neither the phase nor the command port decides. -/
theorem resetFromEveryPhase : Obligations.ResetFromEveryPhase := by
  intro s rest h
  have hstep : step s = .next (applyReset { s with caller := rest }) := cycle_of_reset h
  have hmicro : microStep s = .next (applyReset { s with caller := rest }) := cycle_of_reset h
  exact ⟨hstep.trans (congrArg Host.Outcome.next (applyReset_eq _)), hmicro.trans hstep.symm⟩

end Sys2Proof.Machine
end

