-- ==== Sys2Proof/Proofs/WaitingPoll.lean ====
section
/-! PROOF. A write-class command whose ready-poll sees no `High` and has no limit: it does not complete (O23). -/

namespace Sys2Proof.Machine

open Sys2Proof

/-- A write-class transaction and its ready-poll in a free environment that holds only `Low`, with no limit (rules R137 (4) and R281). -/
theorem pollReady_transactBus_of_waiting {s : State} {b : BusOp} {k : Nat} (hlegal : s.profileLegal)
    (hb : b.wf s.addrWidth s.width = true) (hrx : busRxBits s.width b = 0) (hchip : s.env.chip = none)
    (hlevels : s.env.levels = List.replicate k .low) (hnone : s.pollLimit = none) :
    pollReady (transactBus b s) = { s with
      seg := busSeg b
      sh := busWord s b
      cnt := 0
      cs := .high
      sk := .low
      di := b.lastBit
      pollCount := k
      trace := s.trace ++ transactTrace (encodeBus s.addrWidth s.width b) [] ++ pollWaitTrace k
      env := { s.env with levels := [] }
      done := false
      phase := .pollSample } := by
  rw [transactBus_eq hlegal hb hrx, foldl_observe_of_chip_none hchip]
  exact pollReady_of_waiting (by exact hchip) (by exact hlevels) (by exact hnone)

/-- Settles O23: the command is its transaction and its ready-poll, and the poll is still waiting. -/
theorem pollWithoutReadyStaysBusy : Obligations.PollWithoutReadyStaysBusy := by
  intro s a d k i b hi hb hopen hlegal hwe hchip hnone hlevels
  obtain ⟨b', hb', hgated⟩ := busGated_of_writeClass hi s
  obtain rfl := Option.some.inj (hb'.symm.trans hb)
  obtain ⟨t, hexec, -⟩ := exec_of_not_refused (i := i) (s := s) (by simp [refusalOf_gated hb hgated, hopen, hwe])
  obtain ⟨o, a', d', hwf, hpolls, -⟩ := exec_bus_ends hopen hlegal (fun _ => hwe) hb hexec
  have ht := (hpolls hgated).trans (pollReady_transactBus_of_waiting (s := latch o a' d' s) hlegal hwf
    (busRxBits_of_gated hgated _) hchip hlevels hnone)
  subst ht
  exact ⟨_, hexec, rfl, rfl, rfl, rfl, rfl, rfl, rfl, rfl⟩

end Sys2Proof.Machine
end

