-- ==== Sys2Proof/Proofs/DelayBudget.lean ====
section
/-! PROOF. The delays of each kind and the clock pulses of a command, counted in its events (rule R291): O38. -/

namespace Sys2Proof.Machine

open Sys2Proof

/-! ## Counting in the traces of the procedures -/

theorem eventCount_eq_count (e : Event) (tr : List Event) : eventCount e tr = tr.count e := by
  rw [eventCount, List.count, List.countP_eq_length_filter]
  rfl

/-- A trace made piece by piece, each piece with the same count. -/
theorem count_flatMap_of_const {e : Event} {f : Level → List Event} {n : Nat} (h : ∀ l, (f l).count e = n)
    (ls : List Level) : (ls.flatMap f).count e = n * ls.length := by
  have hconst : List.count e ∘ f = fun _ => n := funext h
  rw [List.count_flatMap, hconst, List.map_const', List.sum_replicate, smul_eq_mul, Nat.mul_comm]

/-- How often an event stands in the pieces of a bus command (rules R130 to R138): `envelope` times around a transaction, `sent` times in each
transmitted bit, `received` times in each received one, `waiting` times between two samples of a ready-poll, and not at all
elsewhere in the poll. -/
structure Event.hasRates (e : Event) (envelope sent received waiting : Nat) : Prop where
  count_envelope : List.count e [.pinWrite .cs .high, .delay .cs] + List.count e [.pinWrite .cs .low] = envelope
  count_sendBit (b : Level) : (sendBitEvents b).count e = sent
  count_receiveBit (l : Level) : (receiveBitEvents l).count e = received
  count_pollWait : pollWaitEvents.count e = waiting
  count_pollEnds (l : Level) : List.count e [.pinWrite .cs .high] + List.count e [.pinRead l, .pinWrite .cs .low] = 0

theorem hasRates_delay_cs : (Event.delay .cs).hasRates 1 0 0 0 := ⟨rfl, fun _ => rfl, fun _ => rfl, rfl, fun _ => rfl⟩

theorem hasRates_delay_tx : (Event.delay .tx).hasRates 0 3 0 0 := ⟨rfl, fun _ => rfl, fun _ => rfl, rfl, fun _ => rfl⟩

theorem hasRates_delay_rx : (Event.delay .rx).hasRates 0 0 2 0 := ⟨rfl, fun _ => rfl, fun _ => rfl, rfl, fun _ => rfl⟩

theorem hasRates_delay_poll : (Event.delay .poll).hasRates 0 0 0 1 :=
  ⟨rfl, fun _ => rfl, fun _ => rfl, rfl, fun _ => rfl⟩

theorem hasRates_clockRise : (Event.pinWrite .sk .high).hasRates 0 1 1 0 :=
  ⟨rfl, fun _ => rfl, fun _ => rfl, rfl, fun _ => rfl⟩

section Rates

variable {e : Event} {c m n p : Nat} (hrates : e.hasRates c m n p)
include hrates

theorem count_transactTrace (bits ls : List Level) :
    (transactTrace bits ls).count e = c + m * bits.length + n * ls.length := by
  obtain ⟨henvelope, hsend, hreceive, -, -⟩ := hrates
  rw [transactTrace, List.count_append, List.count_append, List.count_append, sendTrace, receiveTrace,
    count_flatMap_of_const hsend, count_flatMap_of_const hreceive]
  omega

theorem count_pollTrace (k : Nat) (l : Level) : (pollTrace k l).count e = p * k := by
  obtain ⟨-, -, -, hwait, hends⟩ := hrates
  have hrounds : (List.replicate k pollWaitEvents).flatten.count e = p * k := by
    rw [List.count_flatten, List.map_replicate, List.sum_replicate, hwait, smul_eq_mul, Nat.mul_comm]
  have hrise : pollWaitTrace k = [.pinWrite .cs .high] ++ (List.replicate k pollWaitEvents).flatten := rfl
  have hnone := hends l
  rw [pollTrace, hrise, List.count_append, List.count_append, hrounds]
  omega

end Rates

/-! ## The events of a ready-poll that completes -/

/-- A poll's loop that ends has sampled `k` times with a delay after it, and once more (rule R137 (2)). -/
theorem pollLoop_trace (fuel : Nat) (s : State) : (pollLoop fuel s).1 ≠ .waiting →
    ∃ k l, (pollLoop fuel s).2.pollCount = s.pollCount + (k + 1) ∧
      (pollLoop fuel s).2.trace = s.trace ++ (List.replicate k pollWaitEvents).flatten ++ [.pinRead l] := by
  induction fuel generalizing s with
  | zero => exact absurd rfl
  | succ fuel ih =>
    have hlast : (pollOnce s).trace = s.trace ++ (List.replicate 0 pollWaitEvents).flatten ++ [.pinRead (doLevel s)] := by
      rw [List.replicate_zero, List.flatten_nil, List.append_nil]
      rfl
    rw [pollLoop]
    split
    · exact fun _ => ⟨0, _, rfl, hlast⟩
    · rename_i hlow
      split
      · exact fun _ => ⟨0, _, rfl, hlast⟩
      · intro h
        obtain ⟨k, l, hcount, htrace⟩ := ih _ h
        have hlevel : doLevel s = .low := by
          cases hdo : doLevel s with
          | low => rfl
          | high => exact absurd hdo hlow
        have hround : (delay .poll (pollOnce s)).trace = s.trace ++ pollWaitEvents := by
          rw [pollWaitEvents, ← hlevel]
          exact List.append_assoc ..
        have hcounted : (delay .poll (pollOnce s)).pollCount = s.pollCount + 1 := rfl
        refine ⟨k + 1, l, by omega, ?_⟩
        rw [htrace, hround, List.replicate_succ, List.flatten_cons, ← List.append_assoc s.trace]

theorem pollFinish_trace {r : PollEnd × State} (h : (pollFinish r).phase = .idle) :
    (pollFinish r).trace = r.2.trace ++ [.pinWrite .cs .low] := by
  obtain ⟨e, u⟩ := r
  cases e with
  | ready | timedOut => rfl
  | waiting => cases h

/-- A ready-poll that completes emits its trace, one sample for each that it counts (rules R136 and R137). -/
theorem pollReady_trace {s : State} (h : (pollReady s).phase = .idle) :
    ∃ k l, (pollReady s).pollCount = k + 1 ∧ (pollReady s).trace = s.trace ++ pollTrace k l := by
  rw [pollReady_eq] at h ⊢
  obtain ⟨hended, hcounted, -⟩ := pollFinish_counts h
  obtain ⟨k, l, hcount, htrace⟩ := pollLoop_trace _ _ hended
  have hzero : (pollStart s).pollCount = 0 := rfl
  refine ⟨k, l, by omega, ?_⟩
  have hstart : (pollStart s).trace = s.trace ++ [.pinWrite .cs .high] := rfl
  rw [pollFinish_trace h, htrace, hstart, pollTrace, pollWaitTrace]
  simp only [List.append_assoc, List.cons_append, List.nil_append]

/-! ## The events of a command -/

section Command

variable {s t : State} {i : Instr} {b : BusOp} (hopen : s.opened = true) (hlegal : s.profileLegal)
  (hgate : busGated b = true → s.writeEnabled = true) (hb : busOpOf s i = some b) (h : exec i s = .next t)
  (hidle : t.phase = .idle)
include hopen hlegal hgate hb h hidle

/-- A bus command that completes emits the trace of its transaction, and of its ready-poll if it has one (rules R138 to R140). -/
theorem exec_bus_newEvents : ∃ ls k l, ls.length = busRxBits s.width b ∧
    newEvents s t = transactTrace (encodeBus s.addrWidth s.width b) ls ++ (if busGated b then pollTrace k l else []) ∧
    (busGated b = true → t.pollCount = k + 1) := by
  obtain ⟨o, a, d, hwf, hpolls, hbare⟩ := exec_bus_ends hopen hlegal hgate hb h
  obtain ⟨ls, hls, hframe⟩ := transactBus_stepFrame (s := latch o a d s) hlegal hwf
  have htrace : (transactBus b (latch o a d s)).trace =
      s.trace ++ transactTrace (encodeBus s.addrWidth s.width b) ls := congrArg StepFrame.trace hframe
  cases hgated : busGated b with
  | true =>
    obtain rfl := hpolls hgated
    obtain ⟨k, l, hcount, hpoll⟩ := pollReady_trace hidle
    refine ⟨ls, k, l, hls, ?_, fun _ => hcount⟩
    rw [newEvents, hpoll, htrace, List.append_assoc, List.drop_left, if_pos rfl]
  | false =>
    refine ⟨ls, 0, .low, hls, ?_, nofun⟩
    rw [newEvents, hbare hgated, htrace, List.drop_left, if_neg nofun, List.append_nil]

theorem eventCount_of_rates {e : Event} {c m n p : Nat} (hrates : e.hasRates c m n p) :
    eventCount e (newEvents s t) = c + m * (s.addrWidth + 3 + busTxBits s.width b) + n * busRxBits s.width b +
      p * (if busGated b then t.pollCount - 1 else 0) := by
  obtain ⟨ls, k, l, hls, hevents, hcount⟩ := exec_bus_newEvents hopen hlegal hgate hb h hidle
  obtain ⟨hbits, -⟩ := busFrameLengths s.addrWidth s.width b (two_le_addrWidth hlegal)
  rw [eventCount_eq_count, hevents, List.count_append, count_transactTrace hrates, hbits, hls]
  cases hgated : busGated b with
  | true => rw [if_pos rfl, if_pos rfl, count_pollTrace hrates, hcount hgated, Nat.add_sub_cancel]
  | false => rw [if_neg nofun, if_neg nofun, List.count_nil, Nat.mul_zero]

end Command

/-- A command that ends with its acceptance emits nothing, or the pin configuration of OPEN (rules R34 and R240). -/
theorem newEvents_of_refused_or_no_bus {s t : State} {i : Instr} (hends : refusalOf s i ≠ none ∨ busOpOf s i = none)
    (h : exec i s = .next t) : newEvents s t = [] ∨ newEvents s t = openEvents := by
  obtain ⟨haccept, -⟩ := microStepCounts s t i h
  exact haccept hends ▸ newEvents_accept i s

/-- Settles O38: every event is counted in the traces of the transaction and of the ready-poll, and a command that has neither emits no delay and no
pulse. -/
theorem delayAndPulseBudget : Obligations.DelayAndPulseBudget := by
  refine ⟨fun s t i b hopen hlegal hgate hb h hidle => ?_, fun s t i k hends h => ?_⟩
  · have hcount {e : Event} {c m n p : Nat} (hrates : e.hasRates c m n p) :=
      eventCount_of_rates hopen hlegal hgate hb h hidle hrates
    refine ⟨?_, ?_, ?_, ?_, ?_⟩
    · simpa using hcount hasRates_delay_cs
    · simpa using hcount hasRates_delay_tx
    · simpa using hcount hasRates_delay_rx
    · simpa using hcount hasRates_delay_poll
    · simpa using hcount hasRates_clockRise
  · obtain hnone | hopened := newEvents_of_refused_or_no_bus hends h
    · rw [hnone]
      exact ⟨rfl, rfl⟩
    · rw [hopened]
      exact ⟨rfl, rfl⟩

end Sys2Proof.Machine
end

