-- ==== Sys2Proof/Proofs/MirrorLitmus.lean ====
section
/-! PROOF. A write-class command to a responder whose latch is off: the responder stores nothing and has nothing to report, so the level on DO is
free, and a `High` there ends the ready-poll with `OK` (rule R283 (b)): O58. -/

namespace Sys2Proof.Machine

open Sys2Proof

/-! ## A responder that has nothing to report -/

/-- Selected without a clock pulse, the responder drives nothing (rule R69). -/
theorem drivenLevel_shifting_nil (c : Chip) (d : Level) : (c.shifting [] d).drivenLevel = none := by
  simp [Chip.drivenLevel, Chip.drivesData, Chip.shifting]

/-- Without its start marker a frame is no operation (rule R70). -/
theorem execute_nil (c : Chip) : c.execute [] = c := by
  simp [Chip.execute, decodeBus]

/-- Chip-select falls before a bit was clocked in. -/
theorem sees_deselect_of_no_bits (c : Chip) (d : Level) :
    (c.shifting [] d).sees (.pinWrite .cs .low) = c.resting [] d :=
  congrArg (fun x : Chip => { x with mode := .off }) (execute_nil { c.shifting [] d with csL := .low })

/-- A responder that decides no sample leaves it to the environment's free levels (rule R62). -/
theorem sampleDO_of_undriven {s : State} {c : Chip} {l : Level} {rest : List Level} (hchip : s.env.chip = some c)
    (hdriven : c.drivenLevel = none) (hlevels : s.env.levels = l :: rest) :
    doLevel s = l ∧ (sampleDO s).env.chip = some c := by
  simp [doLevel, Env.level, sampleDO_eq, Env.answered, Env.freeLevel, Env.afterFree, hchip, hdriven, hlevels]

/-- A ready-poll of a responder that has stored nothing ends with `OK` when the first free level is `High` (rules R69 and R136). -/
theorem pollReady_of_nothing_pending {s : State} {c : Chip} {rest : List Level} (hlimit : s.pollLimit = none)
    (hpending : c.pending = false) (hlevels : s.env.levels = .high :: rest) (h : s.restsWith c) :
    (pollReady s).status = .ok ∧ (pollReady s).restsWith c := by
  obtain ⟨bits, d, hd⟩ := h
  have hstart : (pollStart s).env.chip = some (c.shifting [] d) :=
    (emit_chip hd _).trans (congrArg some (sees_select (c := c.resting bits d) rfl rfl hpending))
  have hheld : (pollStart s).env.levels = .high :: rest := hlevels
  have hlimit' : (pollStart s).pollLimit = none := hlimit
  have hfuel : pollFuel (pollStart s) = rest.length + 1 := by
    simp [pollFuel, hlimit', Env.horizon, hstart, hheld, Chip.shifting]
  obtain ⟨hhigh, hsampled⟩ := sampleDO_of_undriven hstart (drivenLevel_shifting_nil c d) hheld
  have hready : pollReady s = complete .ok 0 (writePin .cs .low (pollOnce (pollStart s))) := by
    rw [pollReady_eq, hfuel, pollLoop, if_pos hhigh, pollFinish]
  rw [hready]
  exact ⟨rfl, [], d, (emit_chip hsampled _).trans (congrArg some (sees_deselect_of_no_bits c d))⟩

/-! ## The command -/

theorem foldl_observe_levels (es : List Event) (e : Env) : (es.foldl Env.observe e).levels = e.levels := by
  induction es generalizing e with
  | nil => rfl
  | cons ev es ih =>
    rw [List.foldl_cons, ih]
    cases ev <;> rfl

/-- With its latch off the responder performs no write-class operation (rule R70). -/
theorem perform_of_latch_off {c : Chip} {b : BusOp} (hlatch : c.ewLatch = false) (hgated : busGated b = true) :
    c.perform b = c := by
  have hstore (m : Memory) : c.store m = c := if_neg (by simp [hlatch])
  cases b with
  | eraseAll | writeAll | write | erase => exact hstore _
  | enable | disable | read => cases hgated

/-- The transaction of such an operation and the ready-poll after it (rules R70 and R136). -/
theorem pollReady_transactBus_of_latch_off {s : State} {c : Chip} {b : BusOp} {rest : List Level} (hlegal : s.profileLegal)
    (hready : s.chipReady c) (hb : b.wf s.addrWidth s.width = true) (hlatch : c.ewLatch = false)
    (hgated : busGated b = true) (hlimit : s.pollLimit = none) (hlevels : s.env.levels = .high :: rest) :
    (pollReady (transactBus b s)).status = .ok ∧ (pollReady (transactBus b s)).restsWith c := by
  have hrest := transactBus_restsWith hlegal hready hb
  rw [perform_of_latch_off hlatch hgated] at hrest
  have hlimit' : (transactBus b s).pollLimit = none :=
    pollLimit_of_openRegs (congrArg Settings.openRegs (transact_settings ..)) hlimit
  have hlevels' : (transactBus b s).env.levels = .high :: rest := by
    rw [transactBus_eq hlegal hb (busRxBits_of_gated hgated _)]
    exact (foldl_observe_levels ..).trans hlevels
  exact pollReady_of_nothing_pending hlimit' (pending_of_chipReady hready) hlevels' hrest

/-- With the latch off a WRITE ends with `OK` at a free `High`, and the responder's array is as it was (rule R283 (b)). -/
theorem exec_write_of_latch_off {s : State} {c : Chip} {rest : List Level} (a d : Nat) (hopen : s.opened = true)
    (hlegal : s.profileLegal) (hwe : s.writeEnabled = true) (hlimit : s.pollLimit = none) (hready : s.chipReady c)
    (hlatch : c.ewLatch = false) (hlevels : s.env.levels = .high :: rest) :
    ∃ (t : State) (c' : Chip), exec (.write a d) s = .next t ∧ t.status = .ok ∧ t.chipReady c' ∧ c'.mem = c.mem := by
  have hexec := exec_write_eq a d hopen hwe hlegal
  obtain ⟨hstatus, hrest⟩ := pollReady_transactBus_of_latch_off (s := latch .write a d s) hlegal hready
    (mod_wf_write s.addrWidth s.width a d) hlatch rfl hlimit hlevels
  obtain ⟨c', hready', -, hmem⟩ := chipReady_of_restsWith hready (exec_openRegs_of_opened hopen hexec) hrest rfl rfl
    (chip_wf_of_chipReady hready) (pending_of_chipReady hready)
  exact ⟨_, c', hexec, hstatus, hready', hmem⟩

/-! ## The litmus -/

/-- A responder as rule R67 starts it, every unit erased. -/
def latchOffChip : Chip := Chip.initial .c46 .eightBit (Memory.fillAll 0xFF) 0 []

/-- An engine opened for that chip which believes that writing is enabled; the free level to come is `High`. -/
def misledEngine : State :=
  { loadProfile .c46 .eightBit State.reset with
    opened := true
    padOe := true
    writeEnabled := true
    env := { levels := [.high], draws := 0, chip := some latchOffChip } }

theorem misledEngine_inv : misledEngine.Inv where
  open_profile := by decide
  closed_clean := by decide
  phase_levels := by decide
  trace_pins := by decide
  busy_clean := by decide
  result_zero := by decide
  chip_wf := by decide

/-- Settles O58: the WRITE of `misledEngine` to `latchOffChip`. -/
theorem mirrorCanDisagree : Obligations.MirrorCanDisagree := by
  have hready : misledEngine.chipReady latchOffChip := by decide
  obtain ⟨t, c', hexec, hstatus, hready', hmem⟩ :=
    exec_write_of_latch_off (rest := []) 5 0xA5 rfl (by decide) rfl rfl hready rfl rfl
  exact ⟨misledEngine, t, latchOffChip, c', misledEngine_inv, hready, rfl, rfl, hexec, hstatus, hready', hmem, by decide⟩

end Sys2Proof.Machine
end

