-- ==== Sys2Proof/Proofs/DecoderDomain.lean ====
section
/-! PROOF. The decoder from the word's side (log entry 3): which words it rejects, and that a command it reads fits the ports and carries the
word's code (O3); so the step after `withFetchWord` runs the command of the table word (O48). -/

namespace Sys2Proof

/-! ## Which words are decoded -/

/-- No bit is set where the command port has no wire (log entry 3). -/
abbrev padsClear (w : CmdWord) : Prop := cmdField 4 12 w = 0 ∧ cmdField 20 12 w = 0

/-- The command that the five fields of a word stand for. -/
abbrev commandOfFields (w : CmdWord) : Instr :=
  commandOf (cmdField 0 4 w) (cmdField 16 3 w) (orgOfRaw (cmdField 19 1 w)) (cmdField 32 16 w) (cmdField 48 16 w)

theorem decode_of_padsClear {w : CmdWord} (h : padsClear w) : decode w = .ok (commandOfFields w) :=
  if_pos h

theorem decode_of_not_padsClear {w : CmdWord} (h : ¬padsClear w) : decode w = .error .padBits :=
  if_neg h

theorem decode_eq_padBits_iff {w : CmdWord} : decode w = .error .padBits ↔ ¬padsClear w := by
  refine ⟨fun herror hpads => ?_, decode_of_not_padsClear⟩
  rw [decode_of_padsClear hpads] at herror
  cases herror

/-- A command that is decoded is read from the word's fields. -/
theorem eq_commandOfFields_of_decode {w : CmdWord} {i : Instr} (h : decode w = .ok i) : i = commandOfFields w := by
  by_cases hpads : padsClear w
  · rw [decode_of_padsClear hpads] at h
    exact (Except.ok.inj h).symm
  · rw [decode_of_not_padsClear hpads] at h
    cases h

/-! ## What is decoded -/

theorem cmdField_lt (lo width : Nat) (w : CmdWord) : cmdField lo width w < 2 ^ width :=
  Nat.mod_lt _ (Nat.two_pow_pos width)

/-- Rule R96: each of the sixteen codes has its own command. -/
theorem code_commandOf {code : Nat} (h : code < 2 ^ 4) (m : Nat) (o : Organization) (a d : Nat) :
    (commandOf code m o a d).code = code := by
  interval_cases code <;> rfl

/-- Whatever the code, the command holds no operand but the ports. -/
theorem wf_commandOf (code : Nat) {m a d : Nat} (o : Organization) (hm : m < 2 ^ 3) (h : operandsFit a d) :
    (commandOf code m o a d).wf = true := by
  match code with
  | 0 => exact decide_eq_true hm
  | 1 | 2 | 4 | 5 | 6 | 7 | 8 => exact decide_eq_true h
  | 3 | 9 | 10 | 11 | 12 | 13 | 14 | _ + 15 => rfl

theorem wf_commandOfFields (w : CmdWord) : (commandOfFields w).wf = true :=
  wf_commandOf _ _ (cmdField_lt ..) ⟨cmdField_lt .., cmdField_lt ..⟩

/-- Settles O3: the pads alone decide, and the fields of any word fit the ports. -/
theorem decoderAcceptsExactlyPortWords : Obligations.DecoderAcceptsExactlyPortWords := by
  refine fun w => ⟨decode_eq_padBits_iff, fun i h => ?_⟩
  obtain rfl := eq_commandOfFields_of_decode h
  have hwf := wf_commandOfFields w
  exact ⟨hwf, code_commandOf (cmdField_lt ..) .., decode_encode hwf⟩

/-! ## Table words -/

theorem decode_of_decodeTableWord {nbits w : Nat} {i : Instr} (h : decodeTableWord nbits w = some i) :
    decode (tableWord nbits w) = .ok i := by
  unfold decodeTableWord at h
  split at h
  · rename_i hdecode
    rw [hdecode, Option.some.inj h]
  · cases h

end Sys2Proof

namespace Sys2Proof.Machine

open Sys2Proof

/-- Settles O48: `withFetchWord` makes the engine idle with the table word presented, and the step uses that act up. -/
theorem fetchedWordRuns : Obligations.FetchedWordRuns :=
  fun _ _ _ _ h => cycle_of_command rfl rfl (decode_of_decodeTableWord h)

end Sys2Proof.Machine
end
